-- ==== Sys2Proof/Word.lean ====
section
/-!
DEFINITION. The word types of the DMX_MPX core.
Only what the spec treats as bits is a bit vector here: bytes of the serial line, the frame buffer and the
two-wire bus (20_memory.md R63, 30_encoding.md R84), the 10-bit DAC sample (00_scope.md R13) and the 16-bit
stimulus word (30_encoding.md R92).
-/

namespace Sys2Proof

/-- A byte: one channel slot, one frame-buffer cell, one byte on the two-wire bus. -/
abbrev Byte := BitVec 8

/-- A DAC sample: the 10-bit code of one pulse (00_scope.md R13). -/
abbrev Sample := BitVec 10

/-- A stimulus word: `op` in bits 15:12, `arg` in bits 11:0 (30_encoding.md R92). -/
abbrev StimWord := BitVec 16

/-- The slice `v[hi:lo]` of 00_scope.md section 5, given as its low end and its width. -/
abbrev bits {n : Nat} (v : BitVec n) (lo width : Nat) : BitVec width := v.extractLsb' lo width

end Sys2Proof
end

