-- ==== Sys2Proof/Config.lean ====
section
/-!
DEFINITION. The implementation parameters of 00_scope.md section 4.
What the document fixes is a constant; what it leaves OPEN is a field of `Params`, which the machine's state carries
and no step writes, so that a statement about every state is a statement about every parameter set (log 3).
-/

namespace Sys2Proof

/-- `BREAK_THRESHOLD`: consecutive LOW samples that confirm a break (00_scope.md R9). -/
def breakThreshold : Nat := 20

/-- `START_MAX`: the largest legal `start_address` (00_scope.md R12). -/
def startMax : Nat := 512

/-- `LEVEL_SCALE` (00_scope.md R13). -/
def levelScale : Nat := 2

/-- `LEVEL_OFFSET` (00_scope.md R13). -/
def levelOffset : Nat := 512

/-- `SUP_IDLE_LIMIT`: the supervisor clears the indicator only above this count (00_scope.md R14). -/
def supIdleLimit : Nat := 2

/-- The largest value the parameter `MAX_CH` may have (00_scope.md R10). -/
def maxChLimit : Nat := 512

/-- The least value the parameter `MAX_OUT` may have (00_scope.md R11, 43_mpx_generator.md R161). -/
def maxOutLeast : Nat := 2

/-- `SAMPLE_SHIFT`, which is 0 or 2: the place of the 10-bit sample in the 12 bits of the two data bytes
(00_scope.md R18, 90_conflicts.md C5). -/
inductive SampleShift where
  | zero
  | two
  deriving DecidableEq, Repr

/-- The number `SAMPLE_SHIFT` stands for. -/
def SampleShift.amount : SampleShift → Nat
  | .zero => 0
  | .two => 2

/-- The OPEN parameters (00_scope.md R10, R11, R16 to R19). -/
structure Params where
  /-- `MAX_CH`: compile-time maximum of `channel_count` (R10). -/
  maxCh : Nat
  /-- `MAX_OUT`: output channels emitted per scan (R11). -/
  maxOut : Nat
  /-- `DAC_ADDR`: the 7-bit address of the two-wire DAC (R17). -/
  dacAddr : BitVec 7
  /-- `SAMPLE_SHIFT` (R18). -/
  sampleShift : SampleShift
  /-- `FRAME_INIT`: the frame buffer after reset, one byte for each index from 0 to `FRAME_TOP` (R19). -/
  frameInit : List Byte
  /-- `T_TICK` in microseconds (R16); no transition rule reads it. -/
  tTick : Nat
  /-- `T_SHORT` in microseconds (R16); no transition rule reads it. -/
  tShort : Nat
  /-- `T_LONG` in microseconds (R16); no transition rule reads it. -/
  tLong : Nat
  /-- `T_SUP` in microseconds (R16); no transition rule reads it. -/
  tSup : Nat
  deriving DecidableEq, Repr

/-- `FRAME_TOP = max(MAX_CH, MAX_OUT)`: the highest index of the frame buffer (00_scope.md R15). -/
def Params.frameTop (p : Params) : Nat := max p.maxCh p.maxOut

/-- `FRAME_INIT(i)` (00_scope.md R19): the byte an index holds until something is stored there. -/
def Params.initByte (p : Params) (i : Nat) : Byte := p.frameInit.getD i 0

/-- The constraints of 00_scope.md R10 and R11, and that `FRAME_INIT` is given for exactly the indices of the frame
buffer. A model must refuse a set that breaks them (43_mpx_generator.md R161, 60_exceptions.md R209). -/
def Params.ok (p : Params) : Bool :=
  decide (p.maxCh ≤ maxChLimit) && decide (maxOutLeast ≤ p.maxOut) && decide (p.frameInit.length = p.frameTop + 1)

/-- Width of `received_count`, `ceil(log2(MAX_CH + 2))` bits (10_state.md R26). -/
def Params.receivedCountWidth (p : Params) : Nat := Nat.clog 2 (p.maxCh + 2)

/-- Width of `output_channel_index`, `ceil(log2(MAX_OUT + 1))` bits (10_state.md R31). -/
def Params.channelIndexWidth (p : Params) : Nat := Nat.clog 2 (p.maxOut + 1)

/-- Width of `cfg_channel_count`, `ceil(log2(MAX_CH + 1))` bits (10_state.md R38). -/
def Params.channelCountWidth (p : Params) : Nat := Nat.clog 2 (p.maxCh + 1)

/-- The reference set of 92_eei_decisions.md (D14, D19, D29) and 95_test_vectors.md, with the spec's example address
and an all-zero `FRAME_INIT`. DESIGN CHOICE (log 4): only `State.reset` uses it. -/
def Params.reference : Params where
  maxCh := 16
  maxOut := 16
  dacAddr := 0x60#7
  sampleShift := .zero
  frameInit := List.replicate 17 0
  tTick := 4
  tShort := 250
  tLong := 5500
  tSup := 500000

end Sys2Proof
end

