-- ==== Sys2Proof/Syntax.lean ====
section
/-!
DEFINITION. The operations of the core: one constructor of `Instr` for each row of spec/opcode_table.json.
The block decodes no instructions (00_scope.md R7); an operation is the reaction of one state machine to one event.
The first thirteen rows are those events (10_state.md R40); the last five are the data formats the block itself
produces (30_encoding.md R81, R82, R85, R86, R87).
-/

namespace Sys2Proof

/-- The receive line sampled at a tick (40_break_detector.md R114): `low` counts toward a break. -/
inductive LineLevel where
  | low
  | high
  deriving DecidableEq, Repr

/-- The kinds of line error the deserializer reports (10_state.md R40, 60_exceptions.md R206). -/
inductive ErrorKind where
  | overrun
  | framing
  | parity
  deriving DecidableEq, Repr

/-- One row of the operation and format table. -/
inductive Instr where
  /-- RESET: power-on or external reset (70_reset_and_hazards.md R230). -/
  | reset
  /-- TICK: one expiry of the armed Byte Clock with the line level (40_break_detector.md R110 to R113). -/
  | tick (level : LineLevel)
  /-- RXBYTE: a byte from the serial deserializer (41_frame_receiver.md R120 to R123). -/
  | rxByte (b : Byte)
  /-- RXERR OVERRUN (41_frame_receiver.md R124, R125). -/
  | rxErrOverrun
  /-- RXERR FRAMING (41_frame_receiver.md R124, R126). -/
  | rxErrFraming
  /-- RXERR PARITY (41_frame_receiver.md R124, R127). -/
  | rxErrParity
  /-- REARM: one pass of the mainline loop (42_mainline_rearm.md R140, R141). -/
  | rearm
  /-- MPXTICK: one expiry of the MPX timer (43_mpx_generator.md R150 to R155). -/
  | mpxTick
  /-- DACREQ: a sample requested directly by a harness (44_dac_driver.md R170, R171). -/
  | dacReq (s : Sample)
  /-- BUSDONE: completion of a bus command (44_dac_driver.md R172 to R177). -/
  | busDone
  /-- SUPTICK: one expiry of the slow timer with the receiver-idle status (45_link_supervisor.md R190). -/
  | supTick (rxIdle : Bool)
  /-- CFGADDR: the UI writes the start address (46_config_port.md R195). -/
  | cfgAddr (a : BitVec 10)
  /-- CFGCNT: the UI writes the channel count (46_config_port.md R196). -/
  | cfgCnt (n : BitVec 10)
  /-- LEVEL_CODE: the sample of a channel level (30_encoding.md R81). -/
  | levelCode (v : Byte)
  /-- SYNC_CODE: the sample of a sync pulse (30_encoding.md R82). -/
  | syncCode
  /-- DAC_ADDR_BYTE: the device-address-plus-write byte of a transaction (30_encoding.md R85). -/
  | dacAddrByte (a : BitVec 7)
  /-- DAC_HIGH_BYTE: the first data byte of a transaction (30_encoding.md R86). -/
  | dacHighByte (h : BitVec 4)
  /-- DAC_LOW_BYTE: the second data byte of a transaction (30_encoding.md R87). -/
  | dacLowByte (l : Byte)
  deriving DecidableEq, Repr

/-- The row's name in spec/opcode_table.json. -/
def Instr.mnemonic : Instr → String
  | .reset => "RESET"
  | .tick _ => "TICK"
  | .rxByte _ => "RXBYTE"
  | .rxErrOverrun => "RXERR_OVERRUN"
  | .rxErrFraming => "RXERR_FRAMING"
  | .rxErrParity => "RXERR_PARITY"
  | .rearm => "REARM"
  | .mpxTick => "MPXTICK"
  | .dacReq _ => "DACREQ"
  | .busDone => "BUSDONE"
  | .supTick _ => "SUPTICK"
  | .cfgAddr _ => "CFGADDR"
  | .cfgCnt _ => "CFGCNT"
  | .levelCode _ => "LEVEL_CODE"
  | .syncCode => "SYNC_CODE"
  | .dacAddrByte _ => "DAC_ADDR_BYTE"
  | .dacHighByte _ => "DAC_HIGH_BYTE"
  | .dacLowByte _ => "DAC_LOW_BYTE"

/-- Which byte of the two-wire transaction a bus byte is: a transaction is always the same five bus actions in the
same order (30_encoding.md R84), so its place names its format. -/
inductive ByteSlot where
  | address
  | high
  | low
  deriving DecidableEq, Repr

/-- An encoded operation or datum, in one of the table's three formats: STIM16, SAMPLE10, and BUSBYTE8 with the
byte's place in the transaction. -/
inductive CodeWord where
  | stim16 (w : StimWord)
  | sample10 (w : Sample)
  | busByte8 (slot : ByteSlot) (w : Byte)
  deriving DecidableEq, Repr

end Sys2Proof
end

