-- ==== Sys2Proof/Decode.lean ====
section
/-!
DEFINITION. Decoder and encoder of the table's three formats (30_encoding.md R81, R82, R84 to R87, R92 to R94), and
the opcode table itself as a list of match and mask pairs.
The stimulus words are the spec's harness convention (decision D26), not a property of the hardware.
-/

namespace Sys2Proof

/-- Why a code word spells no row of the table. For the stimulus words it is 30_encoding.md R94; that a sample or a bus
byte outside its rows is turned away too is a DESIGN CHOICE (log 29), since R94 speaks of stimulus words only. -/
inductive DecodeError where
  /-- `op` 0xB to 0xF. -/
  | reservedOp (op : BitVec 4)
  /-- `0x3003`: error kind 3. -/
  | reservedErrorKind
  /-- A must-be-zero bit of `arg` is set. -/
  | mustBeZero (op : BitVec 4)
  /-- A SAMPLE10 word that is neither a level code nor the sync code: the samples of 30_encoding.md R83, which the
  driver does send when a DACREQ carries them. DESIGN CHOICE (log 29). -/
  | notASampleCode (s : Sample)
  /-- A first byte whose write bit is not 0, so not of the form of 30_encoding.md R85. DESIGN CHOICE (log 29). -/
  | notAnAddressByte (w : Byte)
  /-- A second byte whose upper nibble is not 0, so not of the form of 30_encoding.md R86. DESIGN CHOICE (log 29). -/
  | notAHighByte (w : Byte)
  deriving DecidableEq, Repr

/-- The operation, if the bits of the stimulus word that must be zero are zero (30_encoding.md R93). -/
def whenZero {n : Nat} (op : BitVec 4) (mustBeZero : BitVec n) (i : Instr) : Except DecodeError Instr :=
  if mustBeZero = 0 then .ok i else .error (.mustBeZero op)

/-- A one-bit field as a truth value. -/
def flagOf (b : BitVec 1) : Bool := b == 1#1

/-- A truth value as a one-bit field. -/
def bitOf (b : Bool) : BitVec 1 := if b then 1#1 else 0#1

/-- Line level code: `LOW` = 0, `HIGH` = 1 (30_encoding.md R91). -/
def LineLevel.ofBit (b : BitVec 1) : LineLevel := if flagOf b then .high else .low

/-- Line level code (30_encoding.md R91). -/
def LineLevel.toBit : LineLevel → BitVec 1
  | .low => 0#1
  | .high => 1#1

/-- Error kind code: `OVERRUN` = 0, `FRAMING` = 1, `PARITY` = 2 (30_encoding.md R91). -/
def ErrorKind.code : ErrorKind → BitVec 2
  | .overrun => 0#2
  | .framing => 1#2
  | .parity => 2#2

/-- The three RXERR rows of the operation map (30_encoding.md R93); kind 3 is reserved (R94). -/
def decodeRxErr (kind : BitVec 2) : Except DecodeError Instr :=
  if kind = ErrorKind.overrun.code then .ok .rxErrOverrun
  else if kind = ErrorKind.framing.code then .ok .rxErrFraming
  else if kind = ErrorKind.parity.code then .ok .rxErrParity
  else .error .reservedErrorKind

/-- The operation map (30_encoding.md R93): `op` selects the operation, unnamed `arg` bits must be 0; the words of
R94 are reserved. -/
def decodeStim (w : StimWord) : Except DecodeError Instr :=
  let op : BitVec 4 := bits w 12 4
  match op.toNat with
  | 0x0 => whenZero op (bits w 0 12) .reset
  | 0x1 => whenZero op (bits w 1 11) (.tick (LineLevel.ofBit (bits w 0 1)))
  | 0x2 => whenZero op (bits w 8 4) (.rxByte (bits w 0 8))
  | 0x3 => if bits w 2 10 = 0 then decodeRxErr (bits w 0 2) else .error (.mustBeZero op)
  | 0x4 => whenZero op (bits w 0 12) .rearm
  | 0x5 => whenZero op (bits w 0 12) .mpxTick
  | 0x6 => whenZero op (bits w 10 2) (.dacReq (bits w 0 10))
  | 0x7 => whenZero op (bits w 0 12) .busDone
  | 0x8 => whenZero op (bits w 1 11) (.supTick (flagOf (bits w 0 1)))
  | 0x9 => whenZero op (bits w 10 2) (.cfgAddr (bits w 0 10))
  | 0xA => whenZero op (bits w 10 2) (.cfgCnt (bits w 0 10))
  | _ => .error (.reservedOp op)

/-- Sample codes: the level code has bit 9 set and bit 0 clear, the sync code is 0 (30_encoding.md R81, R82). Any other
sample spells no row of the table and is turned away (DESIGN CHOICE, log 29). -/
def decodeSample (s : Sample) : Except DecodeError Instr :=
  if s = 0 then .ok .syncCode
  else if bits s 9 1 = 1#1 ∧ bits s 0 1 = 0#1 then .ok (.levelCode (bits s 1 8))
  else .error (.notASampleCode s)

/-- The byte of the transaction that stands in the given place (30_encoding.md R84 to R87). A byte that its place cannot
hold spells no row of the table and is turned away (DESIGN CHOICE, log 29). -/
def decodeBusByte (slot : ByteSlot) (w : Byte) : Except DecodeError Instr :=
  match slot with
  | .address => if bits w 0 1 = 0#1 then .ok (.dacAddrByte (bits w 1 7)) else .error (.notAnAddressByte w)
  | .high => if bits w 4 4 = 0#4 then .ok (.dacHighByte (bits w 0 4)) else .error (.notAHighByte w)
  | .low => .ok (.dacLowByte w)

/-- Total decoder: the operation a code word spells, or why it spells none. -/
def decode : CodeWord → Except DecodeError Instr
  | .stim16 w => decodeStim w
  | .sample10 s => decodeSample s
  | .busByte8 slot w => decodeBusByte slot w

/-- A stimulus word from its `op` and `arg` (30_encoding.md R92). -/
def stimWord (op : BitVec 4) (arg : BitVec 12) : CodeWord := .stim16 (op ++ arg)

/-- Encoder: the words of an operation (30_encoding.md R81, R82, R85 to R87, R93). -/
def encode : Instr → CodeWord
  | .reset => stimWord 0x0#4 0#12
  | .tick level => stimWord 0x1#4 (0#11 ++ level.toBit)
  | .rxByte b => stimWord 0x2#4 (0#4 ++ b)
  | .rxErrOverrun => stimWord 0x3#4 (0#10 ++ ErrorKind.overrun.code)
  | .rxErrFraming => stimWord 0x3#4 (0#10 ++ ErrorKind.framing.code)
  | .rxErrParity => stimWord 0x3#4 (0#10 ++ ErrorKind.parity.code)
  | .rearm => stimWord 0x4#4 0#12
  | .mpxTick => stimWord 0x5#4 0#12
  | .dacReq s => stimWord 0x6#4 (0#2 ++ s)
  | .busDone => stimWord 0x7#4 0#12
  | .supTick rxIdle => stimWord 0x8#4 (0#11 ++ bitOf rxIdle)
  | .cfgAddr a => stimWord 0x9#4 (0#2 ++ a)
  | .cfgCnt n => stimWord 0xA#4 (0#2 ++ n)
  | .levelCode v => .sample10 (1#1 ++ v ++ 0#1)
  | .syncCode => .sample10 0#10
  | .dacAddrByte a => .busByte8 .address (a ++ 0#1)
  | .dacHighByte h => .busByte8 .high (0#4 ++ h)
  | .dacLowByte l => .busByte8 .low l

/-! ### The opcode table as data -/

/-- The width of a code word in bits. -/
def CodeWord.nbits : CodeWord → Nat
  | .stim16 _ => 16
  | .sample10 _ => 10
  | .busByte8 _ _ => 8

/-- The bits of a code word as a number, bit 0 the least significant. -/
def CodeWord.toNat : CodeWord → Nat
  | .stim16 w => w.toNat
  | .sample10 s => s.toNat
  | .busByte8 _ w => w.toNat

/-- A row of spec/opcode_table.json: the words `w` of `nbits` bits with `w &&& mask = matchBits`. -/
structure TableRow where
  mnemonic : String
  nbits : Nat
  matchBits : Nat
  mask : Nat
  deriving DecidableEq, Repr

/-- The row spells this word. -/
def TableRow.spells (r : TableRow) (nbits w : Nat) : Bool := r.nbits == nbits && (w &&& r.mask) == r.matchBits

/-- The operation map of 30_encoding.md R93. -/
def stimRows : List TableRow :=
  [⟨"RESET", 16, 0x0000, 0xFFFF⟩, ⟨"TICK", 16, 0x1000, 0xFFFE⟩, ⟨"RXBYTE", 16, 0x2000, 0xFF00⟩,
   ⟨"RXERR_OVERRUN", 16, 0x3000, 0xFFFF⟩, ⟨"RXERR_FRAMING", 16, 0x3001, 0xFFFF⟩, ⟨"RXERR_PARITY", 16, 0x3002, 0xFFFF⟩,
   ⟨"REARM", 16, 0x4000, 0xFFFF⟩, ⟨"MPXTICK", 16, 0x5000, 0xFFFF⟩, ⟨"DACREQ", 16, 0x6000, 0xFC00⟩,
   ⟨"BUSDONE", 16, 0x7000, 0xFFFF⟩, ⟨"SUPTICK", 16, 0x8000, 0xFFFE⟩, ⟨"CFGADDR", 16, 0x9000, 0xFC00⟩,
   ⟨"CFGCNT", 16, 0xA000, 0xFC00⟩]

/-- The format rows: bit patterns `1vvvvvvvv0`, `0000000000`, `aaaaaaa0`, `0000hhhh`, `llllllll`. -/
def formatRows : List TableRow :=
  [⟨"LEVEL_CODE", 10, 0x200, 0x201⟩, ⟨"SYNC_CODE", 10, 0x000, 0x3FF⟩, ⟨"DAC_ADDR_BYTE", 8, 0x00, 0x01⟩,
   ⟨"DAC_HIGH_BYTE", 8, 0x00, 0xF0⟩, ⟨"DAC_LOW_BYTE", 8, 0x00, 0x00⟩]

/-- spec/opcode_table.json, row by row. -/
def tableRows : List TableRow := stimRows ++ formatRows

/-- The operation's encoding is a word that its own row of the table spells. -/
def spelledByOwnRow (i : Instr) : Bool :=
  match tableRows.find? (fun r => r.mnemonic == i.mnemonic) with
  | some r => r.spells (encode i).nbits (encode i).toNat
  | none => false

/-! ### Words given by the table alone -/

/-- The place of a bus byte that is given without its place: the three byte rows overlap, and the most specific row
the byte matches is taken (DESIGN CHOICE, log 7). -/
def guessSlot (w : Byte) : ByteSlot :=
  if bits w 4 4 = 0#4 then .high else if bits w 0 1 = 0#1 then .address else .low

/-- A 16-bit word of the table: a stimulus word, unless it is reserved there and its low ten bits are a level code
(the table's 10-bit rows, given in whole bytes; DESIGN CHOICE, log 7). -/
def tableWord16 (w : StimWord) : CodeWord :=
  match decodeStim w with
  | .ok _ => .stim16 w
  | .error _ =>
    if bits w 10 6 = 0#6 ∧ bits w 9 1 = 1#1 ∧ bits w 0 1 = 0#1 then .sample10 (bits w 0 10) else .stim16 w

/-- The code word that `nbits` bits `w` of a table row stand for. -/
def tableCodeWord (nbits w : Nat) : CodeWord :=
  if nbits = 8 then .busByte8 (guessSlot (BitVec.ofNat 8 w)) (BitVec.ofNat 8 w)
  else if nbits = 10 then .sample10 (BitVec.ofNat 10 w)
  else tableWord16 (BitVec.ofNat 16 w)

/-- The instruction the decoder reads from a table row's bits. -/
def decodeTableWord (nbits w : Nat) : Option Instr := (decode (tableCodeWord nbits w)).toOption

end Sys2Proof
end

