-- ==== Sys2Proof/Machine/State.lean ====
section
/-!
DEFINITION. The state of the core: every state element of 10_state.md R20 to R38, the three output traces of R41, the
frame buffer of 20_memory.md R60, and two fields of the model's own (`params`, `stimuli`).
-/

namespace Sys2Proof.Machine

/-- The MPX Generator's cycle (10_state.md R30). -/
inductive MpxPhase where
  | emitFirstLevel
  | emitSync
  | emitNextLevel
  | emitLongSync
  deriving DecidableEq, Repr

/-- The period last programmed into the MPX timer (10_state.md R32). -/
inductive Period where
  | short
  | long
  deriving DecidableEq, Repr

/-- The DAC Transaction Driver's byte-level states (10_state.md R33, 90_conflicts.md C4). -/
inductive DacPhase where
  | idle
  | startRequested
  | addressSent
  | highNibbleSent
  | lowByteSent
  | stopRequested
  deriving DecidableEq, Repr

/-- Commands to the two-wire bus engine (10_state.md R41). -/
inductive BusCommand where
  | start
  | send (b : Byte)
  | stop
  deriving DecidableEq, Repr

/-- Commands to the serial deserializer (10_state.md R41). -/
inductive DeserCommand where
  | ovrClear
  deriving DecidableEq, Repr

/-- Why a step stops with a fault. The hardware never traps (60_exceptions.md R206, R210). -/
inductive Fault where
  /-- Raised by RXBYTE and MPXTICK when a frame-buffer index is above `FRAME_TOP`: there is no such byte
  (20_memory.md R60). Safe: no state that satisfies the invariants does it (R62; log 8). -/
  | frameIndexOutOfRange (index : Nat)
  deriving DecidableEq, Repr

/-- Why the model gives an input no meaning. Each is an input outside the interface contract (60_exceptions.md R209). -/
inductive Refusal where
  /-- Raised by an arm of `exec` whose instruction has no meaning yet. Safe. -/
  | notModelled (mnemonic : String)
  /-- Raised by CFGADDR above 512 and by CFGCNT above `MAX_CH` (46_config_port.md R195, R196). Safe (log 13). -/
  | configOutOfRange
  /-- Raised by a step whose next code word spells no row: a reserved stimulus word (30_encoding.md R94), or a sample or
  bus byte outside its rows (DESIGN CHOICE, log 29). Safe. -/
  | invalidStimulus (why : DecodeError)
  /-- Raised by a step of a core whose parameters break a constraint (43_mpx_generator.md R161). Safe (log 9). -/
  | parametersOutOfRange
  deriving DecidableEq, Repr

/-- The frame buffer's contents: pairs of index and byte, indices strictly rising, and no pair whose byte is what the
unlisted index would read as. -/
abbrev Memory := List Host.Cell

/-- The state of the core. The docstring of a field names the rule of 10_state.md that gives it. -/
@[ext]
structure State where
  /-- The MODEL's own: the OPEN parameters of 00_scope.md section 4; no step writes them (log 3). -/
  params : Params
  /-- The MODEL's own: the events the environment is about to raise, in order (30_encoding.md R92; log 1). -/
  stimuli : List CodeWord
  /-- `tick_enable` (R20). -/
  tickEnable : Bool
  /-- `idle_run_length`, 0 to 20 (R21). -/
  idleRunLength : Nat
  /-- `break_confirmed` (R22). -/
  breakConfirmed : Bool
  /-- `rx_int_enable` (R23). -/
  rxIntEnable : Bool
  /-- `overrun_pending` (R24). -/
  overrunPending : Bool
  /-- `address_skip_count`, mod 2^16 (R25). -/
  addressSkipCount : BitVec 16
  /-- `received_count`, 0 to `MAX_CH + 1`: also the index of the next store (R26). -/
  receivedCount : Nat
  /-- `frame[0 .. FRAME_TOP]` (R27, 20_memory.md R60). -/
  frame : Memory
  /-- `frame_ready` (R28). -/
  frameReady : Bool
  /-- `rx_active`, the receiving indicator (R29). -/
  rxActive : Bool
  /-- `mpx_phase` (R30). -/
  mpxPhase : MpxPhase
  /-- `output_channel_index`, 1 to `MAX_OUT` (R31). -/
  outputChannelIndex : Nat
  /-- `mpx_period` (R32). -/
  mpxPeriod : Period
  /-- `dac_phase` (R33). -/
  dacPhase : DacPhase
  /-- `dac_sample`, the pending sample (R34). -/
  dacSample : Sample
  /-- `heartbeat` (R35). -/
  heartbeat : Bool
  /-- `idle_history`, mod 2^8 (R36). -/
  idleHistory : BitVec 8
  /-- `cfg_start_address`, legal 0 to 512 (R37). -/
  cfgStartAddress : BitVec 10
  /-- `cfg_channel_count`, legal 0 to `MAX_CH` (R38). -/
  cfgChannelCount : Nat
  /-- The bus trace, oldest first (R41). -/
  busTrace : List BusCommand
  /-- The period trace of `SETPERIOD`, oldest first (R41). -/
  periodTrace : List Period
  /-- The deserializer-control trace, oldest first (R41). -/
  deserTrace : List DeserCommand
  deriving DecidableEq, Repr

/-- What a step of the core answers. -/
abbrev Result := Host.Outcome State Fault Refusal

/-- The machine right after reset, for a given parameter set: the reset value of every rule R20 to R38, and empty
traces (70_reset_and_hazards.md R230). Nothing is listed in the frame buffer, so index `i` reads `FRAME_INIT(i)`. -/
def State.resetWith (p : Params) : State where
  params := p
  stimuli := []
  tickEnable := true
  idleRunLength := 0
  breakConfirmed := false
  rxIntEnable := false
  overrunPending := false
  addressSkipCount := 0
  receivedCount := 0
  frame := []
  frameReady := false
  rxActive := false
  mpxPhase := .emitFirstLevel
  outputChannelIndex := 1
  mpxPeriod := .short
  dacPhase := .idle
  dacSample := 0
  heartbeat := false
  idleHistory := 0
  cfgStartAddress := 0
  cfgChannelCount := p.maxCh
  busTrace := []
  periodTrace := []
  deserTrace := []

/-- The machine right after reset with the reference parameter set (log 3, log 4). -/
def State.reset : State := State.resetWith Params.reference

end Sys2Proof.Machine
end

