-- ==== Sys2Proof/Machine/Flags.lean ====
section
/-!
DEFINITION. The tests the rules make: what sets or clears a flag of the core. The core has no condition codes
(10_state.md R39); its flags are the one-bit registers, and these are the conditions under which they change.
-/

namespace Sys2Proof.Machine

/-- The run of LOW samples has reached `BREAK_THRESHOLD`: `break_confirmed` is set (40_break_detector.md R113). -/
def thresholdReached (idleRun : Nat) : Bool := decide (idleRun = breakThreshold)

/-- `idle_run_length` after one more LOW sample: it saturates at the threshold (40_break_detector.md R113, R116). -/
def countIdleSample (idleRun : Nat) : Nat := if idleRun < breakThreshold then idleRun + 1 else idleRun

/-- The byte is inside the skip window, the counter having been incremented for it (41_frame_receiver.md R121). -/
def inSkipWindow (skipCount : BitVec 16) (startAddress : BitVec 10) : Bool := decide (skipCount.toNat ≤ startAddress.toNat)

/-- The attempt is complete: `frame_ready` is set (41_frame_receiver.md R123, with `>=` by decision D7; log 26). -/
def frameComplete (receivedCount channelCount : Nat) : Bool := decide (channelCount + 1 ≤ receivedCount)

/-- After this channel at least one more is to come (43_mpx_generator.md R153). -/
def channelsRemain (index maxOut : Nat) : Bool := decide (index < maxOut)

/-- The supervisor clears the receiving indicator (45_link_supervisor.md R190). -/
def idleTooLong (rxIdle : Bool) (idleHistory : BitVec 8) : Bool := rxIdle && decide (supIdleLimit < idleHistory.toNat)

end Sys2Proof.Machine
end

