-- ==== Sys2Proof/Machine/Operands.lean ====
section
/-!
DEFINITION. The values the core computes: sample codes, bus bytes, and the binary codes of the enumerated state
(30_encoding.md R81 to R87, R91).
-/

namespace Sys2Proof.Machine

/-! ### Sample codes -/

/-- `encode(v) = v*2 + 512` in 10 bits, computed without truncation (30_encoding.md R81, 43_mpx_generator.md R156). -/
def levelSample (v : Byte) : Sample := BitVec.ofNat 10 (v.toNat * levelScale + levelOffset)

/-- `SYNC_CODE`: the fixed sample of a sync pulse (30_encoding.md R82). -/
def syncSample : Sample := 0#10

/-- The level a level code stands for, `(code - 512) / 2` (43_mpx_generator.md R156). -/
def levelOfSample (s : Sample) : Byte := BitVec.ofNat 8 ((s.toNat - levelOffset) / levelScale)

/-! ### Bytes of the two-wire transaction -/

/-- `addr_byte = {DAC_ADDR[6:0], 0b0}` (30_encoding.md R85; the bit positions are the spec's general knowledge,
log 17). -/
def addressByte (a : BitVec 7) : Byte := a ++ 0#1

/-- `W = (zext_12(dac_sample) << SAMPLE_SHIFT) mod 2^12` (30_encoding.md R86). -/
def sampleWord (shift : SampleShift) (s : Sample) : BitVec 12 := s.setWidth 12 <<< shift.amount

/-- `high_byte = {0b0000, W[11:8]}` (30_encoding.md R86). -/
def highByte (shift : SampleShift) (s : Sample) : Byte := 0#4 ++ bits (sampleWord shift s) 8 4

/-- `low_byte = W[7:0]` (30_encoding.md R87). -/
def lowByte (shift : SampleShift) (s : Sample) : Byte := bits (sampleWord shift s) 0 8

/-- One sample is one transaction of five bus actions (30_encoding.md R84, 44_dac_driver.md R180). -/
def transaction (p : Params) (s : Sample) : List BusCommand :=
  [.start, .send (addressByte p.dacAddr), .send (highByte p.sampleShift s), .send (lowByte p.sampleShift s), .stop]

/-! ### Binary codes of the enumerated state; no rule reads them (30_encoding.md R91, decision D25) -/

/-- `mpx_phase` in two bits. -/
def MpxPhase.code : MpxPhase → BitVec 2
  | .emitFirstLevel => 0
  | .emitSync => 1
  | .emitNextLevel => 2
  | .emitLongSync => 3

/-- `dac_phase` in three bits, 6 and 7 never taken. -/
def DacPhase.code : DacPhase → BitVec 3
  | .idle => 0
  | .startRequested => 1
  | .addressSent => 2
  | .highNibbleSent => 3
  | .lowByteSent => 4
  | .stopRequested => 5

/-- `mpx_period` in one bit. -/
def Period.code : Period → BitVec 1
  | .short => 0
  | .long => 1

/-- The bus actions of the current transaction that have been asked for in each phase: the table of
44_dac_driver.md before R170. -/
def DacPhase.commandsAsked (d : DacPhase) : Nat := d.code.toNat

/-! ### Outputs and times -/

/-- The wait the programmed period stands for, in microseconds (43_mpx_generator.md R158, 00_scope.md R16). -/
def waitOf (p : Params) : Period → Nat
  | .short => p.tShort
  | .long => p.tLong

/-- The output levels, readable at any time (10_state.md R41). -/
structure Outputs where
  frameReady : Bool
  rxActive : Bool
  heartbeat : Bool
  tickEnable : Bool
  rxIntEnable : Bool
  mpxPeriod : Period
  deriving DecidableEq, Repr

/-- The output levels in a state (10_state.md R41). -/
def State.outputs (s : State) : Outputs where
  frameReady := s.frameReady
  rxActive := s.rxActive
  heartbeat := s.heartbeat
  tickEnable := s.tickEnable
  rxIntEnable := s.rxIntEnable
  mpxPeriod := s.mpxPeriod

end Sys2Proof.Machine
end

