-- ==== Sys2Proof/Machine/Ops.lean ====
section
/-!
DEFINITION. The shared operations: the frame buffer (20_memory.md), the output traces (10_state.md R41), `DacRequest`
(44_dac_driver.md R170, R171), the completions of bus commands (R172 to R177), and the reactions to line errors.
The core takes no exception in the processor sense: handling an event saves nothing, changes no mode and has no return
(60_exceptions.md R206, R210, R211); the nearest thing is `reactToLineError`, shared by the three RXERR operations.
-/

namespace Sys2Proof.Machine

/-! ### The frame buffer as data: index and byte pairs in canonical form -/

/-- The byte listed at an index, if one is. -/
def Memory.lookup : Memory → Nat → Option Byte
  | [], _ => none
  | (a, b) :: m, i => if a = i then some b else Memory.lookup m i

/-- What an index reads as: the listed byte, else its initial byte (20_memory.md R75). -/
def Memory.read (init : Nat → Byte) (m : Memory) (i : Nat) : Byte := (Memory.lookup m i).getD (init i)

/-- List a byte at an index, keeping the indices rising. -/
def Memory.put : Memory → Nat → Byte → Memory
  | [], i, b => [(i, b)]
  | (a, c) :: m, i, b =>
    if i < a then (i, b) :: (a, c) :: m
    else if i = a then (i, b) :: m
    else (a, c) :: Memory.put m i b

/-- Take an index off the list. -/
def Memory.drop : Memory → Nat → Memory
  | [], _ => []
  | (a, c) :: m, i => if a = i then Memory.drop m i else (a, c) :: Memory.drop m i

/-- One-byte write: the addressed byte changes and nothing else (20_memory.md R65). -/
def Memory.write (init : Nat → Byte) (m : Memory) (i : Nat) (b : Byte) : Memory :=
  if b = init i then Memory.drop m i else Memory.put m i b

/-- Every listed index is above `low`, the indices rise, and no listed byte is what the unlisted index reads as. -/
def Memory.wfAbove (init : Nat → Byte) : Nat → Memory → Bool
  | _, [] => true
  | low, (a, b) :: m => decide (low < a) && decide (b ≠ init a) && Memory.wfAbove init a m

/-- The canonical form. -/
def Memory.wf (init : Nat → Byte) : Memory → Bool
  | [] => true
  | (a, b) :: m => decide (b ≠ init a) && Memory.wfAbove init a m

/-- Every listed index exists: it is at most `FRAME_TOP` (20_memory.md R60). -/
def Memory.within (top : Nat) (m : Memory) : Bool := m.all (fun c => decide (c.1 ≤ top))

/-! ### Access to the frame buffer -/

/-- `frame[i]` as a value: the model's read of one byte. -/
def State.frameByte (s : State) (i : Nat) : Byte := Memory.read s.params.initByte s.frame i

/-- `MemRead(i, 1)` (20_memory.md R63): the byte at an index that exists; a read changes no state (R65). -/
def frameRead (s : State) (i : Nat) : Option Byte := if i ≤ s.params.frameTop then some (s.frameByte i) else none

/-- `MemWrite(i, 1, v)` (20_memory.md R63, R65): the state with that one byte written, if the index exists. -/
def frameWrite (s : State) (i : Nat) (v : Byte) : Option State :=
  if i ≤ s.params.frameTop then some { s with frame := Memory.write s.params.initByte s.frame i v } else none

/-! ### The output traces (10_state.md R41) -/

/-- Append a command to the bus trace. -/
def emitBus (c : BusCommand) (s : State) : State := { s with busTrace := s.busTrace ++ [c] }

/-- `mpx_period <- p; emit SETPERIOD(p)` (43_mpx_generator.md R151, R155). -/
def programPeriod (p : Period) (s : State) : State := { s with mpxPeriod := p, periodTrace := s.periodTrace ++ [p] }

/-- `emit OVRCLEAR` (40_break_detector.md R112). -/
def emitOvrClear (s : State) : State := { s with deserTrace := s.deserTrace ++ [.ovrClear] }

/-! ### The DAC Transaction Driver's shared steps -/

/-- `dac_phase <- d`. -/
def enterDacPhase (d : DacPhase) (s : State) : State := { s with dacPhase := d }

/-- `dac_sample <- x`: latched only when a request is accepted (10_state.md R34). -/
def latchSample (x : Sample) (s : State) : State := { s with dacSample := x }

/-- `DacRequest(s)`: accepted and latched in `Idle`, dropped otherwise, never queued (44_dac_driver.md R170, R171,
R182). -/
def dacRequest (sample : Sample) (s : State) : State :=
  match s.dacPhase with
  | .idle => enterDacPhase .startRequested (emitBus .start (latchSample sample s))
  | .startRequested => s
  | .addressSent => s
  | .highNibbleSent => s
  | .lowByteSent => s
  | .stopRequested => s

/-- The address byte the driver sends (44_dac_driver.md R172). -/
def State.dueAddressByte (s : State) : Byte := addressByte s.params.dacAddr

/-- The high byte of the latched sample (44_dac_driver.md R173). -/
def State.dueHighByte (s : State) : Byte := highByte s.params.sampleShift s.dacSample

/-- The low byte of the latched sample (44_dac_driver.md R174). -/
def State.dueLowByte (s : State) : Byte := lowByte s.params.sampleShift s.dacSample

/-- Phase 1→2 (44_dac_driver.md R172). -/
def sendAddressByte (s : State) : State := enterDacPhase .addressSent (emitBus (.send s.dueAddressByte) s)

/-- Phase 2→3 (44_dac_driver.md R173). -/
def sendHighByte (s : State) : State := enterDacPhase .highNibbleSent (emitBus (.send s.dueHighByte) s)

/-- Phase 3→4 (44_dac_driver.md R174). -/
def sendLowByte (s : State) : State := enterDacPhase .lowByteSent (emitBus (.send s.dueLowByte) s)

/-- Phase 4→5 (44_dac_driver.md R175). -/
def requestStop (s : State) : State := enterDacPhase .stopRequested (emitBus .stop s)

/-- Phase 5→Idle: transaction complete (44_dac_driver.md R176). -/
def endTransaction (s : State) : State := enterDacPhase .idle s

/-- The driver's reaction to a completed bus command, one rule per phase (44_dac_driver.md R172 to R177). -/
def busCompletion (s : State) : State :=
  match s.dacPhase with
  | .idle => s
  | .startRequested => sendAddressByte s
  | .addressSent => sendHighByte s
  | .highNibbleSent => sendLowByte s
  | .lowByteSent => requestStop s
  | .stopRequested => endTransaction s

/-! ### The Frame Receiver's reactions to line errors -/

/-- The overrun latch, set by every overrun, enabled or not (41_frame_receiver.md R124, 10_state.md R24). -/
def latchOverrun (s : State) : State := { s with overrunPending := true }

/-- Abandon the attempt and force resynchronisation by the frame-ready path (41_frame_receiver.md R125). -/
def abandonAttempt (s : State) : State := { s with rxIntEnable := false, frameReady := true }

/-- A malformed byte clears the receiving indicator and nothing else (41_frame_receiver.md R126, R127). -/
def clearActivity (s : State) : State := { s with rxActive := false }

/-- The latch part of R124. -/
def latchLineError (kind : ErrorKind) (s : State) : State :=
  match kind with
  | .overrun => latchOverrun s
  | .framing => s
  | .parity => s

/-- The reaction of an enabled receiver to each kind of error (60_exceptions.md R206). -/
def lineErrorReaction (kind : ErrorKind) (s : State) : State :=
  match kind with
  | .overrun => abandonAttempt s
  | .framing => clearActivity s
  | .parity => clearActivity s

/-- RXERR: latch first, then react if reception is enabled (41_frame_receiver.md R124). -/
def reactToLineError (kind : ErrorKind) (s : State) : State :=
  if s.rxIntEnable then lineErrorReaction kind (latchLineError kind s) else latchLineError kind s

/-! ### The environment's side: taking the next stimulus -/

/-- The state with another schedule: the stimuli are the environment's, not the core's (log 23). -/
def withStimuli (rest : List CodeWord) (s : State) : State := { s with stimuli := rest }

/-- The next event of the schedule and the state without it (30_encoding.md R92: one step per word). -/
def takeStimulus (s : State) : Option (CodeWord × State) :=
  match s.stimuli with
  | [] => none
  | c :: rest => some (c, withStimuli rest s)

/-- The schedule with one code word put in front. -/
def placeStimulus (c : CodeWord) (s : State) : State := withStimuli (c :: s.stimuli) s

end Sys2Proof.Machine
end

