-- ==== Sys2Proof/Machine/BreakDetector.lean ====
section
/-!
DEFINITION. The Break Detector's operation TICK (40_break_detector.md R110 to R118).
-/

namespace Sys2Proof.Machine

/-- TICK(HIGH) before confirmation: the run is lost (R111). -/
def loseRun (s : State) : State := { s with idleRunLength := 0 }

/-- TICK(HIGH) after confirmation: the hand-off to the Frame Receiver (R112). -/
def handOff (s : State) : State :=
  emitOvrClear { s with tickEnable := false, overrunPending := false, rxIntEnable := true }

/-- TICK(LOW): count the sample; reaching the threshold confirms the break, and confirmation is sticky (R113, R116). -/
def countLow (s : State) : State :=
  let run := countIdleSample s.idleRunLength
  { s with idleRunLength := run, breakConfirmed := s.breakConfirmed || thresholdReached run }

/-- The reaction of the armed detector to a sample (R111 to R113). -/
def sampleLine (level : LineLevel) (s : State) : State :=
  match level with
  | .low => countLow s
  | .high => if s.breakConfirmed then handOff s else loseRun s

/-- TICK: no effect while disarmed (R110), else the sample is counted (R111 to R113). -/
def execTick (level : LineLevel) (s : State) : Result := .next (if s.tickEnable then sampleLine level s else s)

end Sys2Proof.Machine
end

