-- ==== Sys2Proof/Machine/ConfigPort.lean ====
section
/-!
DEFINITION. The configuration port's operations CFGADDR and CFGCNT (46_config_port.md R195 to R199).
-/

namespace Sys2Proof.Machine

/-- CFGADDR: `a <= START_MAX` is written, anything above is refused (R195). -/
def execCfgAddr (a : BitVec 10) (s : State) : Result :=
  if a.toNat ≤ startMax then .next { s with cfgStartAddress := a } else .refused .configOutOfRange

/-- CFGCNT: `n <= MAX_CH` is written, anything above is refused (R196). -/
def execCfgCnt (n : BitVec 10) (s : State) : Result :=
  if n.toNat ≤ s.params.maxCh then .next { s with cfgChannelCount := n.toNat } else .refused .configOutOfRange

end Sys2Proof.Machine
end

