-- ==== Sys2Proof/Machine/DacDriver.lean ====
section
/-!
DEFINITION. The DAC Transaction Driver's operations DACREQ and BUSDONE (44_dac_driver.md R170 to R182).
-/

namespace Sys2Proof.Machine

/-- DACREQ: accepted in `Idle`, dropped otherwise (R170, R171). -/
def execDacReq (sample : Sample) (s : State) : Result := .next (dacRequest sample s)

/-- BUSDONE: one phase advance, whether or not the device acknowledged (R172 to R177, R181). -/
def execBusDone (s : State) : Result := .next (busCompletion s)

end Sys2Proof.Machine
end

