-- ==== Sys2Proof/Machine/DataFormats.lean ====
section
/-!
DEFINITION. The five format rows of the table as steps. The spec names no event for them (00_scope.md R7): they are
what crosses the core's inner and outer data interfaces. As a step each is the core's own act of putting that datum on
its interface, and an act the core does not perform in a state changes nothing there (10_state.md R42: no other writes
exist). They add no state that the thirteen events do not reach (DESIGN CHOICE, logs 5 and 6).
-/

namespace Sys2Proof.Machine

/-- LEVEL_CODE: the sample of a level goes from the generator to the driver (30_encoding.md R81), that is
`DacRequest(encode(v))` (43_mpx_generator.md R150). -/
def execLevelCode (v : Byte) (s : State) : Result := .next (dacRequest (levelSample v) s)

/-- SYNC_CODE: the sync sample goes from the generator to the driver (30_encoding.md R82). -/
def execSyncCode (s : State) : Result := .next (dacRequest syncSample s)

/-- DAC_ADDR_BYTE: the driver sends its address byte, which it does in `StartRequested` and with its own address
(30_encoding.md R85, 44_dac_driver.md R172). -/
def execDacAddrByte (a : BitVec 7) (s : State) : Result :=
  .next (if s.dacPhase = .startRequested ∧ s.dueAddressByte = addressByte a then sendAddressByte s else s)

/-- DAC_HIGH_BYTE: the driver sends the high byte of the latched sample, in `AddressSent` (30_encoding.md R86,
44_dac_driver.md R173). -/
def execDacHighByte (h : BitVec 4) (s : State) : Result :=
  .next (if s.dacPhase = .addressSent ∧ s.dueHighByte = 0#4 ++ h then sendHighByte s else s)

/-- DAC_LOW_BYTE: the driver sends the low byte of the latched sample, in `HighNibbleSent` (30_encoding.md R87,
44_dac_driver.md R174). -/
def execDacLowByte (l : Byte) (s : State) : Result :=
  .next (if s.dacPhase = .highNibbleSent ∧ s.dueLowByte = l then sendLowByte s else s)

end Sys2Proof.Machine
end

