-- ==== Sys2Proof/Machine/FrameReceiver.lean ====
section
/-!
DEFINITION. The Frame Receiver's operations RXBYTE and RXERR (41_frame_receiver.md R120 to R132).
-/

namespace Sys2Proof.Machine

/-- Every byte acted on is counted, mod 2^16 (R121, 10_state.md R25). -/
def countByte (s : State) : State := { s with addressSkipCount := s.addressSkipCount + 1 }

/-- After a store: advance the cursor and assert the receiving indicator (R122). -/
def advanceCursor (s : State) : State := { s with receivedCount := s.receivedCount + 1, rxActive := true }

/-- Disable further byte and error events and set the frame-ready flag (R123). -/
def finishFrame (s : State) : State := { s with rxIntEnable := false, frameReady := true }

/-- Frame completion, evaluated at the end of every store and nowhere else (R123). -/
def completeFrame (s : State) : State :=
  if frameComplete s.receivedCount s.cfgChannelCount then finishFrame s else s

/-- The store: the byte goes to the index equal to `received_count` before the increment (R122, R123). -/
def storeByte (b : Byte) (s : State) : Result :=
  match frameWrite s s.receivedCount b with
  | some t => .next (completeFrame (advanceCursor t))
  | none => .fault (.frameIndexOutOfRange s.receivedCount)

/-- The byte has been counted: discard it inside the skip window, store it past the window (R121, R122). -/
def placeByte (b : Byte) (s : State) : Result :=
  if inSkipWindow s.addressSkipCount s.cfgStartAddress then .next s else storeByte b s

/-- RXBYTE: no effect while reception is disabled (R120), else R121 to R123. -/
def execRxByte (b : Byte) (s : State) : Result := if s.rxIntEnable then placeByte b (countByte s) else .next s

/-- RXERR OVERRUN (R124, R125). -/
def execRxErrOverrun (s : State) : Result := .next (reactToLineError .overrun s)

/-- RXERR FRAMING (R124, R126). -/
def execRxErrFraming (s : State) : Result := .next (reactToLineError .framing s)

/-- RXERR PARITY (R124, R127). -/
def execRxErrParity (s : State) : Result := .next (reactToLineError .parity s)

end Sys2Proof.Machine
end

