-- ==== Sys2Proof/Machine/LinkSupervisor.lean ====
section
/-!
DEFINITION. The Link Activity Supervisor's operation SUPTICK (45_link_supervisor.md R190 to R194).
-/

namespace Sys2Proof.Machine

/-- Toggle the heartbeat (R190, R194). -/
def toggleHeartbeat (s : State) : State := { s with heartbeat := !s.heartbeat }

/-- Clear the receiving indicator and the history (R190). -/
def declareIdle (s : State) : State := { s with rxActive := false, idleHistory := 0 }

/-- Count one more supervisor period, mod 2^8 (R190 to R192; log 27). -/
def countPeriod (s : State) : State := { s with idleHistory := s.idleHistory + 1 }

/-- SUPTICK (R190): the else branch is taken literally, busy periods count too (R191). -/
def execSupTick (rxIdle : Bool) (s : State) : Result :=
  .next (if idleTooLong rxIdle s.idleHistory then declareIdle (toggleHeartbeat s) else countPeriod (toggleHeartbeat s))

end Sys2Proof.Machine
end

