-- ==== Sys2Proof/Machine/Mainline.lean ====
section
/-!
DEFINITION. The Mainline Reframe Loop's operation REARM (42_mainline_rearm.md R140 to R145).
-/

namespace Sys2Proof.Machine

/-- Clear frame-ready, reset the reception cursor and the break-detection counters, re-enable the tick source (R140). -/
def rearmAcquisition (s : State) : State :=
  { s with
    frameReady := false, receivedCount := 0, addressSkipCount := 0, idleRunLength := 0, breakConfirmed := false,
    tickEnable := true }

/-- REARM: the flag is tested and cleared in one atomic step (R142); with the flag clear, no effect (R141). -/
def execRearm (s : State) : Result := .next (if s.frameReady then rearmAcquisition s else s)

end Sys2Proof.Machine
end

