-- ==== Sys2Proof/Machine/MpxGenerator.lean ====
section
/-!
DEFINITION. The MPX Generator's operation MPXTICK (43_mpx_generator.md R150 to R162).
-/

namespace Sys2Proof.Machine

/-- Read a channel's level and go on with its level code; a missing index is the model's fault. -/
def withLevel (index : Nat) (s : State) (k : Sample → State) : Result :=
  match frameRead s index with
  | some v => .next (k (levelSample v))
  | none => .fault (.frameIndexOutOfRange index)

/-- `mpx_phase <- ph`. -/
def enterMpxPhase (ph : MpxPhase) (s : State) : State := { s with mpxPhase := ph }

/-- `output_channel_index <- i`. -/
def selectChannel (i : Nat) (s : State) : State := { s with outputChannelIndex := i }

/-- MPXTICK in `EmitFirstLevel`: the literal channel 1, then channel 2 (R151, decision D16). -/
def emitFirstLevel (s : State) : Result :=
  withLevel 1 s fun code =>
    enterMpxPhase .emitSync (selectChannel 2 (dacRequest code (programPeriod .short s)))

/-- MPXTICK in `EmitSync` (R152). -/
def emitSync (s : State) : State := enterMpxPhase .emitNextLevel (dacRequest syncSample s)

/-- MPXTICK in `EmitNextLevel`: the current channel's level, then the next channel or the long sync (R153, R154). -/
def emitNextLevel (s : State) : Result :=
  withLevel s.outputChannelIndex s fun code =>
    if channelsRemain s.outputChannelIndex s.params.maxOut then
      enterMpxPhase .emitSync (selectChannel (s.outputChannelIndex + 1) (dacRequest code s))
    else
      enterMpxPhase .emitLongSync (selectChannel 1 (dacRequest code s))

/-- MPXTICK in `EmitLongSync` (R155). -/
def emitLongSync (s : State) : State := enterMpxPhase .emitFirstLevel (dacRequest syncSample (programPeriod .long s))

/-- MPXTICK: exactly one of R151 to R155, chosen by `mpx_phase` (R150). -/
def execMpxTick (s : State) : Result :=
  match s.mpxPhase with
  | .emitFirstLevel => emitFirstLevel s
  | .emitSync => .next (emitSync s)
  | .emitNextLevel => emitNextLevel s
  | .emitLongSync => .next (emitLongSync s)

/-- The sample the next MPXTICK requests (R157). -/
def State.nextRequest (s : State) : Sample :=
  match s.mpxPhase with
  | .emitFirstLevel => levelSample (s.frameByte 1)
  | .emitSync => syncSample
  | .emitNextLevel => levelSample (s.frameByte s.outputChannelIndex)
  | .emitLongSync => syncSample

end Sys2Proof.Machine
end

