-- ==== Sys2Proof/Machine/Reset.lean ====
section
/-!
DEFINITION. RESET (70_reset_and_hazards.md R230 to R232).
-/

namespace Sys2Proof.Machine

/-- RESET: every state element takes the reset value of its own rule and the traces become empty (R230). The
parameters are fixed for the core and the pending stimuli are the environment's, so both stay (log 23). -/
def execReset (s : State) : Result := .next (withStimuli s.stimuli (State.resetWith s.params))

end Sys2Proof.Machine
end

