-- ==== Sys2Proof/Machine/Dispatch.lean ====
section
/-!
DEFINITION. One arm per row of spec/opcode_table.json.
-/

namespace Sys2Proof.Machine

/-- The reaction of the core to one operation (00_scope.md R7, R8). -/
def exec (i : Instr) (s : State) : Host.Outcome State Fault Refusal :=
  match i with
  | .reset => Sys2Proof.Machine.execReset s
  | .tick level => Sys2Proof.Machine.execTick level s
  | .rxByte b => Sys2Proof.Machine.execRxByte b s
  | .rxErrOverrun => Sys2Proof.Machine.execRxErrOverrun s
  | .rxErrFraming => Sys2Proof.Machine.execRxErrFraming s
  | .rxErrParity => Sys2Proof.Machine.execRxErrParity s
  | .rearm => Sys2Proof.Machine.execRearm s
  | .mpxTick => Sys2Proof.Machine.execMpxTick s
  | .dacReq sample => Sys2Proof.Machine.execDacReq sample s
  | .busDone => Sys2Proof.Machine.execBusDone s
  | .supTick rxIdle => Sys2Proof.Machine.execSupTick rxIdle s
  | .cfgAddr a => Sys2Proof.Machine.execCfgAddr a s
  | .cfgCnt n => Sys2Proof.Machine.execCfgCnt n s
  | .levelCode v => Sys2Proof.Machine.execLevelCode v s
  | .syncCode => Sys2Proof.Machine.execSyncCode s
  | .dacAddrByte a => Sys2Proof.Machine.execDacAddrByte a s
  | .dacHighByte h => Sys2Proof.Machine.execDacHighByte h s
  | .dacLowByte l => Sys2Proof.Machine.execDacLowByte l s

end Sys2Proof.Machine
end

