-- ==== Sys2Proof/Machine/Fetch.lean ====
section
/-!
DEFINITION. Taking the next event of the environment's schedule and running it (30_encoding.md R92). The block fetches
no instructions (20_memory.md R74); this stands where a fetch would.
-/

namespace Sys2Proof.Machine

/-- Decode one code word and run it. A stimulus word that spells no operation is refused (30_encoding.md R94); the same
refusal for a sample or a bus byte that spells no format row is a DESIGN CHOICE (log 29). -/
def runCodeWord (c : CodeWord) (s : State) : Result :=
  match decode c with
  | .ok i => exec i s
  | .error why => .refused (.invalidStimulus why)

/-- Handle the next event; with none pending the core waits unchanged (70_reset_and_hazards.md R231; log 1). -/
def handleNext (s : State) : Result :=
  match takeStimulus s with
  | some (c, t) => runCodeWord c t
  | none => .next s

/-- Refuse a parameter set outside its constraints (43_mpx_generator.md R161, 60_exceptions.md R209; log 9). -/
def guardParameters (s : State) (r : Result) : Result := if s.params.ok then r else .refused .parametersOutOfRange

/-- Run operations one after the other, stopping at the first that does not answer a next state. -/
def execAll : List Instr → State → Result
  | [], s => .next s
  | i :: is, s =>
    match exec i s with
    | .next t => execAll is t
    | .fault f => .fault f
    | .refused r => .refused r

end Sys2Proof.Machine
end

