-- ==== Sys2Proof/Machine/Step.lean ====
section
/-!
DEFINITION. One step of the core: one event is taken from the environment's schedule and handled atomically
(00_scope.md R8, 30_encoding.md R92).
-/

namespace Sys2Proof.Machine

/-- One step: the next event, handled by the one state machine that handles it. -/
def step (s : State) : Host.Outcome State Fault Refusal := guardParameters s (handleNext s)

/-- The state with the instruction of a table row's bits as the next event of its schedule. -/
def State.withFetchWord (s : State) (nbits w : Nat) : State := placeStimulus (tableCodeWord nbits w) s

end Sys2Proof.Machine
end

