-- ==== Sys2Proof/Machine/Agents.lean ====
section
/-!
DEFINITION. The agents of the core and of its environment, who raises and who handles each operation, and which
operations a state masks (00_scope.md R2, 60_exceptions.md R200, R201, R212).
-/

namespace Sys2Proof.Machine

/-- The six state machines of the core (00_scope.md R2). -/
inductive Agent where
  | breakDetector
  | frameReceiver
  | mainlineLoop
  | mpxGenerator
  | dacDriver
  | linkSupervisor
  deriving DecidableEq, Repr

/-- Who raises an event (60_exceptions.md R200); `core` is the core's own act (10_state.md R40 for DACREQ, which a
harness may also raise). -/
inductive Source where
  | byteClock
  | deserializer
  | mainlineScheduler
  | mpxTimer
  | busEngine
  | slowTimer
  | ui
  | resetLine
  | core
  deriving DecidableEq, Repr

/-- The execution levels (60_exceptions.md R212): no state is per level and nothing faults for want of privilege. -/
inductive Level where
  | interrupt
  | background
  deriving DecidableEq, Repr

/-- The source of each operation (60_exceptions.md R200). The format rows are the core's own acts (logs 5 and 6). -/
def sourceOf : Instr → Source
  | .reset => .resetLine
  | .tick _ => .byteClock
  | .rxByte _ => .deserializer
  | .rxErrOverrun => .deserializer
  | .rxErrFraming => .deserializer
  | .rxErrParity => .deserializer
  | .rearm => .mainlineScheduler
  | .mpxTick => .mpxTimer
  | .dacReq _ => .core
  | .busDone => .busEngine
  | .supTick _ => .slowTimer
  | .cfgAddr _ => .ui
  | .cfgCnt _ => .ui
  | .levelCode _ => .core
  | .syncCode => .core
  | .dacAddrByte _ => .core
  | .dacHighByte _ => .core
  | .dacLowByte _ => .core

/-- The core agents whose state an operation may write (60_exceptions.md R200, 10_state.md R42): all of them for
RESET, the generator and through `DacRequest` the driver for MPXTICK, none for the Config registers. -/
def handlersOf : Instr → List Agent
  | .reset => [.breakDetector, .frameReceiver, .mainlineLoop, .mpxGenerator, .dacDriver, .linkSupervisor]
  | .tick _ => [.breakDetector]
  | .rxByte _ => [.frameReceiver]
  | .rxErrOverrun => [.frameReceiver]
  | .rxErrFraming => [.frameReceiver]
  | .rxErrParity => [.frameReceiver]
  | .rearm => [.mainlineLoop]
  | .mpxTick => [.mpxGenerator, .dacDriver]
  | .dacReq _ => [.dacDriver]
  | .busDone => [.dacDriver]
  | .supTick _ => [.linkSupervisor]
  | .cfgAddr _ => []
  | .cfgCnt _ => []
  | .levelCode _ => [.dacDriver]
  | .syncCode => [.dacDriver]
  | .dacAddrByte _ => [.dacDriver]
  | .dacHighByte _ => [.dacDriver]
  | .dacLowByte _ => [.dacDriver]

/-- The level at which an agent runs (60_exceptions.md R212). -/
def levelOf : Agent → Level
  | .breakDetector => .interrupt
  | .frameReceiver => .interrupt
  | .mainlineLoop => .background
  | .mpxGenerator => .interrupt
  | .dacDriver => .interrupt
  | .linkSupervisor => .interrupt

/-- The core has the event's source unmasked: only the Byte Clock and the deserializer can be masked (60_exceptions.md
R201). -/
def sourceEnabled (i : Instr) (s : State) : Bool :=
  match sourceOf i with
  | .byteClock => s.tickEnable
  | .deserializer => s.rxIntEnable
  | .mainlineScheduler => true
  | .mpxTimer => true
  | .busEngine => true
  | .slowTimer => true
  | .ui => true
  | .resetLine => true
  | .core => true

end Sys2Proof.Machine
end

