-- ==== Sys2Proof/Machine/Script.lean ====
section
/-!
DEFINITION. The stimulus script of the harness: the pseudo-operations of 30_encoding.md R96 and an assembler for the
syntax of R95. It is the spec's harness convention (decision D26), not a property of the hardware.
-/

namespace Sys2Proof.Machine

/-! ### Pseudo-operations (30_encoding.md R96) -/

/-- `BREAK n`. -/
def breakRun (n : Nat) : List Instr := List.replicate n (.tick .low)

/-- `MARK n`. -/
def markRun (n : Nat) : List Instr := List.replicate n (.tick .high)

/-- `BYTES b1 b2 … bk`. -/
def bytesRun (bs : List Byte) : List Instr := bs.map .rxByte

/-- `XFER`: one whole transaction's completions. -/
def xfer : List Instr := List.replicate 5 .busDone

/-- `MPXSTEP`. -/
def mpxStep : List Instr := .mpxTick :: xfer

/-- `REPEAT n` of a block. -/
def repeatOps (n : Nat) (block : List Instr) : List Instr := (List.replicate n block).flatten

/-- `SCAN`: one whole scan with every transaction completing before the next tick. -/
def scanRun (maxOut : Nat) : List Instr := repeatOps (2 * maxOut) mpxStep

/-! ### The assembler (30_encoding.md R95; what R95 leaves open is log 21) -/

/-- The token that opens a repeated block, character 0x7B. -/
def openToken : String := String.ofList [Char.ofNat 0x7B]

/-- The token that closes a repeated block, character 0x7D. -/
def closeToken : String := String.ofList [Char.ofNat 0x7D]

/-- A digit's value in base 10 or 16. -/
def digitValue (base : Nat) (c : Char) : Option Nat :=
  let v :=
    if '0' ≤ c ∧ c ≤ '9' then some (c.toNat - 48)
    else if 'a' ≤ c ∧ c ≤ 'f' then some (c.toNat - 87)
    else if 'A' ≤ c ∧ c ≤ 'F' then some (c.toNat - 55)
    else none
  v.filter (fun d => decide (d < base))

/-- The value of a run of digits after a value already read. -/
def readDigits (base : Nat) : List Char → Nat → Option Nat
  | [], acc => some acc
  | c :: cs, acc =>
    match digitValue base c with
    | some d => readDigits base cs (acc * base + d)
    | none => none

/-- A number, decimal or `0x` hexadecimal. -/
def readNumber (token : String) : Option Nat :=
  match token.toList with
  | [] => none
  | '0' :: 'x' :: c :: cs => readDigits 16 (c :: cs) 0
  | c :: cs => readDigits 10 (c :: cs) 0

/-- A number of the given range. -/
def readUpTo (limit : Nat) (token : String) : Option Nat := (readNumber token).filter (fun n => decide (n ≤ limit))

/-- The operands of `BYTES`. -/
def readBytes : List String → Option (List Byte)
  | [] => some []
  | t :: ts =>
    match readUpTo 255 t, readBytes ts with
    | some b, some bs => some (BitVec.ofNat 8 b :: bs)
    | _, _ => none

/-- One line of a script: an event (R95) or a pseudo-operation (R96), with the operand ranges of R95. -/
def assembleLine (p : Params) : List String → Option (List Instr)
  | [] => some []
  | ["RESET"] => some [.reset]
  | ["TICK", "LOW"] => some [.tick .low]
  | ["TICK", "HIGH"] => some [.tick .high]
  | ["RXBYTE", b] => (readUpTo 255 b).map fun n => [.rxByte (BitVec.ofNat 8 n)]
  | ["RXERR", "OVERRUN"] => some [.rxErrOverrun]
  | ["RXERR", "FRAMING"] => some [.rxErrFraming]
  | ["RXERR", "PARITY"] => some [.rxErrParity]
  | ["REARM"] => some [.rearm]
  | ["MPXTICK"] => some [.mpxTick]
  | ["DACREQ", x] => (readUpTo 1023 x).map fun n => [.dacReq (BitVec.ofNat 10 n)]
  | ["BUSDONE"] => some [.busDone]
  | ["SUPTICK", "IDLE"] => some [.supTick true]
  | ["SUPTICK", "BUSY"] => some [.supTick false]
  | ["CFGADDR", a] => (readUpTo startMax a).map fun n => [.cfgAddr (BitVec.ofNat 10 n)]
  | ["CFGCNT", x] => (readUpTo p.maxCh x).map fun n => [.cfgCnt (BitVec.ofNat 10 n)]
  | ["BREAK", n] => (readNumber n).map breakRun
  | ["MARK", n] => (readNumber n).map markRun
  | "BYTES" :: bs => (readBytes bs).map bytesRun
  | ["XFER"] => some xfer
  | ["MPXSTEP"] => some mpxStep
  | ["SCAN"] => some (scanRun p.maxOut)
  | _ => none

/-- Lines in order, with the repeated blocks that are open: each with its count and what came before it. -/
def assembleLines (p : Params) : List (List String) → List Instr → List (Nat × List Instr) → Option (List Instr)
  | [], acc, [] => some acc
  | [], _, _ :: _ => none
  | line :: rest, acc, blocks =>
    match line, blocks with
    | ["REPEAT", n, t], _ =>
      if t = openToken then
        match readNumber n with
        | some k => assembleLines p rest [] ((k, acc) :: blocks)
        | none => none
      else none
    | [t], (k, before) :: outer =>
      if t = closeToken then assembleLines p rest (before ++ repeatOps k acc) outer
      else
        match assembleLine p line with
        | some is => assembleLines p rest (acc ++ is) blocks
        | none => none
    | _, _ =>
      match assembleLine p line with
      | some is => assembleLines p rest (acc ++ is) blocks
      | none => none

/-- Put the block marks on line ends, so that a block may be written on one line. -/
def breakAtMarks (c : Char) : List Char :=
  if c = Char.ofNat 0x7B then [c, '\n'] else if c = Char.ofNat 0x7D then ['\n', c, '\n'] else [c]

/-- Split at a separator. -/
def splitAtChars (isSep : Char → Bool) : List Char → List (List Char)
  | [] => [[]]
  | c :: cs =>
    match splitAtChars isSep cs with
    | [] => [[c]]
    | w :: ws => if isSep c then [] :: w :: ws else (c :: w) :: ws

/-- The tokens of a line; a hash sign starts a comment (R95). -/
def tokensOf (line : List Char) : List String :=
  ((splitAtChars (fun c => c == ' ' || c == '\t' || c == '\r') (line.takeWhile (fun c => c != '#'))).filter
    (fun w => !w.isEmpty)).map String.ofList

/-- A comment runs to the end of its line, block marks in it included. -/
def stripComments : Bool → List Char → List Char
  | _, [] => []
  | inComment, c :: cs =>
    if c = '\n' then c :: stripComments false cs
    else if inComment || c == '#' then stripComments true cs
    else c :: stripComments false cs

/-- A whole script: the operations it stands for, or none where a line is no line of R95 or R96. -/
def assemble (p : Params) (text : String) : Option (List Instr) :=
  let chars := (stripComments false text.toList).flatMap breakAtMarks
  assembleLines p ((splitAtChars (fun c => c == '\n') chars).map tokensOf) [] []

/-- The stimulus words of a script (R92). -/
def assembleWords (p : Params) (text : String) : Option (List CodeWord) := (assemble p text).map (List.map encode)

end Sys2Proof.Machine
end

