-- ==== Sys2Proof/WellFormed.lean ====
section
/-!
DEFINITION. Which operations the environment may raise: the operand ranges of 10_state.md R40 and 30_encoding.md R95.
The operand widths of the encoding are the operand types of `Instr` themselves. What is left to check is the
interface contract of the configuration port (46_config_port.md R195, R196) and of the formats whose operand the
implementation fixes (30_encoding.md R85, R86).
-/

namespace Sys2Proof

/-- `CFGADDR <0..512>` (30_encoding.md R95, 46_config_port.md R195). -/
def startAddressLegal (a : BitVec 10) : Bool := decide (a.toNat ≤ startMax)

/-- `CFGCNT <0..MAX_CH>` (30_encoding.md R95, 46_config_port.md R196). -/
def channelCountLegal (p : Params) (n : BitVec 10) : Bool := decide (n.toNat ≤ p.maxCh)

/-- The bits of the first data byte that a 10-bit sample can set: with `SAMPLE_SHIFT = 0` only the low two
(30_encoding.md R86). -/
def highNibbleLegal (p : Params) (h : BitVec 4) : Bool :=
  match p.sampleShift with
  | .zero => decide (h.toNat < 4)
  | .two => true

/-- The bits of the second data byte that a 10-bit sample can set: with `SAMPLE_SHIFT = 2` bits 1:0 are 0
(30_encoding.md R87). -/
def lowByteLegal (p : Params) (l : Byte) : Bool :=
  match p.sampleShift with
  | .zero => true
  | .two => decide (l.toNat % 4 = 0)

/-- The operation is inside the interface contract of a core with parameters `p`. -/
def Instr.wellFormed (p : Params) : Instr → Bool
  | .reset => true
  | .tick _ => true
  | .rxByte _ => true
  | .rxErrOverrun => true
  | .rxErrFraming => true
  | .rxErrParity => true
  | .rearm => true
  | .mpxTick => true
  | .dacReq _ => true
  | .busDone => true
  | .supTick _ => true
  | .cfgAddr a => startAddressLegal a
  | .cfgCnt n => channelCountLegal p n
  | .levelCode _ => true
  | .syncCode => true
  | .dacAddrByte a => decide (a = p.dacAddr)
  | .dacHighByte h => highNibbleLegal p h
  | .dacLowByte l => lowByteLegal p l

end Sys2Proof
end

