-- ==== Sys2Proof/Safety.lean ====
section
/-!
DEFINITION. What statements about the core are made of: the invariants of 10_state.md R43 to R47 and of the rules they
rest on, the parts of the state each pipeline owns (R42), and the contracts of the environment agents, which the step
does not enforce (44_dac_driver.md R179, 60_exceptions.md R217).
-/

namespace Sys2Proof.Machine

/-! ### Acquisition -/

/-- The three acquisition states of 10_state.md R43. -/
inductive AcqMode where
  | hunting
  | receiving
  | complete
  deriving DecidableEq, Repr

/-- The acquisition state, where exactly one of the three bits is 1 (10_state.md R43). -/
def State.acqMode (s : State) : Option AcqMode :=
  match s.tickEnable, s.rxIntEnable, s.frameReady with
  | true, false, false => some .hunting
  | false, true, false => some .receiving
  | false, false, true => some .complete
  | _, _, _ => none

/-- What the reachable states satisfy about the break detector, the receiver and the configuration. -/
structure AcquisitionInv (s : State) : Prop where
  /-- Exactly one of `tick_enable`, `rx_int_enable`, `frame_ready` is 1 (R43). -/
  oneHot : s.acqMode.isSome = true
  /-- The range of `idle_run_length` (R21). -/
  idleRange : s.idleRunLength ≤ breakThreshold
  /-- A confirmed break has a full run (R47). -/
  confirmedRun : s.breakConfirmed = true → s.idleRunLength = breakThreshold
  /-- Receiving only after a confirmed break (R47). -/
  receivingConfirmed : s.tickEnable = false → s.frameReady = false → s.breakConfirmed = true
  /-- The range of `received_count` (R26, R44). -/
  receivedRange : s.receivedCount ≤ s.params.maxCh + 1
  /-- The next store index exists while receiving (R44). -/
  storeIndex : s.rxIntEnable = true → s.receivedCount ≤ s.params.maxCh
  /-- The reception cursor is 0 while hunting (40_break_detector.md R112). -/
  huntingCursor : s.tickEnable = true → s.receivedCount = 0 ∧ s.addressSkipCount = 0
  /-- Every stored byte was counted (41_frame_receiver.md R121, R122). -/
  skipCountsStores : s.receivedCount ≤ s.addressSkipCount.toNat
  /-- `address_skip_count` stays far below its wrap (R25). -/
  skipBound : s.addressSkipCount.toNat ≤ startMax + s.receivedCount
  /-- `cfg_start_address` is legal (R37). -/
  startLegal : s.cfgStartAddress.toNat ≤ startMax
  /-- `cfg_channel_count` is legal (R38). -/
  countLegal : s.cfgChannelCount ≤ s.params.maxCh

/-! ### Output side -/

/-- What the reachable states satisfy about the MPX Generator. -/
structure GeneratorInv (s : State) : Prop where
  /-- `1 <= output_channel_index <= MAX_OUT` (R45). -/
  indexRange : 1 ≤ s.outputChannelIndex ∧ s.outputChannelIndex ≤ s.params.maxOut
  /-- The index is 1 on every entry to `EmitFirstLevel` and `EmitLongSync` (43_mpx_generator.md R151, R155). -/
  indexAtEnds : s.mpxPhase = .emitFirstLevel ∨ s.mpxPhase = .emitLongSync → s.outputChannelIndex = 1
  /-- Within a scan the programmed period is Short (43_mpx_generator.md R152, R154). -/
  periodWithinScan : s.mpxPhase ≠ .emitFirstLevel → s.mpxPeriod = .short
  /-- The period trace alternates Short and Long, one pair a scan (43_mpx_generator.md R151, R155). -/
  periodTrace : ∃ scans : Nat, s.periodTrace = (List.replicate scans [Period.short, Period.long]).flatten ++
    (if s.mpxPhase = .emitFirstLevel then [] else [.short])

/-- The bus trace is a run of whole transactions followed by as much of the current one as its phase says has been
asked for (30_encoding.md R84, 44_dac_driver.md R180, 10_state.md R46). -/
def BusTraceInv (s : State) : Prop :=
  ∃ sent : List Sample, s.busTrace = sent.flatMap (transaction s.params) ++
    (transaction s.params s.dacSample).take s.dacPhase.commandsAsked

/-- The frame buffer's list is canonical and lists only indices that exist (20_memory.md R60). -/
structure FrameInv (s : State) : Prop where
  canonical : Memory.wf s.params.initByte s.frame = true
  inRange : Memory.within s.params.frameTop s.frame = true

/-- The invariant of the core. -/
structure Inv (s : State) : Prop where
  paramsOk : s.params.ok = true
  acquisition : AcquisitionInv s
  generator : GeneratorInv s
  bus : BusTraceInv s
  buffer : FrameInv s

/-! ### Who owns what (10_state.md R42) -/

/-- The state the Break Detector, the Frame Receiver and the mainline loop write, apart from `rx_active`. -/
structure AcquisitionPart where
  tickEnable : Bool
  idleRunLength : Nat
  breakConfirmed : Bool
  rxIntEnable : Bool
  overrunPending : Bool
  addressSkipCount : BitVec 16
  receivedCount : Nat
  frame : Memory
  frameReady : Bool
  deserTrace : List DeserCommand
  deriving DecidableEq, Repr

/-- The state the MPX Generator and the DAC Transaction Driver write. -/
structure OutputPart where
  mpxPhase : MpxPhase
  outputChannelIndex : Nat
  mpxPeriod : Period
  dacPhase : DacPhase
  dacSample : Sample
  busTrace : List BusCommand
  periodTrace : List Period
  deriving DecidableEq, Repr

/-- The state only the Link Activity Supervisor writes. -/
structure SupervisorPart where
  heartbeat : Bool
  idleHistory : BitVec 8
  deriving DecidableEq, Repr

/-- The Config registers, which only the UI writes. -/
structure ConfigPart where
  cfgStartAddress : BitVec 10
  cfgChannelCount : Nat
  deriving DecidableEq, Repr

/-- The acquisition part of a state. -/
def State.acquisition (s : State) : AcquisitionPart where
  tickEnable := s.tickEnable
  idleRunLength := s.idleRunLength
  breakConfirmed := s.breakConfirmed
  rxIntEnable := s.rxIntEnable
  overrunPending := s.overrunPending
  addressSkipCount := s.addressSkipCount
  receivedCount := s.receivedCount
  frame := s.frame
  frameReady := s.frameReady
  deserTrace := s.deserTrace

/-- The output part of a state. -/
def State.output (s : State) : OutputPart where
  mpxPhase := s.mpxPhase
  outputChannelIndex := s.outputChannelIndex
  mpxPeriod := s.mpxPeriod
  dacPhase := s.dacPhase
  dacSample := s.dacSample
  busTrace := s.busTrace
  periodTrace := s.periodTrace

/-- The supervisor part of a state. -/
def State.supervisor (s : State) : SupervisorPart where
  heartbeat := s.heartbeat
  idleHistory := s.idleHistory

/-- The Config part of a state. -/
def State.config (s : State) : ConfigPart where
  cfgStartAddress := s.cfgStartAddress
  cfgChannelCount := s.cfgChannelCount

/-- Events of the acquisition pipeline: TICK, RXBYTE, RXERR, REARM. -/
def acquires : Instr → Bool
  | .reset => false
  | .tick _ => true
  | .rxByte _ => true
  | .rxErrOverrun => true
  | .rxErrFraming => true
  | .rxErrParity => true
  | .rearm => true
  | .mpxTick => false
  | .dacReq _ => false
  | .busDone => false
  | .supTick _ => false
  | .cfgAddr _ => false
  | .cfgCnt _ => false
  | .levelCode _ => false
  | .syncCode => false
  | .dacAddrByte _ => false
  | .dacHighByte _ => false
  | .dacLowByte _ => false

/-- Events of the output pipeline: MPXTICK, DACREQ, BUSDONE and the data the pipeline hands over. -/
def emits : Instr → Bool
  | .reset => false
  | .tick _ => false
  | .rxByte _ => false
  | .rxErrOverrun => false
  | .rxErrFraming => false
  | .rxErrParity => false
  | .rearm => false
  | .mpxTick => true
  | .dacReq _ => true
  | .busDone => true
  | .supTick _ => false
  | .cfgAddr _ => false
  | .cfgCnt _ => false
  | .levelCode _ => true
  | .syncCode => true
  | .dacAddrByte _ => true
  | .dacHighByte _ => true
  | .dacLowByte _ => true

/-! ### The environment's contracts -/

/-- The bus engine owes a completion: a command of the current transaction is outstanding (44_dac_driver.md R179).
DESIGN CHOICE (log 28): a completion owed for a command emitted before a RESET is not counted. 70_reset_and_hazards.md
R232 says the bus engine may still owe it; 44_dac_driver.md R177 says that none comes in `Idle`. -/
def State.busOwed (s : State) : Bool := decide (s.dacPhase ≠ .idle)

/-- The source may raise the event in a state: a masked source raises nothing (60_exceptions.md R201, R213, R217), but
for an overrun. DESIGN CHOICE (log 30): R217 has line errors raised only while `rx_int_enable = 1`, while 10_state.md R24
and 41_frame_receiver.md R124 have an overrun arise and be latched while it is 0; the overrun is admitted there. -/
def sourceMayRaise (i : Instr) (s : State) : Bool := sourceEnabled i s || decide (i = .rxErrOverrun)

/-- The events the environment's contracts allow in a state: the source may raise it, the bus engine answers only what
was asked (44_dac_driver.md R179), and operands are in range (46_config_port.md R195, R196); the core's own acts of
logs 5 and 6 are allowed with any operand the core can produce. A late completion in `Idle` after a RESET
(70_reset_and_hazards.md R232) is left out, DESIGN CHOICE (log 28); the step takes it all the same. -/
def environmentMayRaise (i : Instr) (s : State) : Bool :=
  sourceMayRaise i s && i.wellFormed s.params && (decide (sourceOf i ≠ .busEngine) || s.busOwed)

/-! ### Scans -/

/-- The samples a scan requests, in order: each level followed by a sync (43_mpx_generator.md R157). -/
def scanSamples (s : State) : List Sample :=
  (List.range s.params.maxOut).flatMap fun k => [levelSample (s.frameByte (k + 1)), syncSample]

/-- The samples requested by a run of `n` MPXTICKs, none where a tick answers no next state. -/
def requestsOf : Nat → State → Option (List Sample)
  | 0, _ => some []
  | n + 1, s =>
    match exec .mpxTick s with
    | .next t => (requestsOf n t).map (s.nextRequest :: ·)
    | .fault _ => none
    | .refused _ => none

/-- The time `n` MPXTICKs take, each lasting the period programmed when it has been handled (43_mpx_generator.md
R158). -/
def scanTime : Nat → State → Option Nat
  | 0, _ => some 0
  | n + 1, s =>
    match exec .mpxTick s with
    | .next t => (scanTime n t).map (waitOf t.params t.mpxPeriod + ·)
    | .fault _ => none
    | .refused _ => none

end Sys2Proof.Machine
end

