-- ==== Sys2Proof/Certificates/Slice0/Obligations.lean ====
section
/-!
DEFINITION. The statements about the core that the provers settle. Each docstring names the rule of spec/ it formalises;
where a clause rests on a choice of the model or on a point the spec marks as its own decision or derivation, the
docstring says so and names the log entry or the decision.
-/

open Sys2Proof Sys2Proof.Machine

/-! ### Encodings -/

/-- Words written out from 30_encoding.md R81, R82, R85 to R87, R93 and from the table of 95_test_vectors.md 2.1
(decision D26) decode to the rows they stand for. That 0xC0 is the address byte of 0x60 is a presumed layout (R85 marks
it as general knowledge, log 17), and that 0x0F is a first data byte with nibble 0xF is a choice (decision D19,
log 18). -/
def Obligations.WrittenOutWordsDecode : Prop :=
  decode (.stim16 0x0000#16) = .ok .reset ∧ decode (.stim16 0x1000#16) = .ok (.tick .low) ∧
  decode (.stim16 0x1001#16) = .ok (.tick .high) ∧ decode (.stim16 0x20FF#16) = .ok (.rxByte 0xFF#8) ∧
  decode (.stim16 0x3000#16) = .ok .rxErrOverrun ∧ decode (.stim16 0x3001#16) = .ok .rxErrFraming ∧
  decode (.stim16 0x3002#16) = .ok .rxErrParity ∧ decode (.stim16 0x4000#16) = .ok .rearm ∧
  decode (.stim16 0x5000#16) = .ok .mpxTick ∧ decode (.stim16 0x63FE#16) = .ok (.dacReq 1022#10) ∧
  decode (.stim16 0x7000#16) = .ok .busDone ∧ decode (.stim16 0x8000#16) = .ok (.supTick false) ∧
  decode (.stim16 0x8001#16) = .ok (.supTick true) ∧ decode (.stim16 0x9200#16) = .ok (.cfgAddr 512#10) ∧
  decode (.stim16 0xA010#16) = .ok (.cfgCnt 16#10) ∧ decode (.sample10 0x3FE#10) = .ok (.levelCode 255#8) ∧
  decode (.sample10 0x200#10) = .ok (.levelCode 0#8) ∧ decode (.sample10 0x000#10) = .ok .syncCode ∧
  decode (.busByte8 .address 0xC0#8) = .ok (.dacAddrByte 0x60#7) ∧
  decode (.busByte8 .high 0x0F#8) = .ok (.dacHighByte 0xF#4) ∧
  decode (.busByte8 .low 0xFE#8) = .ok (.dacLowByte 0xFE#8)

/-- Decode and encode agree on every row with every operand (30_encoding.md R81, R82, R85 to R87, R93; D26; the layouts of the bus bytes are logs 17 and 18). -/
def Obligations.DecodeOfEncodeIsTheInstruction : Prop :=
  ∀ i : Instr, decode (encode i) = .ok i

/-- Each code word spells at most one operation, and that operation's encoding is the word itself: no bit of a word is
ignored (30_encoding.md R93, R94; D26; the layouts of the bus bytes are logs 17 and 18). -/
def Obligations.EncodeOfDecodeIsTheWord : Prop :=
  ∀ (c : CodeWord) (i : Instr), decode c = .ok i → encode i = c

/-- The decoder is the operation map of 30_encoding.md R93: a stimulus word spells exactly the row with
`w & mask = match` (decision D26). -/
def Obligations.StimulusDecoderFollowsOperationMap : Prop :=
  (∀ (w : StimWord) (r : TableRow), r ∈ stimRows →
    (r.spells 16 w.toNat = true ↔ ∃ i, decode (.stim16 w) = .ok i ∧ i.mnemonic = r.mnemonic)) ∧
  (∀ (w : StimWord) (i : Instr), decode (.stim16 w) = .ok i → ∃ r ∈ stimRows, r.mnemonic = i.mnemonic)

/-- Reserved stimulus words are refused by name: `op` 0xB to 0xF, the word `0x3003`, and every word that no row of the
operation map spells (30_encoding.md R94; D26). -/
def Obligations.ReservedStimuliAreRefused : Prop :=
  ∀ (s : State) (w : StimWord) (rest : List CodeWord), s.params.ok = true → s.stimuli = .stim16 w :: rest →
    (11 ≤ (bits w 12 4).toNat → step s = .refused (.invalidStimulus (.reservedOp (bits w 12 4)))) ∧
    (w = 0x3003#16 → step s = .refused (.invalidStimulus .reservedErrorKind)) ∧
    ((∀ r ∈ stimRows, r.spells 16 w.toNat = false) → ∃ why, step s = .refused (.invalidStimulus why))

/-- The level code of 43_mpx_generator.md R156 and the sync code of 30_encoding.md R82: `encode(v) = v*2 + 512`, in
`512..=1022`, monotonic, reversible, never the sync code 0 nor above the 10-bit range; level 255 at index 1 makes the
first level pulse carry 1022. -/
def Obligations.LevelCodeIsMonotonicAndReversible : Prop :=
  (∀ v : Byte, (levelSample v).toNat = v.toNat * 2 + 512 ∧ 512 ≤ (levelSample v).toNat ∧
    (levelSample v).toNat ≤ 1022 ∧ levelOfSample (levelSample v) = v ∧ (levelSample v).getLsbD 9 = true ∧
    levelSample v ≠ syncSample) ∧
  syncSample = 0#10 ∧
  (∀ v w : Byte, v.toNat < w.toNat → (levelSample v).toNat < (levelSample w).toNat) ∧
  (∀ s : State, s.mpxPhase = .emitFirstLevel → s.frameByte 1 = 255#8 → s.nextRequest = 1022#10)

/-- The two data bytes carry the sample, shifted by `SAMPLE_SHIFT`, in 12 bits, upper nibble 0, and no bit of it is lost
(30_encoding.md R86, R87; the nibble and the shift are decision D19, log 18). -/
def Obligations.DataBytesCarryTheWholeSample : Prop :=
  ∀ (k : SampleShift) (x : Sample),
    (highByte k x).toNat = x.toNat * 2 ^ k.amount / 256 ∧ (lowByte k x).toNat = x.toNat * 2 ^ k.amount % 256 ∧
    (highByte k x).toNat < 16 ∧ (∀ y, highByte k x = highByte k y → lowByte k x = lowByte k y → x = y)

/-! ### Break Detector -/

/-- 40_break_detector.md R110: a TICK while disarmed is ignored. -/
def Obligations.TickWhileDisarmedIsIgnored : Prop :=
  encode (.tick .low) = .stim16 0x1000#16 ∧ encode (.tick .high) = .stim16 0x1001#16 ∧
  ∀ (s : State) (level : LineLevel), s.tickEnable = false → exec (.tick level) s = .next s

/-- 40_break_detector.md R111: a HIGH sample before confirmation resets the run and writes nothing else. -/
def Obligations.HighSampleBeforeConfirmationResetsRun : Prop :=
  encode (.tick .high) = .stim16 0x1001#16 ∧
  ∀ s : State, s.tickEnable = true → s.breakConfirmed = false →
    exec (.tick .high) s = .next { s with idleRunLength := 0 }

/-- 40_break_detector.md R112: the first HIGH sample after confirmation hands off to the receiver and writes nothing
else; OVRCLEAR is emitted whatever the overrun latch holds. -/
def Obligations.HighSampleAfterConfirmationHandsOff : Prop :=
  encode (.tick .high) = .stim16 0x1001#16 ∧
  ∀ s : State, s.tickEnable = true → s.breakConfirmed = true →
    exec (.tick .high) s = .next { s with tickEnable := false, overrunPending := false, rxIntEnable := true,
                                          deserTrace := s.deserTrace ++ [.ovrClear] }

/-- 40_break_detector.md R113: a LOW sample lengthens the run; the sample that reaches 20 confirms the break; further
LOW samples change nothing. The run is within its range (10_state.md R21), which the invariants keep. -/
def Obligations.LowSampleCountsAndConfirmsAtTwenty : Prop :=
  encode (.tick .low) = .stim16 0x1000#16 ∧
  (∀ s : State, s.tickEnable = true → s.idleRunLength < 19 →
    exec (.tick .low) s = .next { s with idleRunLength := s.idleRunLength + 1 }) ∧
  (∀ s : State, s.tickEnable = true → 19 ≤ s.idleRunLength → s.idleRunLength ≤ 20 →
    exec (.tick .low) s = .next { s with idleRunLength := 20, breakConfirmed := true })

/-- 40_break_detector.md R115 (second sentence, marked derived there): a run of LOW samples that stays below the
threshold, followed by a HIGH sample, never confirms. The run is counted from what `idle_run_length` already holds
(log 24). -/
def Obligations.ShortBreakNeverConfirms : Prop :=
  ∀ (s : State) (n : Nat), s.tickEnable = true → s.breakConfirmed = false → s.idleRunLength + n < 20 →
    execAll (breakRun n ++ [.tick .high]) s = .next { s with idleRunLength := 0 }

/-- 40_break_detector.md R112, R113, R116: enough LOW samples, however many, and one HIGH sample hand off to the
receiver (saturation is decision D5). -/
def Obligations.SustainedBreakThenMarkHandsOff : Prop :=
  ∀ (s : State) (n : Nat), s.tickEnable = true → s.breakConfirmed = false → s.idleRunLength < 20 →
    20 ≤ s.idleRunLength + n →
    execAll (breakRun n ++ [.tick .high]) s = .next
      { s with idleRunLength := 20, breakConfirmed := true, tickEnable := false, overrunPending := false,
               rxIntEnable := true, deserTrace := s.deserTrace ++ [.ovrClear] }

/-- 40_break_detector.md R115 (first sentence): `break_confirmed` goes from 0 to 1 only in a TICK(LOW) step of an armed
detector. -/
def Obligations.OnlyALowSampleConfirms : Prop :=
  ∀ (i : Instr) (s t : State), exec i s = .next t → s.breakConfirmed = false → t.breakConfirmed = true →
    i = .tick .low ∧ s.tickEnable = true ∧ t.idleRunLength = 20

/-! ### Frame Receiver -/

/-- 41_frame_receiver.md R120, R124 (decisions D11, D12): while reception is disabled bytes, framing errors and parity
errors are lost, and an overrun only sets its latch. -/
def Obligations.DisabledReceiverOnlyLatchesOverrun : Prop :=
  ∀ s : State, s.rxIntEnable = false →
    (∀ b : Byte, exec (.rxByte b) s = .next s) ∧ exec .rxErrFraming s = .next s ∧ exec .rxErrParity s = .next s ∧
    exec .rxErrOverrun s = .next { s with overrunPending := true }

/-- 41_frame_receiver.md R121: a byte inside the skip window is counted, mod 2^16, and discarded. -/
def Obligations.ByteInSkipWindowIsCountedAndDiscarded : Prop :=
  (∀ b : Byte, encode (.rxByte b) = .stim16 (0x20#8 ++ b)) ∧
  ∀ (s : State) (b : Byte), s.rxIntEnable = true →
    (s.addressSkipCount.toNat + 1) % 2 ^ 16 ≤ s.cfgStartAddress.toNat →
    exec (.rxByte b) s = .next { s with addressSkipCount := s.addressSkipCount + 1 }

/-- 41_frame_receiver.md R122, R123 (decisions D6, D7, D28; log 26): a byte past the skip window is stored at the index
`received_count`, every other byte of the frame buffer stays, the cursor advances, the receiving indicator is set, and
the store that makes `received_count >= cfg_channel_count + 1` completes the frame. Nothing else is written. -/
def Obligations.BytePastSkipWindowIsStored : Prop :=
  ∀ (s : State) (b : Byte), s.rxIntEnable = true →
    s.cfgStartAddress.toNat < (s.addressSkipCount.toNat + 1) % 2 ^ 16 → s.receivedCount ≤ s.params.frameTop →
    ∃ t, exec (.rxByte b) s = .next t ∧
      (∀ j, t.frameByte j = if j = s.receivedCount then b else s.frameByte j) ∧
      t = { s with
            frame := t.frame, addressSkipCount := s.addressSkipCount + 1, receivedCount := s.receivedCount + 1,
            rxActive := true,
            rxIntEnable := decide (s.receivedCount + 1 < s.cfgChannelCount + 1),
            frameReady := s.frameReady || decide (s.cfgChannelCount + 1 ≤ s.receivedCount + 1) }

/-- The model's own fault (log 8), which 20_memory.md R62 says no access of a run can take: an index above `FRAME_TOP`
does not exist (R60), so a store there and a level read there stop by name. -/
def Obligations.MissingFrameIndexFaults : Prop :=
  (∀ (s : State) (b : Byte), s.rxIntEnable = true →
    s.cfgStartAddress.toNat < (s.addressSkipCount.toNat + 1) % 2 ^ 16 → s.params.frameTop < s.receivedCount →
    exec (.rxByte b) s = .fault (.frameIndexOutOfRange s.receivedCount)) ∧
  (∀ s : State, s.mpxPhase = .emitNextLevel → s.params.frameTop < s.outputChannelIndex →
    exec .mpxTick s = .fault (.frameIndexOutOfRange s.outputChannelIndex)) ∧
  (∀ s : State, s.mpxPhase = .emitFirstLevel → s.params.frameTop = 0 →
    exec .mpxTick s = .fault (.frameIndexOutOfRange 1))

/-- 41_frame_receiver.md R128, R129 (marked derived there): in an attempt with constant configuration exactly
`cfg_start_address` bytes are discarded and `cfg_channel_count + 1` stored, byte `start + i + 1` at index `i`; the frame
is ready after the last byte and after no earlier one; other indices and the other pipelines are untouched. -/
def Obligations.WholeAttemptCapturesTheWindow : Prop :=
  ∀ (s : State) (bytes : List Byte), s.params.ok = true → s.rxIntEnable = true → s.frameReady = false →
    s.addressSkipCount = 0 → s.receivedCount = 0 → s.cfgChannelCount ≤ s.params.maxCh →
    bytes.length = s.cfgStartAddress.toNat + s.cfgChannelCount + 1 →
    (∃ t, execAll (bytesRun bytes) s = .next t ∧ t.frameReady = true ∧ t.rxIntEnable = false ∧ t.rxActive = true ∧
      t.receivedCount = s.cfgChannelCount + 1 ∧ t.addressSkipCount.toNat = bytes.length ∧
      (∀ i, i ≤ s.cfgChannelCount → bytes[s.cfgStartAddress.toNat + i]? = some (t.frameByte i)) ∧
      (∀ i, s.cfgChannelCount < i → t.frameByte i = s.frameByte i) ∧
      t.output = s.output ∧ t.supervisor = s.supervisor ∧ t.config = s.config) ∧
    (∀ k, k < bytes.length → ∃ t, execAll (bytesRun (bytes.take k)) s = .next t ∧
      t.frameReady = false ∧ t.rxIntEnable = true)

/-- 41_frame_receiver.md R132: no rule tests the byte's value: two values lead to states that differ in the stored byte
alone. -/
def Obligations.ReceiverNeverInspectsByteValues : Prop :=
  ∀ (s t : State) (b c : Byte), exec (.rxByte b) s = .next t →
    ∃ u, exec (.rxByte c) s = .next u ∧ u = { t with frame := u.frame } ∧
      ∀ j, j ≠ s.receivedCount → u.frameByte j = t.frameByte j

/-- 41_frame_receiver.md R124, R125 (decision D10): an overrun while reception is enabled latches, disables reception
and sets `frame_ready`; the frame buffer, the counters and `rx_active` stay. -/
def Obligations.OverrunAbandonsTheAttempt : Prop :=
  encode .rxErrOverrun = .stim16 0x3000#16 ∧
  ∀ s : State, s.rxIntEnable = true →
    exec .rxErrOverrun s = .next { s with overrunPending := true, rxIntEnable := false, frameReady := true }

/-- 41_frame_receiver.md R126, R127: a framing or a parity error while reception is enabled clears `rx_active` and
writes nothing else. -/
def Obligations.MalformedByteOnlyClearsTheIndicator : Prop :=
  encode .rxErrFraming = .stim16 0x3001#16 ∧ encode .rxErrParity = .stim16 0x3002#16 ∧
  ∀ s : State, s.rxIntEnable = true →
    exec .rxErrFraming s = .next { s with rxActive := false } ∧ exec .rxErrParity s = .next { s with rxActive := false }

/-! ### Mainline Reframe Loop -/

/-- 42_mainline_rearm.md R140, R141: REARM clears `frame_ready`, the reception cursor and the break-detection state and
re-enables the tick source, if `frame_ready` is set; otherwise it has no effect. -/
def Obligations.RearmRestartsTheHunt : Prop :=
  encode .rearm = .stim16 0x4000#16 ∧
  (∀ s : State, s.frameReady = true →
    exec .rearm s = .next { s with frameReady := false, receivedCount := 0, addressSkipCount := 0, idleRunLength := 0,
                                   breakConfirmed := false, tickEnable := true }) ∧
  (∀ s : State, s.frameReady = false → exec .rearm s = .next s)

/-- 42_mainline_rearm.md R143: apart from reset only REARM sets `tick_enable` or clears `frame_ready`; without them a
Complete core stays Complete for ever, its frame buffer does not change, and the generator goes on requesting the same
scan. -/
def Obligations.OnlyRearmRestartsAcquisition : Prop :=
  (∀ (i : Instr) (s t : State), exec i s = .next t → i ≠ .rearm → i ≠ .reset →
    (t.tickEnable = true → s.tickEnable = true) ∧ (s.frameReady = true → t.frameReady = true)) ∧
  (∀ (is : List Instr) (s t : State), (∀ i ∈ is, i ≠ .rearm ∧ i ≠ .reset) → s.acqMode = some .complete →
    execAll is s = .next t → t.acqMode = some .complete ∧ (∀ j, t.frameByte j = s.frameByte j) ∧
      (s.params.ok = true → t.mpxPhase = .emitFirstLevel →
        requestsOf (2 * s.params.maxOut) t = some (scanSamples s)))

/-! ### MPX Generator -/

/-- 43_mpx_generator.md R151 (the literal indices are decision D16): MPXTICK in `EmitFirstLevel`. -/
def Obligations.FirstLevelTick : Prop :=
  encode .mpxTick = .stim16 0x5000#16 ∧
  ∀ s : State, s.mpxPhase = .emitFirstLevel → 1 ≤ s.params.frameTop →
    exec .mpxTick s = .next
      { dacRequest (levelSample (s.frameByte 1)) s with
        mpxPeriod := .short, periodTrace := s.periodTrace ++ [.short], outputChannelIndex := 2, mpxPhase := .emitSync }

/-- 43_mpx_generator.md R152, R155: the two sync phases request the sample 0; only the long one programs a period. -/
def Obligations.SyncTicks : Prop :=
  (∀ s : State, s.mpxPhase = .emitSync →
    exec .mpxTick s = .next { dacRequest 0#10 s with mpxPhase := .emitNextLevel }) ∧
  (∀ s : State, s.mpxPhase = .emitLongSync →
    exec .mpxTick s = .next
      { dacRequest 0#10 s with
        mpxPeriod := .long, periodTrace := s.periodTrace ++ [.long], mpxPhase := .emitFirstLevel })

/-- 43_mpx_generator.md R153, R154: MPXTICK in `EmitNextLevel` requests the current channel's level, then goes to the
next channel below `MAX_OUT` and to the long sync at it. -/
def Obligations.NextLevelTick : Prop :=
  (∀ s : State, s.mpxPhase = .emitNextLevel → s.outputChannelIndex ≤ s.params.frameTop →
    s.outputChannelIndex < s.params.maxOut →
    exec .mpxTick s = .next
      { dacRequest (levelSample (s.frameByte s.outputChannelIndex)) s with
        outputChannelIndex := s.outputChannelIndex + 1, mpxPhase := .emitSync }) ∧
  (∀ s : State, s.mpxPhase = .emitNextLevel → s.outputChannelIndex ≤ s.params.frameTop →
    s.params.maxOut ≤ s.outputChannelIndex →
    exec .mpxTick s = .next
      { dacRequest (levelSample (s.frameByte s.outputChannelIndex)) s with
        outputChannelIndex := 1, mpxPhase := .emitLongSync })

/-- 43_mpx_generator.md R162 (marked derived there): no event but MPXTICK and reset changes `mpx_phase`, and MPXTICK
takes exactly one of the five transitions. -/
def Obligations.PhaseOrderIsTheFourStateCycle : Prop :=
  ∀ (i : Instr) (s t : State), exec i s = .next t → i ≠ .reset →
    (i ≠ .mpxTick → t.mpxPhase = s.mpxPhase) ∧
    (i = .mpxTick →
      (s.mpxPhase = .emitFirstLevel ∧ t.mpxPhase = .emitSync) ∨
      (s.mpxPhase = .emitSync ∧ t.mpxPhase = .emitNextLevel) ∨
      (s.mpxPhase = .emitNextLevel ∧ s.outputChannelIndex < s.params.maxOut ∧ t.mpxPhase = .emitSync) ∨
      (s.mpxPhase = .emitNextLevel ∧ s.params.maxOut ≤ s.outputChannelIndex ∧ t.mpxPhase = .emitLongSync) ∨
      (s.mpxPhase = .emitLongSync ∧ t.mpxPhase = .emitFirstLevel))

/-- 43_mpx_generator.md R150 and 20_memory.md R71: the generator reads no receiver, break-detector or configuration
state: two cores with the same output part, parameters and frame bytes tick alike. -/
def Obligations.GeneratorIgnoresTheReceiver : Prop :=
  ∀ s u t : State, s.output = u.output → s.params = u.params → (∀ j, s.frameByte j = u.frameByte j) →
    exec .mpxTick s = .next t → ∃ v, exec .mpxTick u = .next v ∧ v.output = t.output

/-- 43_mpx_generator.md R157 and 30_encoding.md R90, R96 (marked derived there): a whole scan with every transaction
completing sends `MAX_OUT` level codes and as many syncs as whole transactions, programs Short once and Long once, comes
back to its start, and touches nothing of the acquisition side. The bytes of `transaction` rest on a presumed layout of
the address byte (log 17) and a chosen one of the data bytes (decision D19, log 18). -/
def Obligations.WholeScanSendsEveryChannelOnce : Prop :=
  ∀ s : State, s.params.ok = true → s.mpxPhase = .emitFirstLevel → s.dacPhase = .idle →
    ∃ t, execAll (scanRun s.params.maxOut) s = .next t ∧
      t.busTrace = s.busTrace ++ (scanSamples s).flatMap (transaction s.params) ∧
      t.periodTrace = s.periodTrace ++ [.short, .long] ∧
      t.mpxPhase = .emitFirstLevel ∧ t.outputChannelIndex = 1 ∧ t.mpxPeriod = .long ∧ t.dacPhase = .idle ∧
      t.acquisition = s.acquisition ∧ t.supervisor = s.supervisor ∧ t.config = s.config ∧ t.rxActive = s.rxActive

/-- 43_mpx_generator.md R157, R159, R160 (marked derived there): `2 * MAX_OUT` ticks request the scan's samples in
order, whatever the DAC driver drops. The sample a tick requests is `State.nextRequest`: to the driver, a tick is
`DacRequest` of exactly that sample (R150). -/
def Obligations.ScanRequestsEveryChannelWhateverIsDropped : Prop :=
  (∀ s t : State, exec .mpxTick s = .next t →
    t.dacPhase = (dacRequest s.nextRequest s).dacPhase ∧ t.dacSample = (dacRequest s.nextRequest s).dacSample ∧
    t.busTrace = (dacRequest s.nextRequest s).busTrace) ∧
  (∀ s : State, s.params.ok = true → s.mpxPhase = .emitFirstLevel →
    requestsOf (2 * s.params.maxOut) s = some (scanSamples s))

/-- 43_mpx_generator.md R157, R158 (decision D17, log 16): the scan period is
`(2 * MAX_OUT - 1) * T_SHORT + T_LONG`, independent of everything else in the state. -/
def Obligations.ScanPeriodIsInvariant : Prop :=
  ∀ s : State, s.params.ok = true → s.mpxPhase = .emitFirstLevel →
    scanTime (2 * s.params.maxOut) s = some ((2 * s.params.maxOut - 1) * s.params.tShort + s.params.tLong)

/-! ### DAC Transaction Driver -/

/-- 44_dac_driver.md R170, R177 (decisions D18, D21; log 15): an idle driver latches a requested sample, asks for the
start condition and leaves everything else alone; a completion it is not owed has no effect. -/
def Obligations.IdleDriverAcceptsRequestIgnoresCompletion : Prop :=
  (∀ x : Sample, encode (.dacReq x) = .stim16 (0x18#6 ++ x)) ∧ encode .busDone = .stim16 0x7000#16 ∧
  ∀ s : State, s.dacPhase = .idle →
    (∀ x : Sample, exec (.dacReq x) s =
      .next { s with dacSample := x, dacPhase := .startRequested, busTrace := s.busTrace ++ [.start] }) ∧
    exec .busDone s = .next s

/-- 44_dac_driver.md R171: a request to a busy driver is dropped; nothing changes. -/
def Obligations.BusyDriverDropsRequest : Prop :=
  ∀ (s : State) (x : Sample), s.dacPhase ≠ .idle → exec (.dacReq x) s = .next s

/-- 44_dac_driver.md R172 to R176: each completion advances one phase, sends the byte of that phase, and writes nothing
else; `dac_sample` keeps its value. The byte layouts are 30_encoding.md R85 to R87: the address in bits 7:1 over a 0
write bit is presumed (R85 marks it as general knowledge, log 17), the two data bytes are a choice (decision D19,
log 18). -/
def Obligations.CompletionAdvancesOnePhase : Prop :=
  ∀ s : State,
    (s.dacPhase = .startRequested → exec .busDone s =
      .next { s with busTrace := s.busTrace ++ [.send (s.params.dacAddr ++ 0#1)], dacPhase := .addressSent }) ∧
    (s.dacPhase = .addressSent → exec .busDone s =
      .next { s with busTrace := s.busTrace ++ [.send (highByte s.params.sampleShift s.dacSample)],
                     dacPhase := .highNibbleSent }) ∧
    (s.dacPhase = .highNibbleSent → exec .busDone s =
      .next { s with busTrace := s.busTrace ++ [.send (lowByte s.params.sampleShift s.dacSample)],
                     dacPhase := .lowByteSent }) ∧
    (s.dacPhase = .lowByteSent → exec .busDone s =
      .next { s with busTrace := s.busTrace ++ [.stop], dacPhase := .stopRequested }) ∧
    (s.dacPhase = .stopRequested → exec .busDone s = .next { s with dacPhase := .idle })

/-- 44_dac_driver.md R180 (marked derived there): an accepted request and five completions put exactly one whole
transaction of the accepted sample on the bus, whatever is requested in between. The bytes of `transaction` are laid out
by logs 17 and 18. -/
def Obligations.TransactionSendsTheAcceptedSample : Prop :=
  ∀ (s : State) (x : Sample) (gaps : List (List Sample)), s.dacPhase = .idle → gaps.length = 5 →
    execAll (.dacReq x :: gaps.flatMap (fun dropped => dropped.map Instr.dacReq ++ [.busDone])) s =
      .next { s with dacSample := x, busTrace := s.busTrace ++ transaction s.params x }

/-- 10_state.md R46: the driver begins no transaction while not in `Idle`: START is emitted only by a request, raised by
MPXTICK or directly or as a handed-over sample (log 5), that finds `dac_phase = Idle`. -/
def Obligations.StartIsEmittedOnlyFromIdle : Prop :=
  ∀ (i : Instr) (s t : State) (new : List BusCommand), exec i s = .next t → i ≠ .reset →
    t.busTrace = s.busTrace ++ new → .start ∈ new →
    s.dacPhase = .idle ∧ t.dacPhase = .startRequested ∧
      (i = .mpxTick ∨ (∃ x, i = .dacReq x) ∨ (∃ v, i = .levelCode v) ∨ i = .syncCode)

/-- 10_state.md R41 (decision D30): the three output traces are append-only; only reset empties them. -/
def Obligations.TracesAreAppendOnly : Prop :=
  ∀ (i : Instr) (s t : State), exec i s = .next t → i ≠ .reset →
    s.busTrace <+: t.busTrace ∧ s.periodTrace <+: t.periodTrace ∧ s.deserTrace <+: t.deserTrace

/-! ### Link Activity Supervisor -/

/-- 45_link_supervisor.md R190, R191 (decisions D23, D33): SUPTICK toggles the heartbeat; if the receiver is idle and
the history is above 2 it clears the indicator and the history, otherwise, busy periods included, it counts mod 2^8. -/
def Obligations.SupervisorTick : Prop :=
  encode (.supTick false) = .stim16 0x8000#16 ∧ encode (.supTick true) = .stim16 0x8001#16 ∧
  ∀ (s : State) (rxIdle : Bool),
    exec (.supTick rxIdle) s = .next
      (if rxIdle = true ∧ 2 < s.idleHistory.toNat then
        { s with heartbeat := !s.heartbeat, rxActive := false, idleHistory := 0 }
       else { s with heartbeat := !s.heartbeat, idleHistory := s.idleHistory + 1 })

/-- 45_link_supervisor.md R191, R192 (marked derived there; log 27): from an empty history the fourth idle period, and
no earlier one, clears the indicator; busy periods are counted mod 256 and never clear it. -/
def Obligations.IndicatorClearsAfterThreePeriods : Prop :=
  (∀ s : State, s.idleHistory = 0 →
    execAll (List.replicate 3 (.supTick true)) s = .next { s with heartbeat := !s.heartbeat, idleHistory := 3 } ∧
    execAll (List.replicate 4 (.supTick true)) s = .next { s with rxActive := false, idleHistory := 0 }) ∧
  (∀ (s : State) (n : Nat), ∃ t, execAll (List.replicate n (.supTick false)) s = .next t ∧
    t.idleHistory.toNat = (s.idleHistory.toNat + n) % 256 ∧ t.rxActive = s.rxActive ∧
    t.heartbeat = (if n % 2 = 0 then s.heartbeat else !s.heartbeat))

/-- 45_link_supervisor.md R193: the supervisor sets nothing: `rx_active` rises only with a stored byte; and it reads no
state but its own: its effect on itself and on `rx_active` is decided by its own state and the operand; and it gates
neither pipeline. -/
def Obligations.SupervisorSetsNothing : Prop :=
  (∀ (i : Instr) (s t : State), exec i s = .next t → s.rxActive = false → t.rxActive = true →
    ∃ b, i = .rxByte b ∧ t.receivedCount = s.receivedCount + 1 ∧ t.frameByte s.receivedCount = b) ∧
  (∀ (s u t v : State) (rxIdle : Bool), s.supervisor = u.supervisor → s.rxActive = u.rxActive →
    exec (.supTick rxIdle) s = .next t → exec (.supTick rxIdle) u = .next v →
    t.supervisor = v.supervisor ∧ t.rxActive = v.rxActive) ∧
  (∀ (s t : State) (rxIdle : Bool), exec (.supTick rxIdle) s = .next t →
    t.acquisition = s.acquisition ∧ t.output = s.output ∧ t.config = s.config)

/-- 45_link_supervisor.md R194: the heartbeat toggles on every SUPTICK without condition, and nothing but reset (R230)
writes it otherwise. -/
def Obligations.HeartbeatTogglesOnlyOnSupervisorTick : Prop :=
  ∀ (i : Instr) (s t : State), exec i s = .next t → i ≠ .reset →
    ((∃ r, i = .supTick r) → t.heartbeat = !s.heartbeat) ∧ ((∀ r, i ≠ .supTick r) → t.heartbeat = s.heartbeat)

/-! ### Configuration port -/

/-- 46_config_port.md R195, R196 (decision D8; log 13): an in-range operand is written and nothing else changes; an
operand above 512, or above `MAX_CH`, is refused by name. -/
def Obligations.ConfigWritesAreRangeChecked : Prop :=
  (∀ a : BitVec 10, encode (.cfgAddr a) = .stim16 (0x24#6 ++ a)) ∧
  (∀ n : BitVec 10, encode (.cfgCnt n) = .stim16 (0x28#6 ++ n)) ∧
  (∀ (s : State) (a : BitVec 10), a.toNat ≤ 512 → exec (.cfgAddr a) s = .next { s with cfgStartAddress := a }) ∧
  (∀ (s : State) (a : BitVec 10), 512 < a.toNat → exec (.cfgAddr a) s = .refused .configOutOfRange) ∧
  (∀ (s : State) (n : BitVec 10), n.toNat ≤ s.params.maxCh →
    exec (.cfgCnt n) s = .next { s with cfgChannelCount := n.toNat }) ∧
  (∀ (s : State) (n : BitVec 10), s.params.maxCh < n.toNat → exec (.cfgCnt n) s = .refused .configOutOfRange)

/-- 46_config_port.md R197 (decision D8): the core never writes Config: it changes only by CFGADDR, CFGCNT and reset;
and no event but RXBYTE reads it. -/
def Obligations.ConfigIsReadOnlyToTheCore : Prop :=
  (∀ (i : Instr) (s t : State), exec i s = .next t → t.config ≠ s.config →
    i = .reset ∨ (∃ a, i = .cfgAddr a) ∨ (∃ n, i = .cfgCnt n)) ∧
  (∀ (i : Instr) (s t : State) (a : BitVec 10) (n : Nat), exec i s = .next t → (∀ b, i ≠ .rxByte b) →
    (∀ c, i ≠ .cfgAddr c) → (∀ c, i ≠ .cfgCnt c) → i ≠ .reset →
    exec i { s with cfgStartAddress := a, cfgChannelCount := n } =
      .next { t with cfgStartAddress := a, cfgChannelCount := n })

/-! ### Reset -/

/-- 70_reset_and_hazards.md R230 (decision D3; log 11): RESET gives every state element the reset value of its own rule,
the frame buffer reads `FRAME_INIT`, the traces become empty; parameters and pending stimuli are not core state
(log 23). A completion that the bus engine owes from before the reset and raises next has no effect (R232, decision
D21; log 28). -/
def Obligations.ResetGivesEveryElementItsValue : Prop :=
  encode .reset = .stim16 0x0000#16 ∧
  ∀ s : State, execAll [.reset, .busDone] s = exec .reset s ∧
    ∃ t, exec .reset s = .next t ∧ (∀ i, t.frameByte i = s.params.initByte i) ∧
    t = { params := s.params, stimuli := s.stimuli, tickEnable := true, idleRunLength := 0, breakConfirmed := false,
          rxIntEnable := false, overrunPending := false, addressSkipCount := 0, receivedCount := 0, frame := t.frame,
          frameReady := false, rxActive := false, mpxPhase := .emitFirstLevel, outputChannelIndex := 1,
          mpxPeriod := .short, dacPhase := .idle, dacSample := 0, heartbeat := false, idleHistory := 0,
          cfgStartAddress := 0, cfgChannelCount := s.params.maxCh, busTrace := [], periodTrace := [],
          deserTrace := [] }

/-! ### Data formats as steps -/

/-- The model's choice for the rows LEVEL_CODE and SYNC_CODE (log 5): handing over a sample is `DacRequest` of it, so it
is latched by an idle driver and dropped by a busy one (30_encoding.md R81, R82; 44_dac_driver.md R170, R171). -/
def Obligations.HandedOverSampleIsRequested : Prop :=
  ∀ s : State,
    (s.dacPhase = .idle →
      (∀ v : Byte, exec (.levelCode v) s = .next { s with
        dacSample := BitVec.ofNat 10 (v.toNat * 2 + 512), dacPhase := .startRequested,
        busTrace := s.busTrace ++ [.start] }) ∧
      exec .syncCode s = .next { s with
        dacSample := 0, dacPhase := .startRequested, busTrace := s.busTrace ++ [.start] }) ∧
    (s.dacPhase ≠ .idle → (∀ v : Byte, exec (.levelCode v) s = .next s) ∧ exec .syncCode s = .next s)

/-- The model's choice for the rows DAC_ADDR_BYTE, DAC_HIGH_BYTE and DAC_LOW_BYTE (log 6): the byte goes on the bus and
the phase advances when it is the byte the driver sends next; in any other state nothing changes (30_encoding.md R85 to
R87, whose layouts are logs 17 and 18; 44_dac_driver.md R172 to R174). -/
def Obligations.BusByteIsSentWhenDue : Prop :=
  ∀ s : State,
    (∀ a : BitVec 7, exec (.dacAddrByte a) s = .next
      (if s.dacPhase = .startRequested ∧ a = s.params.dacAddr then
        { s with busTrace := s.busTrace ++ [.send (a ++ 0#1)], dacPhase := .addressSent } else s)) ∧
    (∀ h : BitVec 4, exec (.dacHighByte h) s = .next
      (if s.dacPhase = .addressSent ∧ highByte s.params.sampleShift s.dacSample = 0#4 ++ h then
        { s with busTrace := s.busTrace ++ [.send (0#4 ++ h)], dacPhase := .highNibbleSent } else s)) ∧
    (∀ l : Byte, exec (.dacLowByte l) s = .next
      (if s.dacPhase = .highNibbleSent ∧ lowByte s.params.sampleShift s.dacSample = l then
        { s with busTrace := s.busTrace ++ [.send l], dacPhase := .lowByteSent } else s))

/-- The format rows add no behaviour to the thirteen events (logs 5 and 6; 10_state.md R42): each does what a request or
a bus completion does in that state, or nothing. -/
def Obligations.FormatRowsAddNoBehaviour : Prop :=
  ∀ s : State,
    (∀ v, ∃ x, exec (.levelCode v) s = exec (.dacReq x) s) ∧ (∃ x, exec .syncCode s = exec (.dacReq x) s) ∧
    (∀ a, exec (.dacAddrByte a) s = exec .busDone s ∨ exec (.dacAddrByte a) s = .next s) ∧
    (∀ h, exec (.dacHighByte h) s = exec .busDone s ∨ exec (.dacHighByte h) s = .next s) ∧
    (∀ l, exec (.dacLowByte l) s = exec .busDone s ∨ exec (.dacLowByte l) s = .next s)

/-! ### The whole machine -/

/-- The invariants of 10_state.md R43 to R47 hold right after reset, for every legal parameter set (reset values:
decision D3, log 11) and for the reference set of `State.reset` (log 4). -/
def Obligations.ResetSatisfiesTheInvariants : Prop :=
  (∀ p : Params, p.ok = true → Inv (State.resetWith p)) ∧ Inv State.reset

/-- 10_state.md R21, R25, R26, R31, R37, R38, R43 to R47, 20_memory.md R60 and 30_encoding.md R84: every step keeps the
invariants, from every state that satisfies them. -/
def Obligations.EveryStepKeepsTheInvariants : Prop :=
  ∀ s t : State, Inv s → step s = .next t → Inv t

/-- 20_memory.md R62, 43_mpx_generator.md R150, 60_exceptions.md R209: from a state that satisfies the invariants every
event completes, but for the refusal of an out-of-range Config operand; no access is out of range. -/
def Obligations.InvariantStatesCompleteEveryEvent : Prop :=
  ∀ (i : Instr) (s : State), Inv s →
    (∃ t, exec i s = .next t) ∨
    (exec i s = .refused .configOutOfRange ∧ i.wellFormed s.params = false ∧
      ((∃ a, i = .cfgAddr a) ∨ ∃ n, i = .cfgCnt n))

/-- 10_state.md R21, R26, R31, R38: in a state that satisfies the invariants each register the model holds as a number
fits the width the spec gives it (log 10). -/
def Obligations.NumbersFitTheirRegisterWidths : Prop :=
  ∀ s : State, Inv s →
    s.idleRunLength < 2 ^ 5 ∧ s.receivedCount < 2 ^ s.params.receivedCountWidth ∧
    s.outputChannelIndex < 2 ^ s.params.channelIndexWidth ∧ s.cfgChannelCount < 2 ^ s.params.channelCountWidth

/-- A step runs the operation its next code word decodes to, on the state without that word; with no word it waits
(00_scope.md R8, 30_encoding.md R92; logs 1 and 2). Placing a table word makes the next step run it. -/
def Obligations.StepRunsTheDecodedInstruction : Prop :=
  (∀ (s : State) (c : CodeWord) (rest : List CodeWord) (i : Instr), s.params.ok = true → s.stimuli = c :: rest →
    decode c = .ok i → step s = exec i { s with stimuli := rest }) ∧
  (∀ s : State, s.params.ok = true → s.stimuli = [] → step s = .next s) ∧
  (∀ (s : State) (nbits w : Nat) (i : Instr), s.params.ok = true → decodeTableWord nbits w = some i →
    step (s.withFetchWord nbits w) = exec i s)

/-- 43_mpx_generator.md R161, 60_exceptions.md R209, 00_scope.md R10, R15: a parameter set outside its constraints is
refused at every step (log 9). -/
def Obligations.BadParametersAreRefused : Prop :=
  ∀ s : State,
    s.params.maxOut < 2 ∨ 512 < s.params.maxCh ∨
      s.params.frameInit.length ≠ max s.params.maxCh s.params.maxOut + 1 →
    step s = .refused .parametersOutOfRange

/-- 30_encoding.md R92 (decision D26): replaying a script of encoded operations, one step per word, is running the
operations in order. -/
def Obligations.ScriptReplayRunsTheOperations : Prop :=
  ∀ (is : List Instr) (s : State), s.params.ok = true → s.stimuli = is.map encode →
    Host.Core.run Sys2Proof.core is.length s = execAll is { s with stimuli := [] }

/-- 10_state.md R43 (marked derived there): from a one-hot acquisition state every event leads to a one-hot state, and
the only changes are Hunting to Receiving by a HIGH sample, Receiving to Complete by a byte or an overrun, and Complete
to Hunting by REARM; reset leads to Hunting. -/
def Obligations.AcquisitionCyclesThroughThreeModes : Prop :=
  ∀ (i : Instr) (s t : State) (m : AcqMode), s.acqMode = some m → exec i s = .next t →
    ∃ n, t.acqMode = some n ∧
      ((i = .reset ∧ n = .hunting) ∨ (i ≠ .reset ∧ n = m) ∨
       (m = .hunting ∧ n = .receiving ∧ i = .tick .high) ∨
       (m = .receiving ∧ n = .complete ∧ ((∃ b, i = .rxByte b) ∨ i = .rxErrOverrun)) ∨
       (m = .complete ∧ n = .hunting ∧ i = .rearm))

/-- 10_state.md R42: which agent writes which state, and no other writes exist; a bit that an agent may only set, or
only clear, changes in no other way. The traces of R41 grow with the agent that emits. -/
def Obligations.EachAgentWritesOnlyItsOwnState : Prop :=
  ∀ (i : Instr) (s t : State), exec i s = .next t →
    ((∃ l, i = .tick l) →
      t = { s with idleRunLength := t.idleRunLength, breakConfirmed := t.breakConfirmed, tickEnable := t.tickEnable,
                   rxIntEnable := t.rxIntEnable, overrunPending := t.overrunPending, deserTrace := t.deserTrace } ∧
      (t.tickEnable = true → s.tickEnable = true) ∧ (s.rxIntEnable = true → t.rxIntEnable = true) ∧
      (t.overrunPending = true → s.overrunPending = true)) ∧
    ((∃ b, i = .rxByte b) ∨ i = .rxErrOverrun ∨ i = .rxErrFraming ∨ i = .rxErrParity →
      t = { s with addressSkipCount := t.addressSkipCount, receivedCount := t.receivedCount, frame := t.frame,
                   frameReady := t.frameReady, rxIntEnable := t.rxIntEnable, rxActive := t.rxActive,
                   overrunPending := t.overrunPending } ∧
      (s.frameReady = true → t.frameReady = true) ∧ (t.rxIntEnable = true → s.rxIntEnable = true) ∧
      (s.overrunPending = true → t.overrunPending = true)) ∧
    (i = .rearm → t = s ∨
      t = { s with frameReady := false, receivedCount := 0, addressSkipCount := 0, idleRunLength := 0,
                   breakConfirmed := false, tickEnable := true }) ∧
    (i = .mpxTick →
      t = { s with mpxPhase := t.mpxPhase, outputChannelIndex := t.outputChannelIndex, mpxPeriod := t.mpxPeriod,
                   periodTrace := t.periodTrace, dacPhase := t.dacPhase, dacSample := t.dacSample,
                   busTrace := t.busTrace }) ∧
    ((∃ x, i = .dacReq x) ∨ i = .busDone →
      t = { s with dacPhase := t.dacPhase, dacSample := t.dacSample, busTrace := t.busTrace }) ∧
    ((∃ r, i = .supTick r) →
      t = { s with heartbeat := t.heartbeat, idleHistory := t.idleHistory, rxActive := t.rxActive } ∧
      (t.rxActive = true → s.rxActive = true)) ∧
    ((∃ a, i = .cfgAddr a) → t = { s with cfgStartAddress := t.cfgStartAddress }) ∧
    ((∃ n, i = .cfgCnt n) → t = { s with cfgChannelCount := t.cfgChannelCount })

/-- 20_memory.md R60, R65, R76: no event but RXBYTE and reset changes any byte of the frame buffer, and RXBYTE changes
no byte but the one at the index `received_count` it stores to. -/
def Obligations.OnlyAStoreChangesAFrameByte : Prop :=
  ∀ (i : Instr) (s t : State), exec i s = .next t → i ≠ .reset →
    ((∀ b, i ≠ .rxByte b) → ∀ j, t.frameByte j = s.frameByte j) ∧
    (∀ j, j ≠ s.receivedCount → t.frameByte j = s.frameByte j)

/-- 60_exceptions.md R201, R202 (decision D12): an event whose source is masked has no effect, but for an overrun, which
is latched. -/
def Obligations.MaskedEventsAreLost : Prop :=
  ∀ (i : Instr) (s : State), sourceEnabled i s = false →
    (i ≠ .rxErrOverrun → exec i s = .next s) ∧
    (i = .rxErrOverrun → exec i s = .next { s with overrunPending := true })

/-- 60_exceptions.md R203, R204 (decision D24): events of the acquisition side and of the output side can be taken in
either order, but for a received byte and a tick of the generator, which share the frame buffer (20_memory.md R68); a
supervisor period can be taken before or after any output event. The events of the output side include the five format
rows, whose steps are the model's choice (logs 5 and 6). -/
def Obligations.IndependentEventsCommute : Prop :=
  (∀ (i j : Instr) (s : State), acquires i = true → emits j = true → ((∃ b, i = .rxByte b) → j ≠ .mpxTick) →
    execAll [i, j] s = execAll [j, i] s) ∧
  (∀ (r : Bool) (j : Instr) (s : State), emits j = true →
    execAll [.supTick r, j] s = execAll [j, .supTick r] s)
end

