-- ==== Sys2Proof/Laws/Decode.lean ====
section
/-!
SUPPORT. The fields of encoded words: slicing a concatenation gives its parts back.
-/

namespace Sys2Proof

/-- The low part of a concatenation. -/
@[simp] theorem bits_append_low {m n : Nat} (a : BitVec m) (b : BitVec n) : bits (a ++ b) 0 n = b := by
  ext i hi
  simp [BitVec.getLsbD_append, hi]

/-- The high part of a concatenation. -/
@[simp] theorem bits_append_high {m n : Nat} (a : BitVec m) (b : BitVec n) : bits (a ++ b) n m = a := by
  ext i hi
  simp [BitVec.getLsbD_append, hi]

/-- A slice that lies inside the low part. -/
theorem bits_append_of_le {m n lo width : Nat} (a : BitVec m) (b : BitVec n) (h : lo + width ≤ n) :
    bits (a ++ b) lo width = bits b lo width := by
  ext i hi
  have h1 : lo + i < n := by omega
  simp [BitVec.getLsbD_append, h1]

/-- The `op` field of a stimulus word. -/
@[simp] theorem bits_stim_op (op : BitVec 4) (arg : BitVec 12) : bits (op ++ arg : BitVec 16) 12 4 = op :=
  bits_append_high op arg

/-- The whole `arg` field of a stimulus word. -/
@[simp] theorem bits_stim_arg (op : BitVec 4) (arg : BitVec 12) : bits (op ++ arg : BitVec 16) 0 12 = arg :=
  bits_append_low op arg

/-- A field inside `arg`. -/
theorem bits_stim_field (op : BitVec 4) (arg : BitVec 12) (lo width : Nat) (h : lo + width ≤ 12) :
    bits (op ++ arg : BitVec 16) lo width = bits arg lo width :=
  bits_append_of_le op arg h

@[simp] theorem whenZero_zero {n : Nat} (op : BitVec 4) (i : Instr) : whenZero op (0 : BitVec n) i = .ok i := by
  simp [whenZero]

@[simp] theorem flagOf_bitOf (b : Bool) : flagOf (bitOf b) = b := by cases b <;> rfl

@[simp] theorem ofBit_toBit (l : LineLevel) : LineLevel.ofBit l.toBit = l := by cases l <;> rfl

/-- A checked operation decodes only where its must-be-zero bits are zero. -/
theorem whenZero_ok {n : Nat} {op : BitVec 4} {v : BitVec n} {i j : Instr} (h : whenZero op v i = .ok j) :
    v = 0 ∧ j = i := by
  unfold whenZero at h
  split at h
  · exact ⟨‹_›, (Except.ok.inj h).symm⟩
  · cases h

/-- A mask over the high bits of a number reads only those. -/
theorem land_fixed (c x mk k : Nat) (h : x < 2 ^ k) : (2 ^ k * c + x) &&& (2 ^ k * mk) = 2 ^ k * (c &&& mk) := by
  apply Nat.eq_of_testBit_eq
  intro i
  rw [Nat.testBit_and, Nat.testBit_two_pow_mul_add c h, Nat.testBit_two_pow_mul, Nat.testBit_two_pow_mul,
    Nat.testBit_and]
  by_cases hi : i < k
  · simp [hi, Nat.not_le.mpr hi]
  · simp [hi, Nat.le_of_not_lt hi]

/-- A concatenation as a number. -/
theorem toNat_append_add {m n : Nat} (a : BitVec m) (b : BitVec n) : (a ++ b).toNat = 2 ^ n * a.toNat + b.toNat := by
  rw [BitVec.toNat_append, ← Nat.shiftLeft_add_eq_or_of_lt b.isLt, Nat.shiftLeft_eq, Nat.mul_comm]

/-- A stimulus word with a ten-bit operand matches exactly on its six high bits. -/
theorem stim10_masked (op : BitVec 4) (x : BitVec 10) :
    (stimWord op (0#2 ++ x)).toNat &&& 0xFC00 = 2 ^ 12 * op.toNat := by
  have h : (stimWord op (0#2 ++ x)).toNat = 2 ^ 10 * (4 * op.toNat) + x.toNat := by
    simp only [stimWord, CodeWord.toNat]
    rw [toNat_append_add op (0#2 ++ x : BitVec 12), toNat_append_add 0#2 x, BitVec.toNat_ofNat]
    omega
  have ho : 4 * op.toNat &&& 63 = 4 * op.toNat := by
    have := op.isLt
    rw [show (63 : Nat) = 2 ^ 6 - 1 from rfl, Nat.and_two_pow_sub_one_eq_mod, Nat.mod_eq_of_lt (by omega)]
  rw [h, show (0xFC00 : Nat) = 2 ^ 10 * 63 from rfl, land_fixed _ _ _ _ x.isLt, ho]
  omega

end Sys2Proof
end

