-- ==== Sys2Proof/Laws/State.lean ====
section
/-!
SUPPORT. One lemma per field for each named update of the state, so that a proof never unfolds a record update.
The lemmas of the unconditional updates hold by rfl; those of the conditional ones give the fields they never write.
-/

namespace Sys2Proof.Machine

/-! ### `emitBus` -/

@[simp] theorem emitBus_params (c : BusCommand) (s : State) : (emitBus c s).params = s.params := rfl
@[simp] theorem emitBus_stimuli (c : BusCommand) (s : State) : (emitBus c s).stimuli = s.stimuli := rfl
@[simp] theorem emitBus_tickEnable (c : BusCommand) (s : State) : (emitBus c s).tickEnable = s.tickEnable := rfl
@[simp] theorem emitBus_idleRunLength (c : BusCommand) (s : State) : (emitBus c s).idleRunLength = s.idleRunLength := rfl
@[simp] theorem emitBus_breakConfirmed (c : BusCommand) (s : State) : (emitBus c s).breakConfirmed = s.breakConfirmed := rfl
@[simp] theorem emitBus_rxIntEnable (c : BusCommand) (s : State) : (emitBus c s).rxIntEnable = s.rxIntEnable := rfl
@[simp] theorem emitBus_overrunPending (c : BusCommand) (s : State) : (emitBus c s).overrunPending = s.overrunPending := rfl
@[simp] theorem emitBus_addressSkipCount (c : BusCommand) (s : State) : (emitBus c s).addressSkipCount = s.addressSkipCount := rfl
@[simp] theorem emitBus_receivedCount (c : BusCommand) (s : State) : (emitBus c s).receivedCount = s.receivedCount := rfl
@[simp] theorem emitBus_frame (c : BusCommand) (s : State) : (emitBus c s).frame = s.frame := rfl
@[simp] theorem emitBus_frameReady (c : BusCommand) (s : State) : (emitBus c s).frameReady = s.frameReady := rfl
@[simp] theorem emitBus_rxActive (c : BusCommand) (s : State) : (emitBus c s).rxActive = s.rxActive := rfl
@[simp] theorem emitBus_mpxPhase (c : BusCommand) (s : State) : (emitBus c s).mpxPhase = s.mpxPhase := rfl
@[simp] theorem emitBus_outputChannelIndex (c : BusCommand) (s : State) : (emitBus c s).outputChannelIndex = s.outputChannelIndex := rfl
@[simp] theorem emitBus_mpxPeriod (c : BusCommand) (s : State) : (emitBus c s).mpxPeriod = s.mpxPeriod := rfl
@[simp] theorem emitBus_dacPhase (c : BusCommand) (s : State) : (emitBus c s).dacPhase = s.dacPhase := rfl
@[simp] theorem emitBus_dacSample (c : BusCommand) (s : State) : (emitBus c s).dacSample = s.dacSample := rfl
@[simp] theorem emitBus_heartbeat (c : BusCommand) (s : State) : (emitBus c s).heartbeat = s.heartbeat := rfl
@[simp] theorem emitBus_idleHistory (c : BusCommand) (s : State) : (emitBus c s).idleHistory = s.idleHistory := rfl
@[simp] theorem emitBus_cfgStartAddress (c : BusCommand) (s : State) : (emitBus c s).cfgStartAddress = s.cfgStartAddress := rfl
@[simp] theorem emitBus_cfgChannelCount (c : BusCommand) (s : State) : (emitBus c s).cfgChannelCount = s.cfgChannelCount := rfl
@[simp] theorem emitBus_busTrace (c : BusCommand) (s : State) : (emitBus c s).busTrace = s.busTrace ++ [c] := rfl
@[simp] theorem emitBus_periodTrace (c : BusCommand) (s : State) : (emitBus c s).periodTrace = s.periodTrace := rfl
@[simp] theorem emitBus_deserTrace (c : BusCommand) (s : State) : (emitBus c s).deserTrace = s.deserTrace := rfl

/-! ### `programPeriod` -/

@[simp] theorem programPeriod_params (p : Period) (s : State) : (programPeriod p s).params = s.params := rfl
@[simp] theorem programPeriod_stimuli (p : Period) (s : State) : (programPeriod p s).stimuli = s.stimuli := rfl
@[simp] theorem programPeriod_tickEnable (p : Period) (s : State) : (programPeriod p s).tickEnable = s.tickEnable := rfl
@[simp] theorem programPeriod_idleRunLength (p : Period) (s : State) : (programPeriod p s).idleRunLength = s.idleRunLength := rfl
@[simp] theorem programPeriod_breakConfirmed (p : Period) (s : State) : (programPeriod p s).breakConfirmed = s.breakConfirmed := rfl
@[simp] theorem programPeriod_rxIntEnable (p : Period) (s : State) : (programPeriod p s).rxIntEnable = s.rxIntEnable := rfl
@[simp] theorem programPeriod_overrunPending (p : Period) (s : State) : (programPeriod p s).overrunPending = s.overrunPending := rfl
@[simp] theorem programPeriod_addressSkipCount (p : Period) (s : State) : (programPeriod p s).addressSkipCount = s.addressSkipCount := rfl
@[simp] theorem programPeriod_receivedCount (p : Period) (s : State) : (programPeriod p s).receivedCount = s.receivedCount := rfl
@[simp] theorem programPeriod_frame (p : Period) (s : State) : (programPeriod p s).frame = s.frame := rfl
@[simp] theorem programPeriod_frameReady (p : Period) (s : State) : (programPeriod p s).frameReady = s.frameReady := rfl
@[simp] theorem programPeriod_rxActive (p : Period) (s : State) : (programPeriod p s).rxActive = s.rxActive := rfl
@[simp] theorem programPeriod_mpxPhase (p : Period) (s : State) : (programPeriod p s).mpxPhase = s.mpxPhase := rfl
@[simp] theorem programPeriod_outputChannelIndex (p : Period) (s : State) : (programPeriod p s).outputChannelIndex = s.outputChannelIndex := rfl
@[simp] theorem programPeriod_mpxPeriod (p : Period) (s : State) : (programPeriod p s).mpxPeriod = p := rfl
@[simp] theorem programPeriod_dacPhase (p : Period) (s : State) : (programPeriod p s).dacPhase = s.dacPhase := rfl
@[simp] theorem programPeriod_dacSample (p : Period) (s : State) : (programPeriod p s).dacSample = s.dacSample := rfl
@[simp] theorem programPeriod_heartbeat (p : Period) (s : State) : (programPeriod p s).heartbeat = s.heartbeat := rfl
@[simp] theorem programPeriod_idleHistory (p : Period) (s : State) : (programPeriod p s).idleHistory = s.idleHistory := rfl
@[simp] theorem programPeriod_cfgStartAddress (p : Period) (s : State) : (programPeriod p s).cfgStartAddress = s.cfgStartAddress := rfl
@[simp] theorem programPeriod_cfgChannelCount (p : Period) (s : State) : (programPeriod p s).cfgChannelCount = s.cfgChannelCount := rfl
@[simp] theorem programPeriod_busTrace (p : Period) (s : State) : (programPeriod p s).busTrace = s.busTrace := rfl
@[simp] theorem programPeriod_periodTrace (p : Period) (s : State) : (programPeriod p s).periodTrace = s.periodTrace ++ [p] := rfl
@[simp] theorem programPeriod_deserTrace (p : Period) (s : State) : (programPeriod p s).deserTrace = s.deserTrace := rfl

/-! ### `emitOvrClear` -/

@[simp] theorem emitOvrClear_params (s : State) : (emitOvrClear s).params = s.params := rfl
@[simp] theorem emitOvrClear_stimuli (s : State) : (emitOvrClear s).stimuli = s.stimuli := rfl
@[simp] theorem emitOvrClear_tickEnable (s : State) : (emitOvrClear s).tickEnable = s.tickEnable := rfl
@[simp] theorem emitOvrClear_idleRunLength (s : State) : (emitOvrClear s).idleRunLength = s.idleRunLength := rfl
@[simp] theorem emitOvrClear_breakConfirmed (s : State) : (emitOvrClear s).breakConfirmed = s.breakConfirmed := rfl
@[simp] theorem emitOvrClear_rxIntEnable (s : State) : (emitOvrClear s).rxIntEnable = s.rxIntEnable := rfl
@[simp] theorem emitOvrClear_overrunPending (s : State) : (emitOvrClear s).overrunPending = s.overrunPending := rfl
@[simp] theorem emitOvrClear_addressSkipCount (s : State) : (emitOvrClear s).addressSkipCount = s.addressSkipCount := rfl
@[simp] theorem emitOvrClear_receivedCount (s : State) : (emitOvrClear s).receivedCount = s.receivedCount := rfl
@[simp] theorem emitOvrClear_frame (s : State) : (emitOvrClear s).frame = s.frame := rfl
@[simp] theorem emitOvrClear_frameReady (s : State) : (emitOvrClear s).frameReady = s.frameReady := rfl
@[simp] theorem emitOvrClear_rxActive (s : State) : (emitOvrClear s).rxActive = s.rxActive := rfl
@[simp] theorem emitOvrClear_mpxPhase (s : State) : (emitOvrClear s).mpxPhase = s.mpxPhase := rfl
@[simp] theorem emitOvrClear_outputChannelIndex (s : State) : (emitOvrClear s).outputChannelIndex = s.outputChannelIndex := rfl
@[simp] theorem emitOvrClear_mpxPeriod (s : State) : (emitOvrClear s).mpxPeriod = s.mpxPeriod := rfl
@[simp] theorem emitOvrClear_dacPhase (s : State) : (emitOvrClear s).dacPhase = s.dacPhase := rfl
@[simp] theorem emitOvrClear_dacSample (s : State) : (emitOvrClear s).dacSample = s.dacSample := rfl
@[simp] theorem emitOvrClear_heartbeat (s : State) : (emitOvrClear s).heartbeat = s.heartbeat := rfl
@[simp] theorem emitOvrClear_idleHistory (s : State) : (emitOvrClear s).idleHistory = s.idleHistory := rfl
@[simp] theorem emitOvrClear_cfgStartAddress (s : State) : (emitOvrClear s).cfgStartAddress = s.cfgStartAddress := rfl
@[simp] theorem emitOvrClear_cfgChannelCount (s : State) : (emitOvrClear s).cfgChannelCount = s.cfgChannelCount := rfl
@[simp] theorem emitOvrClear_busTrace (s : State) : (emitOvrClear s).busTrace = s.busTrace := rfl
@[simp] theorem emitOvrClear_periodTrace (s : State) : (emitOvrClear s).periodTrace = s.periodTrace := rfl
@[simp] theorem emitOvrClear_deserTrace (s : State) : (emitOvrClear s).deserTrace = s.deserTrace ++ [.ovrClear] := rfl

/-! ### `enterDacPhase` -/

@[simp] theorem enterDacPhase_params (d : DacPhase) (s : State) : (enterDacPhase d s).params = s.params := rfl
@[simp] theorem enterDacPhase_stimuli (d : DacPhase) (s : State) : (enterDacPhase d s).stimuli = s.stimuli := rfl
@[simp] theorem enterDacPhase_tickEnable (d : DacPhase) (s : State) : (enterDacPhase d s).tickEnable = s.tickEnable := rfl
@[simp] theorem enterDacPhase_idleRunLength (d : DacPhase) (s : State) : (enterDacPhase d s).idleRunLength = s.idleRunLength := rfl
@[simp] theorem enterDacPhase_breakConfirmed (d : DacPhase) (s : State) : (enterDacPhase d s).breakConfirmed = s.breakConfirmed := rfl
@[simp] theorem enterDacPhase_rxIntEnable (d : DacPhase) (s : State) : (enterDacPhase d s).rxIntEnable = s.rxIntEnable := rfl
@[simp] theorem enterDacPhase_overrunPending (d : DacPhase) (s : State) : (enterDacPhase d s).overrunPending = s.overrunPending := rfl
@[simp] theorem enterDacPhase_addressSkipCount (d : DacPhase) (s : State) : (enterDacPhase d s).addressSkipCount = s.addressSkipCount := rfl
@[simp] theorem enterDacPhase_receivedCount (d : DacPhase) (s : State) : (enterDacPhase d s).receivedCount = s.receivedCount := rfl
@[simp] theorem enterDacPhase_frame (d : DacPhase) (s : State) : (enterDacPhase d s).frame = s.frame := rfl
@[simp] theorem enterDacPhase_frameReady (d : DacPhase) (s : State) : (enterDacPhase d s).frameReady = s.frameReady := rfl
@[simp] theorem enterDacPhase_rxActive (d : DacPhase) (s : State) : (enterDacPhase d s).rxActive = s.rxActive := rfl
@[simp] theorem enterDacPhase_mpxPhase (d : DacPhase) (s : State) : (enterDacPhase d s).mpxPhase = s.mpxPhase := rfl
@[simp] theorem enterDacPhase_outputChannelIndex (d : DacPhase) (s : State) : (enterDacPhase d s).outputChannelIndex = s.outputChannelIndex := rfl
@[simp] theorem enterDacPhase_mpxPeriod (d : DacPhase) (s : State) : (enterDacPhase d s).mpxPeriod = s.mpxPeriod := rfl
@[simp] theorem enterDacPhase_dacPhase (d : DacPhase) (s : State) : (enterDacPhase d s).dacPhase = d := rfl
@[simp] theorem enterDacPhase_dacSample (d : DacPhase) (s : State) : (enterDacPhase d s).dacSample = s.dacSample := rfl
@[simp] theorem enterDacPhase_heartbeat (d : DacPhase) (s : State) : (enterDacPhase d s).heartbeat = s.heartbeat := rfl
@[simp] theorem enterDacPhase_idleHistory (d : DacPhase) (s : State) : (enterDacPhase d s).idleHistory = s.idleHistory := rfl
@[simp] theorem enterDacPhase_cfgStartAddress (d : DacPhase) (s : State) : (enterDacPhase d s).cfgStartAddress = s.cfgStartAddress := rfl
@[simp] theorem enterDacPhase_cfgChannelCount (d : DacPhase) (s : State) : (enterDacPhase d s).cfgChannelCount = s.cfgChannelCount := rfl
@[simp] theorem enterDacPhase_busTrace (d : DacPhase) (s : State) : (enterDacPhase d s).busTrace = s.busTrace := rfl
@[simp] theorem enterDacPhase_periodTrace (d : DacPhase) (s : State) : (enterDacPhase d s).periodTrace = s.periodTrace := rfl
@[simp] theorem enterDacPhase_deserTrace (d : DacPhase) (s : State) : (enterDacPhase d s).deserTrace = s.deserTrace := rfl

/-! ### `latchSample` -/

@[simp] theorem latchSample_params (x : Sample) (s : State) : (latchSample x s).params = s.params := rfl
@[simp] theorem latchSample_stimuli (x : Sample) (s : State) : (latchSample x s).stimuli = s.stimuli := rfl
@[simp] theorem latchSample_tickEnable (x : Sample) (s : State) : (latchSample x s).tickEnable = s.tickEnable := rfl
@[simp] theorem latchSample_idleRunLength (x : Sample) (s : State) : (latchSample x s).idleRunLength = s.idleRunLength := rfl
@[simp] theorem latchSample_breakConfirmed (x : Sample) (s : State) : (latchSample x s).breakConfirmed = s.breakConfirmed := rfl
@[simp] theorem latchSample_rxIntEnable (x : Sample) (s : State) : (latchSample x s).rxIntEnable = s.rxIntEnable := rfl
@[simp] theorem latchSample_overrunPending (x : Sample) (s : State) : (latchSample x s).overrunPending = s.overrunPending := rfl
@[simp] theorem latchSample_addressSkipCount (x : Sample) (s : State) : (latchSample x s).addressSkipCount = s.addressSkipCount := rfl
@[simp] theorem latchSample_receivedCount (x : Sample) (s : State) : (latchSample x s).receivedCount = s.receivedCount := rfl
@[simp] theorem latchSample_frame (x : Sample) (s : State) : (latchSample x s).frame = s.frame := rfl
@[simp] theorem latchSample_frameReady (x : Sample) (s : State) : (latchSample x s).frameReady = s.frameReady := rfl
@[simp] theorem latchSample_rxActive (x : Sample) (s : State) : (latchSample x s).rxActive = s.rxActive := rfl
@[simp] theorem latchSample_mpxPhase (x : Sample) (s : State) : (latchSample x s).mpxPhase = s.mpxPhase := rfl
@[simp] theorem latchSample_outputChannelIndex (x : Sample) (s : State) : (latchSample x s).outputChannelIndex = s.outputChannelIndex := rfl
@[simp] theorem latchSample_mpxPeriod (x : Sample) (s : State) : (latchSample x s).mpxPeriod = s.mpxPeriod := rfl
@[simp] theorem latchSample_dacPhase (x : Sample) (s : State) : (latchSample x s).dacPhase = s.dacPhase := rfl
@[simp] theorem latchSample_dacSample (x : Sample) (s : State) : (latchSample x s).dacSample = x := rfl
@[simp] theorem latchSample_heartbeat (x : Sample) (s : State) : (latchSample x s).heartbeat = s.heartbeat := rfl
@[simp] theorem latchSample_idleHistory (x : Sample) (s : State) : (latchSample x s).idleHistory = s.idleHistory := rfl
@[simp] theorem latchSample_cfgStartAddress (x : Sample) (s : State) : (latchSample x s).cfgStartAddress = s.cfgStartAddress := rfl
@[simp] theorem latchSample_cfgChannelCount (x : Sample) (s : State) : (latchSample x s).cfgChannelCount = s.cfgChannelCount := rfl
@[simp] theorem latchSample_busTrace (x : Sample) (s : State) : (latchSample x s).busTrace = s.busTrace := rfl
@[simp] theorem latchSample_periodTrace (x : Sample) (s : State) : (latchSample x s).periodTrace = s.periodTrace := rfl
@[simp] theorem latchSample_deserTrace (x : Sample) (s : State) : (latchSample x s).deserTrace = s.deserTrace := rfl

/-! ### `finishFrame` -/

@[simp] theorem finishFrame_params (s : State) : (finishFrame s).params = s.params := rfl
@[simp] theorem finishFrame_stimuli (s : State) : (finishFrame s).stimuli = s.stimuli := rfl
@[simp] theorem finishFrame_tickEnable (s : State) : (finishFrame s).tickEnable = s.tickEnable := rfl
@[simp] theorem finishFrame_idleRunLength (s : State) : (finishFrame s).idleRunLength = s.idleRunLength := rfl
@[simp] theorem finishFrame_breakConfirmed (s : State) : (finishFrame s).breakConfirmed = s.breakConfirmed := rfl
@[simp] theorem finishFrame_rxIntEnable (s : State) : (finishFrame s).rxIntEnable = false := rfl
@[simp] theorem finishFrame_overrunPending (s : State) : (finishFrame s).overrunPending = s.overrunPending := rfl
@[simp] theorem finishFrame_addressSkipCount (s : State) : (finishFrame s).addressSkipCount = s.addressSkipCount := rfl
@[simp] theorem finishFrame_receivedCount (s : State) : (finishFrame s).receivedCount = s.receivedCount := rfl
@[simp] theorem finishFrame_frame (s : State) : (finishFrame s).frame = s.frame := rfl
@[simp] theorem finishFrame_frameReady (s : State) : (finishFrame s).frameReady = true := rfl
@[simp] theorem finishFrame_rxActive (s : State) : (finishFrame s).rxActive = s.rxActive := rfl
@[simp] theorem finishFrame_mpxPhase (s : State) : (finishFrame s).mpxPhase = s.mpxPhase := rfl
@[simp] theorem finishFrame_outputChannelIndex (s : State) : (finishFrame s).outputChannelIndex = s.outputChannelIndex := rfl
@[simp] theorem finishFrame_mpxPeriod (s : State) : (finishFrame s).mpxPeriod = s.mpxPeriod := rfl
@[simp] theorem finishFrame_dacPhase (s : State) : (finishFrame s).dacPhase = s.dacPhase := rfl
@[simp] theorem finishFrame_dacSample (s : State) : (finishFrame s).dacSample = s.dacSample := rfl
@[simp] theorem finishFrame_heartbeat (s : State) : (finishFrame s).heartbeat = s.heartbeat := rfl
@[simp] theorem finishFrame_idleHistory (s : State) : (finishFrame s).idleHistory = s.idleHistory := rfl
@[simp] theorem finishFrame_cfgStartAddress (s : State) : (finishFrame s).cfgStartAddress = s.cfgStartAddress := rfl
@[simp] theorem finishFrame_cfgChannelCount (s : State) : (finishFrame s).cfgChannelCount = s.cfgChannelCount := rfl
@[simp] theorem finishFrame_busTrace (s : State) : (finishFrame s).busTrace = s.busTrace := rfl
@[simp] theorem finishFrame_periodTrace (s : State) : (finishFrame s).periodTrace = s.periodTrace := rfl
@[simp] theorem finishFrame_deserTrace (s : State) : (finishFrame s).deserTrace = s.deserTrace := rfl

/-! ### `enterMpxPhase` -/

@[simp] theorem enterMpxPhase_params (ph : MpxPhase) (s : State) : (enterMpxPhase ph s).params = s.params := rfl
@[simp] theorem enterMpxPhase_stimuli (ph : MpxPhase) (s : State) : (enterMpxPhase ph s).stimuli = s.stimuli := rfl
@[simp] theorem enterMpxPhase_tickEnable (ph : MpxPhase) (s : State) : (enterMpxPhase ph s).tickEnable = s.tickEnable := rfl
@[simp] theorem enterMpxPhase_idleRunLength (ph : MpxPhase) (s : State) : (enterMpxPhase ph s).idleRunLength = s.idleRunLength := rfl
@[simp] theorem enterMpxPhase_breakConfirmed (ph : MpxPhase) (s : State) : (enterMpxPhase ph s).breakConfirmed = s.breakConfirmed := rfl
@[simp] theorem enterMpxPhase_rxIntEnable (ph : MpxPhase) (s : State) : (enterMpxPhase ph s).rxIntEnable = s.rxIntEnable := rfl
@[simp] theorem enterMpxPhase_overrunPending (ph : MpxPhase) (s : State) : (enterMpxPhase ph s).overrunPending = s.overrunPending := rfl
@[simp] theorem enterMpxPhase_addressSkipCount (ph : MpxPhase) (s : State) : (enterMpxPhase ph s).addressSkipCount = s.addressSkipCount := rfl
@[simp] theorem enterMpxPhase_receivedCount (ph : MpxPhase) (s : State) : (enterMpxPhase ph s).receivedCount = s.receivedCount := rfl
@[simp] theorem enterMpxPhase_frame (ph : MpxPhase) (s : State) : (enterMpxPhase ph s).frame = s.frame := rfl
@[simp] theorem enterMpxPhase_frameReady (ph : MpxPhase) (s : State) : (enterMpxPhase ph s).frameReady = s.frameReady := rfl
@[simp] theorem enterMpxPhase_rxActive (ph : MpxPhase) (s : State) : (enterMpxPhase ph s).rxActive = s.rxActive := rfl
@[simp] theorem enterMpxPhase_mpxPhase (ph : MpxPhase) (s : State) : (enterMpxPhase ph s).mpxPhase = ph := rfl
@[simp] theorem enterMpxPhase_outputChannelIndex (ph : MpxPhase) (s : State) : (enterMpxPhase ph s).outputChannelIndex = s.outputChannelIndex := rfl
@[simp] theorem enterMpxPhase_mpxPeriod (ph : MpxPhase) (s : State) : (enterMpxPhase ph s).mpxPeriod = s.mpxPeriod := rfl
@[simp] theorem enterMpxPhase_dacPhase (ph : MpxPhase) (s : State) : (enterMpxPhase ph s).dacPhase = s.dacPhase := rfl
@[simp] theorem enterMpxPhase_dacSample (ph : MpxPhase) (s : State) : (enterMpxPhase ph s).dacSample = s.dacSample := rfl
@[simp] theorem enterMpxPhase_heartbeat (ph : MpxPhase) (s : State) : (enterMpxPhase ph s).heartbeat = s.heartbeat := rfl
@[simp] theorem enterMpxPhase_idleHistory (ph : MpxPhase) (s : State) : (enterMpxPhase ph s).idleHistory = s.idleHistory := rfl
@[simp] theorem enterMpxPhase_cfgStartAddress (ph : MpxPhase) (s : State) : (enterMpxPhase ph s).cfgStartAddress = s.cfgStartAddress := rfl
@[simp] theorem enterMpxPhase_cfgChannelCount (ph : MpxPhase) (s : State) : (enterMpxPhase ph s).cfgChannelCount = s.cfgChannelCount := rfl
@[simp] theorem enterMpxPhase_busTrace (ph : MpxPhase) (s : State) : (enterMpxPhase ph s).busTrace = s.busTrace := rfl
@[simp] theorem enterMpxPhase_periodTrace (ph : MpxPhase) (s : State) : (enterMpxPhase ph s).periodTrace = s.periodTrace := rfl
@[simp] theorem enterMpxPhase_deserTrace (ph : MpxPhase) (s : State) : (enterMpxPhase ph s).deserTrace = s.deserTrace := rfl

/-! ### `selectChannel` -/

@[simp] theorem selectChannel_params (i : Nat) (s : State) : (selectChannel i s).params = s.params := rfl
@[simp] theorem selectChannel_stimuli (i : Nat) (s : State) : (selectChannel i s).stimuli = s.stimuli := rfl
@[simp] theorem selectChannel_tickEnable (i : Nat) (s : State) : (selectChannel i s).tickEnable = s.tickEnable := rfl
@[simp] theorem selectChannel_idleRunLength (i : Nat) (s : State) : (selectChannel i s).idleRunLength = s.idleRunLength := rfl
@[simp] theorem selectChannel_breakConfirmed (i : Nat) (s : State) : (selectChannel i s).breakConfirmed = s.breakConfirmed := rfl
@[simp] theorem selectChannel_rxIntEnable (i : Nat) (s : State) : (selectChannel i s).rxIntEnable = s.rxIntEnable := rfl
@[simp] theorem selectChannel_overrunPending (i : Nat) (s : State) : (selectChannel i s).overrunPending = s.overrunPending := rfl
@[simp] theorem selectChannel_addressSkipCount (i : Nat) (s : State) : (selectChannel i s).addressSkipCount = s.addressSkipCount := rfl
@[simp] theorem selectChannel_receivedCount (i : Nat) (s : State) : (selectChannel i s).receivedCount = s.receivedCount := rfl
@[simp] theorem selectChannel_frame (i : Nat) (s : State) : (selectChannel i s).frame = s.frame := rfl
@[simp] theorem selectChannel_frameReady (i : Nat) (s : State) : (selectChannel i s).frameReady = s.frameReady := rfl
@[simp] theorem selectChannel_rxActive (i : Nat) (s : State) : (selectChannel i s).rxActive = s.rxActive := rfl
@[simp] theorem selectChannel_mpxPhase (i : Nat) (s : State) : (selectChannel i s).mpxPhase = s.mpxPhase := rfl
@[simp] theorem selectChannel_outputChannelIndex (i : Nat) (s : State) : (selectChannel i s).outputChannelIndex = i := rfl
@[simp] theorem selectChannel_mpxPeriod (i : Nat) (s : State) : (selectChannel i s).mpxPeriod = s.mpxPeriod := rfl
@[simp] theorem selectChannel_dacPhase (i : Nat) (s : State) : (selectChannel i s).dacPhase = s.dacPhase := rfl
@[simp] theorem selectChannel_dacSample (i : Nat) (s : State) : (selectChannel i s).dacSample = s.dacSample := rfl
@[simp] theorem selectChannel_heartbeat (i : Nat) (s : State) : (selectChannel i s).heartbeat = s.heartbeat := rfl
@[simp] theorem selectChannel_idleHistory (i : Nat) (s : State) : (selectChannel i s).idleHistory = s.idleHistory := rfl
@[simp] theorem selectChannel_cfgStartAddress (i : Nat) (s : State) : (selectChannel i s).cfgStartAddress = s.cfgStartAddress := rfl
@[simp] theorem selectChannel_cfgChannelCount (i : Nat) (s : State) : (selectChannel i s).cfgChannelCount = s.cfgChannelCount := rfl
@[simp] theorem selectChannel_busTrace (i : Nat) (s : State) : (selectChannel i s).busTrace = s.busTrace := rfl
@[simp] theorem selectChannel_periodTrace (i : Nat) (s : State) : (selectChannel i s).periodTrace = s.periodTrace := rfl
@[simp] theorem selectChannel_deserTrace (i : Nat) (s : State) : (selectChannel i s).deserTrace = s.deserTrace := rfl

/-! ### `withStimuli` -/

@[simp] theorem withStimuli_params (rest : List CodeWord) (s : State) : (withStimuli rest s).params = s.params := rfl
@[simp] theorem withStimuli_stimuli (rest : List CodeWord) (s : State) : (withStimuli rest s).stimuli = rest := rfl
@[simp] theorem withStimuli_tickEnable (rest : List CodeWord) (s : State) : (withStimuli rest s).tickEnable = s.tickEnable := rfl
@[simp] theorem withStimuli_idleRunLength (rest : List CodeWord) (s : State) : (withStimuli rest s).idleRunLength = s.idleRunLength := rfl
@[simp] theorem withStimuli_breakConfirmed (rest : List CodeWord) (s : State) : (withStimuli rest s).breakConfirmed = s.breakConfirmed := rfl
@[simp] theorem withStimuli_rxIntEnable (rest : List CodeWord) (s : State) : (withStimuli rest s).rxIntEnable = s.rxIntEnable := rfl
@[simp] theorem withStimuli_overrunPending (rest : List CodeWord) (s : State) : (withStimuli rest s).overrunPending = s.overrunPending := rfl
@[simp] theorem withStimuli_addressSkipCount (rest : List CodeWord) (s : State) : (withStimuli rest s).addressSkipCount = s.addressSkipCount := rfl
@[simp] theorem withStimuli_receivedCount (rest : List CodeWord) (s : State) : (withStimuli rest s).receivedCount = s.receivedCount := rfl
@[simp] theorem withStimuli_frame (rest : List CodeWord) (s : State) : (withStimuli rest s).frame = s.frame := rfl
@[simp] theorem withStimuli_frameReady (rest : List CodeWord) (s : State) : (withStimuli rest s).frameReady = s.frameReady := rfl
@[simp] theorem withStimuli_rxActive (rest : List CodeWord) (s : State) : (withStimuli rest s).rxActive = s.rxActive := rfl
@[simp] theorem withStimuli_mpxPhase (rest : List CodeWord) (s : State) : (withStimuli rest s).mpxPhase = s.mpxPhase := rfl
@[simp] theorem withStimuli_outputChannelIndex (rest : List CodeWord) (s : State) : (withStimuli rest s).outputChannelIndex = s.outputChannelIndex := rfl
@[simp] theorem withStimuli_mpxPeriod (rest : List CodeWord) (s : State) : (withStimuli rest s).mpxPeriod = s.mpxPeriod := rfl
@[simp] theorem withStimuli_dacPhase (rest : List CodeWord) (s : State) : (withStimuli rest s).dacPhase = s.dacPhase := rfl
@[simp] theorem withStimuli_dacSample (rest : List CodeWord) (s : State) : (withStimuli rest s).dacSample = s.dacSample := rfl
@[simp] theorem withStimuli_heartbeat (rest : List CodeWord) (s : State) : (withStimuli rest s).heartbeat = s.heartbeat := rfl
@[simp] theorem withStimuli_idleHistory (rest : List CodeWord) (s : State) : (withStimuli rest s).idleHistory = s.idleHistory := rfl
@[simp] theorem withStimuli_cfgStartAddress (rest : List CodeWord) (s : State) : (withStimuli rest s).cfgStartAddress = s.cfgStartAddress := rfl
@[simp] theorem withStimuli_cfgChannelCount (rest : List CodeWord) (s : State) : (withStimuli rest s).cfgChannelCount = s.cfgChannelCount := rfl
@[simp] theorem withStimuli_busTrace (rest : List CodeWord) (s : State) : (withStimuli rest s).busTrace = s.busTrace := rfl
@[simp] theorem withStimuli_periodTrace (rest : List CodeWord) (s : State) : (withStimuli rest s).periodTrace = s.periodTrace := rfl
@[simp] theorem withStimuli_deserTrace (rest : List CodeWord) (s : State) : (withStimuli rest s).deserTrace = s.deserTrace := rfl

/-! ### `sendAddressByte` -/

@[simp] theorem sendAddressByte_params (s : State) : (sendAddressByte s).params = s.params := rfl
@[simp] theorem sendAddressByte_stimuli (s : State) : (sendAddressByte s).stimuli = s.stimuli := rfl
@[simp] theorem sendAddressByte_tickEnable (s : State) : (sendAddressByte s).tickEnable = s.tickEnable := rfl
@[simp] theorem sendAddressByte_idleRunLength (s : State) : (sendAddressByte s).idleRunLength = s.idleRunLength := rfl
@[simp] theorem sendAddressByte_breakConfirmed (s : State) : (sendAddressByte s).breakConfirmed = s.breakConfirmed := rfl
@[simp] theorem sendAddressByte_rxIntEnable (s : State) : (sendAddressByte s).rxIntEnable = s.rxIntEnable := rfl
@[simp] theorem sendAddressByte_overrunPending (s : State) : (sendAddressByte s).overrunPending = s.overrunPending := rfl
@[simp] theorem sendAddressByte_addressSkipCount (s : State) : (sendAddressByte s).addressSkipCount = s.addressSkipCount := rfl
@[simp] theorem sendAddressByte_receivedCount (s : State) : (sendAddressByte s).receivedCount = s.receivedCount := rfl
@[simp] theorem sendAddressByte_frame (s : State) : (sendAddressByte s).frame = s.frame := rfl
@[simp] theorem sendAddressByte_frameReady (s : State) : (sendAddressByte s).frameReady = s.frameReady := rfl
@[simp] theorem sendAddressByte_rxActive (s : State) : (sendAddressByte s).rxActive = s.rxActive := rfl
@[simp] theorem sendAddressByte_mpxPhase (s : State) : (sendAddressByte s).mpxPhase = s.mpxPhase := rfl
@[simp] theorem sendAddressByte_outputChannelIndex (s : State) : (sendAddressByte s).outputChannelIndex = s.outputChannelIndex := rfl
@[simp] theorem sendAddressByte_mpxPeriod (s : State) : (sendAddressByte s).mpxPeriod = s.mpxPeriod := rfl
@[simp] theorem sendAddressByte_dacPhase (s : State) : (sendAddressByte s).dacPhase = .addressSent := rfl
@[simp] theorem sendAddressByte_dacSample (s : State) : (sendAddressByte s).dacSample = s.dacSample := rfl
@[simp] theorem sendAddressByte_heartbeat (s : State) : (sendAddressByte s).heartbeat = s.heartbeat := rfl
@[simp] theorem sendAddressByte_idleHistory (s : State) : (sendAddressByte s).idleHistory = s.idleHistory := rfl
@[simp] theorem sendAddressByte_cfgStartAddress (s : State) : (sendAddressByte s).cfgStartAddress = s.cfgStartAddress := rfl
@[simp] theorem sendAddressByte_cfgChannelCount (s : State) : (sendAddressByte s).cfgChannelCount = s.cfgChannelCount := rfl
@[simp] theorem sendAddressByte_busTrace (s : State) : (sendAddressByte s).busTrace = s.busTrace ++ [.send s.dueAddressByte] := rfl
@[simp] theorem sendAddressByte_periodTrace (s : State) : (sendAddressByte s).periodTrace = s.periodTrace := rfl
@[simp] theorem sendAddressByte_deserTrace (s : State) : (sendAddressByte s).deserTrace = s.deserTrace := rfl

/-! ### `sendHighByte` -/

@[simp] theorem sendHighByte_params (s : State) : (sendHighByte s).params = s.params := rfl
@[simp] theorem sendHighByte_stimuli (s : State) : (sendHighByte s).stimuli = s.stimuli := rfl
@[simp] theorem sendHighByte_tickEnable (s : State) : (sendHighByte s).tickEnable = s.tickEnable := rfl
@[simp] theorem sendHighByte_idleRunLength (s : State) : (sendHighByte s).idleRunLength = s.idleRunLength := rfl
@[simp] theorem sendHighByte_breakConfirmed (s : State) : (sendHighByte s).breakConfirmed = s.breakConfirmed := rfl
@[simp] theorem sendHighByte_rxIntEnable (s : State) : (sendHighByte s).rxIntEnable = s.rxIntEnable := rfl
@[simp] theorem sendHighByte_overrunPending (s : State) : (sendHighByte s).overrunPending = s.overrunPending := rfl
@[simp] theorem sendHighByte_addressSkipCount (s : State) : (sendHighByte s).addressSkipCount = s.addressSkipCount := rfl
@[simp] theorem sendHighByte_receivedCount (s : State) : (sendHighByte s).receivedCount = s.receivedCount := rfl
@[simp] theorem sendHighByte_frame (s : State) : (sendHighByte s).frame = s.frame := rfl
@[simp] theorem sendHighByte_frameReady (s : State) : (sendHighByte s).frameReady = s.frameReady := rfl
@[simp] theorem sendHighByte_rxActive (s : State) : (sendHighByte s).rxActive = s.rxActive := rfl
@[simp] theorem sendHighByte_mpxPhase (s : State) : (sendHighByte s).mpxPhase = s.mpxPhase := rfl
@[simp] theorem sendHighByte_outputChannelIndex (s : State) : (sendHighByte s).outputChannelIndex = s.outputChannelIndex := rfl
@[simp] theorem sendHighByte_mpxPeriod (s : State) : (sendHighByte s).mpxPeriod = s.mpxPeriod := rfl
@[simp] theorem sendHighByte_dacPhase (s : State) : (sendHighByte s).dacPhase = .highNibbleSent := rfl
@[simp] theorem sendHighByte_dacSample (s : State) : (sendHighByte s).dacSample = s.dacSample := rfl
@[simp] theorem sendHighByte_heartbeat (s : State) : (sendHighByte s).heartbeat = s.heartbeat := rfl
@[simp] theorem sendHighByte_idleHistory (s : State) : (sendHighByte s).idleHistory = s.idleHistory := rfl
@[simp] theorem sendHighByte_cfgStartAddress (s : State) : (sendHighByte s).cfgStartAddress = s.cfgStartAddress := rfl
@[simp] theorem sendHighByte_cfgChannelCount (s : State) : (sendHighByte s).cfgChannelCount = s.cfgChannelCount := rfl
@[simp] theorem sendHighByte_busTrace (s : State) : (sendHighByte s).busTrace = s.busTrace ++ [.send s.dueHighByte] := rfl
@[simp] theorem sendHighByte_periodTrace (s : State) : (sendHighByte s).periodTrace = s.periodTrace := rfl
@[simp] theorem sendHighByte_deserTrace (s : State) : (sendHighByte s).deserTrace = s.deserTrace := rfl

/-! ### `sendLowByte` -/

@[simp] theorem sendLowByte_params (s : State) : (sendLowByte s).params = s.params := rfl
@[simp] theorem sendLowByte_stimuli (s : State) : (sendLowByte s).stimuli = s.stimuli := rfl
@[simp] theorem sendLowByte_tickEnable (s : State) : (sendLowByte s).tickEnable = s.tickEnable := rfl
@[simp] theorem sendLowByte_idleRunLength (s : State) : (sendLowByte s).idleRunLength = s.idleRunLength := rfl
@[simp] theorem sendLowByte_breakConfirmed (s : State) : (sendLowByte s).breakConfirmed = s.breakConfirmed := rfl
@[simp] theorem sendLowByte_rxIntEnable (s : State) : (sendLowByte s).rxIntEnable = s.rxIntEnable := rfl
@[simp] theorem sendLowByte_overrunPending (s : State) : (sendLowByte s).overrunPending = s.overrunPending := rfl
@[simp] theorem sendLowByte_addressSkipCount (s : State) : (sendLowByte s).addressSkipCount = s.addressSkipCount := rfl
@[simp] theorem sendLowByte_receivedCount (s : State) : (sendLowByte s).receivedCount = s.receivedCount := rfl
@[simp] theorem sendLowByte_frame (s : State) : (sendLowByte s).frame = s.frame := rfl
@[simp] theorem sendLowByte_frameReady (s : State) : (sendLowByte s).frameReady = s.frameReady := rfl
@[simp] theorem sendLowByte_rxActive (s : State) : (sendLowByte s).rxActive = s.rxActive := rfl
@[simp] theorem sendLowByte_mpxPhase (s : State) : (sendLowByte s).mpxPhase = s.mpxPhase := rfl
@[simp] theorem sendLowByte_outputChannelIndex (s : State) : (sendLowByte s).outputChannelIndex = s.outputChannelIndex := rfl
@[simp] theorem sendLowByte_mpxPeriod (s : State) : (sendLowByte s).mpxPeriod = s.mpxPeriod := rfl
@[simp] theorem sendLowByte_dacPhase (s : State) : (sendLowByte s).dacPhase = .lowByteSent := rfl
@[simp] theorem sendLowByte_dacSample (s : State) : (sendLowByte s).dacSample = s.dacSample := rfl
@[simp] theorem sendLowByte_heartbeat (s : State) : (sendLowByte s).heartbeat = s.heartbeat := rfl
@[simp] theorem sendLowByte_idleHistory (s : State) : (sendLowByte s).idleHistory = s.idleHistory := rfl
@[simp] theorem sendLowByte_cfgStartAddress (s : State) : (sendLowByte s).cfgStartAddress = s.cfgStartAddress := rfl
@[simp] theorem sendLowByte_cfgChannelCount (s : State) : (sendLowByte s).cfgChannelCount = s.cfgChannelCount := rfl
@[simp] theorem sendLowByte_busTrace (s : State) : (sendLowByte s).busTrace = s.busTrace ++ [.send s.dueLowByte] := rfl
@[simp] theorem sendLowByte_periodTrace (s : State) : (sendLowByte s).periodTrace = s.periodTrace := rfl
@[simp] theorem sendLowByte_deserTrace (s : State) : (sendLowByte s).deserTrace = s.deserTrace := rfl

/-! ### `requestStop` -/

@[simp] theorem requestStop_params (s : State) : (requestStop s).params = s.params := rfl
@[simp] theorem requestStop_stimuli (s : State) : (requestStop s).stimuli = s.stimuli := rfl
@[simp] theorem requestStop_tickEnable (s : State) : (requestStop s).tickEnable = s.tickEnable := rfl
@[simp] theorem requestStop_idleRunLength (s : State) : (requestStop s).idleRunLength = s.idleRunLength := rfl
@[simp] theorem requestStop_breakConfirmed (s : State) : (requestStop s).breakConfirmed = s.breakConfirmed := rfl
@[simp] theorem requestStop_rxIntEnable (s : State) : (requestStop s).rxIntEnable = s.rxIntEnable := rfl
@[simp] theorem requestStop_overrunPending (s : State) : (requestStop s).overrunPending = s.overrunPending := rfl
@[simp] theorem requestStop_addressSkipCount (s : State) : (requestStop s).addressSkipCount = s.addressSkipCount := rfl
@[simp] theorem requestStop_receivedCount (s : State) : (requestStop s).receivedCount = s.receivedCount := rfl
@[simp] theorem requestStop_frame (s : State) : (requestStop s).frame = s.frame := rfl
@[simp] theorem requestStop_frameReady (s : State) : (requestStop s).frameReady = s.frameReady := rfl
@[simp] theorem requestStop_rxActive (s : State) : (requestStop s).rxActive = s.rxActive := rfl
@[simp] theorem requestStop_mpxPhase (s : State) : (requestStop s).mpxPhase = s.mpxPhase := rfl
@[simp] theorem requestStop_outputChannelIndex (s : State) : (requestStop s).outputChannelIndex = s.outputChannelIndex := rfl
@[simp] theorem requestStop_mpxPeriod (s : State) : (requestStop s).mpxPeriod = s.mpxPeriod := rfl
@[simp] theorem requestStop_dacPhase (s : State) : (requestStop s).dacPhase = .stopRequested := rfl
@[simp] theorem requestStop_dacSample (s : State) : (requestStop s).dacSample = s.dacSample := rfl
@[simp] theorem requestStop_heartbeat (s : State) : (requestStop s).heartbeat = s.heartbeat := rfl
@[simp] theorem requestStop_idleHistory (s : State) : (requestStop s).idleHistory = s.idleHistory := rfl
@[simp] theorem requestStop_cfgStartAddress (s : State) : (requestStop s).cfgStartAddress = s.cfgStartAddress := rfl
@[simp] theorem requestStop_cfgChannelCount (s : State) : (requestStop s).cfgChannelCount = s.cfgChannelCount := rfl
@[simp] theorem requestStop_busTrace (s : State) : (requestStop s).busTrace = s.busTrace ++ [.stop] := rfl
@[simp] theorem requestStop_periodTrace (s : State) : (requestStop s).periodTrace = s.periodTrace := rfl
@[simp] theorem requestStop_deserTrace (s : State) : (requestStop s).deserTrace = s.deserTrace := rfl

/-! ### `endTransaction` -/

@[simp] theorem endTransaction_params (s : State) : (endTransaction s).params = s.params := rfl
@[simp] theorem endTransaction_stimuli (s : State) : (endTransaction s).stimuli = s.stimuli := rfl
@[simp] theorem endTransaction_tickEnable (s : State) : (endTransaction s).tickEnable = s.tickEnable := rfl
@[simp] theorem endTransaction_idleRunLength (s : State) : (endTransaction s).idleRunLength = s.idleRunLength := rfl
@[simp] theorem endTransaction_breakConfirmed (s : State) : (endTransaction s).breakConfirmed = s.breakConfirmed := rfl
@[simp] theorem endTransaction_rxIntEnable (s : State) : (endTransaction s).rxIntEnable = s.rxIntEnable := rfl
@[simp] theorem endTransaction_overrunPending (s : State) : (endTransaction s).overrunPending = s.overrunPending := rfl
@[simp] theorem endTransaction_addressSkipCount (s : State) : (endTransaction s).addressSkipCount = s.addressSkipCount := rfl
@[simp] theorem endTransaction_receivedCount (s : State) : (endTransaction s).receivedCount = s.receivedCount := rfl
@[simp] theorem endTransaction_frame (s : State) : (endTransaction s).frame = s.frame := rfl
@[simp] theorem endTransaction_frameReady (s : State) : (endTransaction s).frameReady = s.frameReady := rfl
@[simp] theorem endTransaction_rxActive (s : State) : (endTransaction s).rxActive = s.rxActive := rfl
@[simp] theorem endTransaction_mpxPhase (s : State) : (endTransaction s).mpxPhase = s.mpxPhase := rfl
@[simp] theorem endTransaction_outputChannelIndex (s : State) : (endTransaction s).outputChannelIndex = s.outputChannelIndex := rfl
@[simp] theorem endTransaction_mpxPeriod (s : State) : (endTransaction s).mpxPeriod = s.mpxPeriod := rfl
@[simp] theorem endTransaction_dacPhase (s : State) : (endTransaction s).dacPhase = .idle := rfl
@[simp] theorem endTransaction_dacSample (s : State) : (endTransaction s).dacSample = s.dacSample := rfl
@[simp] theorem endTransaction_heartbeat (s : State) : (endTransaction s).heartbeat = s.heartbeat := rfl
@[simp] theorem endTransaction_idleHistory (s : State) : (endTransaction s).idleHistory = s.idleHistory := rfl
@[simp] theorem endTransaction_cfgStartAddress (s : State) : (endTransaction s).cfgStartAddress = s.cfgStartAddress := rfl
@[simp] theorem endTransaction_cfgChannelCount (s : State) : (endTransaction s).cfgChannelCount = s.cfgChannelCount := rfl
@[simp] theorem endTransaction_busTrace (s : State) : (endTransaction s).busTrace = s.busTrace := rfl
@[simp] theorem endTransaction_periodTrace (s : State) : (endTransaction s).periodTrace = s.periodTrace := rfl
@[simp] theorem endTransaction_deserTrace (s : State) : (endTransaction s).deserTrace = s.deserTrace := rfl

/-! ### `latchOverrun` -/

@[simp] theorem latchOverrun_params (s : State) : (latchOverrun s).params = s.params := rfl
@[simp] theorem latchOverrun_stimuli (s : State) : (latchOverrun s).stimuli = s.stimuli := rfl
@[simp] theorem latchOverrun_tickEnable (s : State) : (latchOverrun s).tickEnable = s.tickEnable := rfl
@[simp] theorem latchOverrun_idleRunLength (s : State) : (latchOverrun s).idleRunLength = s.idleRunLength := rfl
@[simp] theorem latchOverrun_breakConfirmed (s : State) : (latchOverrun s).breakConfirmed = s.breakConfirmed := rfl
@[simp] theorem latchOverrun_rxIntEnable (s : State) : (latchOverrun s).rxIntEnable = s.rxIntEnable := rfl
@[simp] theorem latchOverrun_overrunPending (s : State) : (latchOverrun s).overrunPending = true := rfl
@[simp] theorem latchOverrun_addressSkipCount (s : State) : (latchOverrun s).addressSkipCount = s.addressSkipCount := rfl
@[simp] theorem latchOverrun_receivedCount (s : State) : (latchOverrun s).receivedCount = s.receivedCount := rfl
@[simp] theorem latchOverrun_frame (s : State) : (latchOverrun s).frame = s.frame := rfl
@[simp] theorem latchOverrun_frameReady (s : State) : (latchOverrun s).frameReady = s.frameReady := rfl
@[simp] theorem latchOverrun_rxActive (s : State) : (latchOverrun s).rxActive = s.rxActive := rfl
@[simp] theorem latchOverrun_mpxPhase (s : State) : (latchOverrun s).mpxPhase = s.mpxPhase := rfl
@[simp] theorem latchOverrun_outputChannelIndex (s : State) : (latchOverrun s).outputChannelIndex = s.outputChannelIndex := rfl
@[simp] theorem latchOverrun_mpxPeriod (s : State) : (latchOverrun s).mpxPeriod = s.mpxPeriod := rfl
@[simp] theorem latchOverrun_dacPhase (s : State) : (latchOverrun s).dacPhase = s.dacPhase := rfl
@[simp] theorem latchOverrun_dacSample (s : State) : (latchOverrun s).dacSample = s.dacSample := rfl
@[simp] theorem latchOverrun_heartbeat (s : State) : (latchOverrun s).heartbeat = s.heartbeat := rfl
@[simp] theorem latchOverrun_idleHistory (s : State) : (latchOverrun s).idleHistory = s.idleHistory := rfl
@[simp] theorem latchOverrun_cfgStartAddress (s : State) : (latchOverrun s).cfgStartAddress = s.cfgStartAddress := rfl
@[simp] theorem latchOverrun_cfgChannelCount (s : State) : (latchOverrun s).cfgChannelCount = s.cfgChannelCount := rfl
@[simp] theorem latchOverrun_busTrace (s : State) : (latchOverrun s).busTrace = s.busTrace := rfl
@[simp] theorem latchOverrun_periodTrace (s : State) : (latchOverrun s).periodTrace = s.periodTrace := rfl
@[simp] theorem latchOverrun_deserTrace (s : State) : (latchOverrun s).deserTrace = s.deserTrace := rfl

/-! ### `abandonAttempt` -/

@[simp] theorem abandonAttempt_params (s : State) : (abandonAttempt s).params = s.params := rfl
@[simp] theorem abandonAttempt_stimuli (s : State) : (abandonAttempt s).stimuli = s.stimuli := rfl
@[simp] theorem abandonAttempt_tickEnable (s : State) : (abandonAttempt s).tickEnable = s.tickEnable := rfl
@[simp] theorem abandonAttempt_idleRunLength (s : State) : (abandonAttempt s).idleRunLength = s.idleRunLength := rfl
@[simp] theorem abandonAttempt_breakConfirmed (s : State) : (abandonAttempt s).breakConfirmed = s.breakConfirmed := rfl
@[simp] theorem abandonAttempt_rxIntEnable (s : State) : (abandonAttempt s).rxIntEnable = false := rfl
@[simp] theorem abandonAttempt_overrunPending (s : State) : (abandonAttempt s).overrunPending = s.overrunPending := rfl
@[simp] theorem abandonAttempt_addressSkipCount (s : State) : (abandonAttempt s).addressSkipCount = s.addressSkipCount := rfl
@[simp] theorem abandonAttempt_receivedCount (s : State) : (abandonAttempt s).receivedCount = s.receivedCount := rfl
@[simp] theorem abandonAttempt_frame (s : State) : (abandonAttempt s).frame = s.frame := rfl
@[simp] theorem abandonAttempt_frameReady (s : State) : (abandonAttempt s).frameReady = true := rfl
@[simp] theorem abandonAttempt_rxActive (s : State) : (abandonAttempt s).rxActive = s.rxActive := rfl
@[simp] theorem abandonAttempt_mpxPhase (s : State) : (abandonAttempt s).mpxPhase = s.mpxPhase := rfl
@[simp] theorem abandonAttempt_outputChannelIndex (s : State) : (abandonAttempt s).outputChannelIndex = s.outputChannelIndex := rfl
@[simp] theorem abandonAttempt_mpxPeriod (s : State) : (abandonAttempt s).mpxPeriod = s.mpxPeriod := rfl
@[simp] theorem abandonAttempt_dacPhase (s : State) : (abandonAttempt s).dacPhase = s.dacPhase := rfl
@[simp] theorem abandonAttempt_dacSample (s : State) : (abandonAttempt s).dacSample = s.dacSample := rfl
@[simp] theorem abandonAttempt_heartbeat (s : State) : (abandonAttempt s).heartbeat = s.heartbeat := rfl
@[simp] theorem abandonAttempt_idleHistory (s : State) : (abandonAttempt s).idleHistory = s.idleHistory := rfl
@[simp] theorem abandonAttempt_cfgStartAddress (s : State) : (abandonAttempt s).cfgStartAddress = s.cfgStartAddress := rfl
@[simp] theorem abandonAttempt_cfgChannelCount (s : State) : (abandonAttempt s).cfgChannelCount = s.cfgChannelCount := rfl
@[simp] theorem abandonAttempt_busTrace (s : State) : (abandonAttempt s).busTrace = s.busTrace := rfl
@[simp] theorem abandonAttempt_periodTrace (s : State) : (abandonAttempt s).periodTrace = s.periodTrace := rfl
@[simp] theorem abandonAttempt_deserTrace (s : State) : (abandonAttempt s).deserTrace = s.deserTrace := rfl

/-! ### `clearActivity` -/

@[simp] theorem clearActivity_params (s : State) : (clearActivity s).params = s.params := rfl
@[simp] theorem clearActivity_stimuli (s : State) : (clearActivity s).stimuli = s.stimuli := rfl
@[simp] theorem clearActivity_tickEnable (s : State) : (clearActivity s).tickEnable = s.tickEnable := rfl
@[simp] theorem clearActivity_idleRunLength (s : State) : (clearActivity s).idleRunLength = s.idleRunLength := rfl
@[simp] theorem clearActivity_breakConfirmed (s : State) : (clearActivity s).breakConfirmed = s.breakConfirmed := rfl
@[simp] theorem clearActivity_rxIntEnable (s : State) : (clearActivity s).rxIntEnable = s.rxIntEnable := rfl
@[simp] theorem clearActivity_overrunPending (s : State) : (clearActivity s).overrunPending = s.overrunPending := rfl
@[simp] theorem clearActivity_addressSkipCount (s : State) : (clearActivity s).addressSkipCount = s.addressSkipCount := rfl
@[simp] theorem clearActivity_receivedCount (s : State) : (clearActivity s).receivedCount = s.receivedCount := rfl
@[simp] theorem clearActivity_frame (s : State) : (clearActivity s).frame = s.frame := rfl
@[simp] theorem clearActivity_frameReady (s : State) : (clearActivity s).frameReady = s.frameReady := rfl
@[simp] theorem clearActivity_rxActive (s : State) : (clearActivity s).rxActive = false := rfl
@[simp] theorem clearActivity_mpxPhase (s : State) : (clearActivity s).mpxPhase = s.mpxPhase := rfl
@[simp] theorem clearActivity_outputChannelIndex (s : State) : (clearActivity s).outputChannelIndex = s.outputChannelIndex := rfl
@[simp] theorem clearActivity_mpxPeriod (s : State) : (clearActivity s).mpxPeriod = s.mpxPeriod := rfl
@[simp] theorem clearActivity_dacPhase (s : State) : (clearActivity s).dacPhase = s.dacPhase := rfl
@[simp] theorem clearActivity_dacSample (s : State) : (clearActivity s).dacSample = s.dacSample := rfl
@[simp] theorem clearActivity_heartbeat (s : State) : (clearActivity s).heartbeat = s.heartbeat := rfl
@[simp] theorem clearActivity_idleHistory (s : State) : (clearActivity s).idleHistory = s.idleHistory := rfl
@[simp] theorem clearActivity_cfgStartAddress (s : State) : (clearActivity s).cfgStartAddress = s.cfgStartAddress := rfl
@[simp] theorem clearActivity_cfgChannelCount (s : State) : (clearActivity s).cfgChannelCount = s.cfgChannelCount := rfl
@[simp] theorem clearActivity_busTrace (s : State) : (clearActivity s).busTrace = s.busTrace := rfl
@[simp] theorem clearActivity_periodTrace (s : State) : (clearActivity s).periodTrace = s.periodTrace := rfl
@[simp] theorem clearActivity_deserTrace (s : State) : (clearActivity s).deserTrace = s.deserTrace := rfl

/-! ### `loseRun` -/

@[simp] theorem loseRun_params (s : State) : (loseRun s).params = s.params := rfl
@[simp] theorem loseRun_stimuli (s : State) : (loseRun s).stimuli = s.stimuli := rfl
@[simp] theorem loseRun_tickEnable (s : State) : (loseRun s).tickEnable = s.tickEnable := rfl
@[simp] theorem loseRun_idleRunLength (s : State) : (loseRun s).idleRunLength = 0 := rfl
@[simp] theorem loseRun_breakConfirmed (s : State) : (loseRun s).breakConfirmed = s.breakConfirmed := rfl
@[simp] theorem loseRun_rxIntEnable (s : State) : (loseRun s).rxIntEnable = s.rxIntEnable := rfl
@[simp] theorem loseRun_overrunPending (s : State) : (loseRun s).overrunPending = s.overrunPending := rfl
@[simp] theorem loseRun_addressSkipCount (s : State) : (loseRun s).addressSkipCount = s.addressSkipCount := rfl
@[simp] theorem loseRun_receivedCount (s : State) : (loseRun s).receivedCount = s.receivedCount := rfl
@[simp] theorem loseRun_frame (s : State) : (loseRun s).frame = s.frame := rfl
@[simp] theorem loseRun_frameReady (s : State) : (loseRun s).frameReady = s.frameReady := rfl
@[simp] theorem loseRun_rxActive (s : State) : (loseRun s).rxActive = s.rxActive := rfl
@[simp] theorem loseRun_mpxPhase (s : State) : (loseRun s).mpxPhase = s.mpxPhase := rfl
@[simp] theorem loseRun_outputChannelIndex (s : State) : (loseRun s).outputChannelIndex = s.outputChannelIndex := rfl
@[simp] theorem loseRun_mpxPeriod (s : State) : (loseRun s).mpxPeriod = s.mpxPeriod := rfl
@[simp] theorem loseRun_dacPhase (s : State) : (loseRun s).dacPhase = s.dacPhase := rfl
@[simp] theorem loseRun_dacSample (s : State) : (loseRun s).dacSample = s.dacSample := rfl
@[simp] theorem loseRun_heartbeat (s : State) : (loseRun s).heartbeat = s.heartbeat := rfl
@[simp] theorem loseRun_idleHistory (s : State) : (loseRun s).idleHistory = s.idleHistory := rfl
@[simp] theorem loseRun_cfgStartAddress (s : State) : (loseRun s).cfgStartAddress = s.cfgStartAddress := rfl
@[simp] theorem loseRun_cfgChannelCount (s : State) : (loseRun s).cfgChannelCount = s.cfgChannelCount := rfl
@[simp] theorem loseRun_busTrace (s : State) : (loseRun s).busTrace = s.busTrace := rfl
@[simp] theorem loseRun_periodTrace (s : State) : (loseRun s).periodTrace = s.periodTrace := rfl
@[simp] theorem loseRun_deserTrace (s : State) : (loseRun s).deserTrace = s.deserTrace := rfl

/-! ### `handOff` -/

@[simp] theorem handOff_params (s : State) : (handOff s).params = s.params := rfl
@[simp] theorem handOff_stimuli (s : State) : (handOff s).stimuli = s.stimuli := rfl
@[simp] theorem handOff_tickEnable (s : State) : (handOff s).tickEnable = false := rfl
@[simp] theorem handOff_idleRunLength (s : State) : (handOff s).idleRunLength = s.idleRunLength := rfl
@[simp] theorem handOff_breakConfirmed (s : State) : (handOff s).breakConfirmed = s.breakConfirmed := rfl
@[simp] theorem handOff_rxIntEnable (s : State) : (handOff s).rxIntEnable = true := rfl
@[simp] theorem handOff_overrunPending (s : State) : (handOff s).overrunPending = false := rfl
@[simp] theorem handOff_addressSkipCount (s : State) : (handOff s).addressSkipCount = s.addressSkipCount := rfl
@[simp] theorem handOff_receivedCount (s : State) : (handOff s).receivedCount = s.receivedCount := rfl
@[simp] theorem handOff_frame (s : State) : (handOff s).frame = s.frame := rfl
@[simp] theorem handOff_frameReady (s : State) : (handOff s).frameReady = s.frameReady := rfl
@[simp] theorem handOff_rxActive (s : State) : (handOff s).rxActive = s.rxActive := rfl
@[simp] theorem handOff_mpxPhase (s : State) : (handOff s).mpxPhase = s.mpxPhase := rfl
@[simp] theorem handOff_outputChannelIndex (s : State) : (handOff s).outputChannelIndex = s.outputChannelIndex := rfl
@[simp] theorem handOff_mpxPeriod (s : State) : (handOff s).mpxPeriod = s.mpxPeriod := rfl
@[simp] theorem handOff_dacPhase (s : State) : (handOff s).dacPhase = s.dacPhase := rfl
@[simp] theorem handOff_dacSample (s : State) : (handOff s).dacSample = s.dacSample := rfl
@[simp] theorem handOff_heartbeat (s : State) : (handOff s).heartbeat = s.heartbeat := rfl
@[simp] theorem handOff_idleHistory (s : State) : (handOff s).idleHistory = s.idleHistory := rfl
@[simp] theorem handOff_cfgStartAddress (s : State) : (handOff s).cfgStartAddress = s.cfgStartAddress := rfl
@[simp] theorem handOff_cfgChannelCount (s : State) : (handOff s).cfgChannelCount = s.cfgChannelCount := rfl
@[simp] theorem handOff_busTrace (s : State) : (handOff s).busTrace = s.busTrace := rfl
@[simp] theorem handOff_periodTrace (s : State) : (handOff s).periodTrace = s.periodTrace := rfl
@[simp] theorem handOff_deserTrace (s : State) : (handOff s).deserTrace = s.deserTrace ++ [.ovrClear] := rfl

/-! ### `countLow` -/

@[simp] theorem countLow_params (s : State) : (countLow s).params = s.params := rfl
@[simp] theorem countLow_stimuli (s : State) : (countLow s).stimuli = s.stimuli := rfl
@[simp] theorem countLow_tickEnable (s : State) : (countLow s).tickEnable = s.tickEnable := rfl
@[simp] theorem countLow_idleRunLength (s : State) : (countLow s).idleRunLength = countIdleSample s.idleRunLength := rfl
@[simp] theorem countLow_breakConfirmed (s : State) : (countLow s).breakConfirmed = (s.breakConfirmed || thresholdReached (countIdleSample s.idleRunLength)) := rfl
@[simp] theorem countLow_rxIntEnable (s : State) : (countLow s).rxIntEnable = s.rxIntEnable := rfl
@[simp] theorem countLow_overrunPending (s : State) : (countLow s).overrunPending = s.overrunPending := rfl
@[simp] theorem countLow_addressSkipCount (s : State) : (countLow s).addressSkipCount = s.addressSkipCount := rfl
@[simp] theorem countLow_receivedCount (s : State) : (countLow s).receivedCount = s.receivedCount := rfl
@[simp] theorem countLow_frame (s : State) : (countLow s).frame = s.frame := rfl
@[simp] theorem countLow_frameReady (s : State) : (countLow s).frameReady = s.frameReady := rfl
@[simp] theorem countLow_rxActive (s : State) : (countLow s).rxActive = s.rxActive := rfl
@[simp] theorem countLow_mpxPhase (s : State) : (countLow s).mpxPhase = s.mpxPhase := rfl
@[simp] theorem countLow_outputChannelIndex (s : State) : (countLow s).outputChannelIndex = s.outputChannelIndex := rfl
@[simp] theorem countLow_mpxPeriod (s : State) : (countLow s).mpxPeriod = s.mpxPeriod := rfl
@[simp] theorem countLow_dacPhase (s : State) : (countLow s).dacPhase = s.dacPhase := rfl
@[simp] theorem countLow_dacSample (s : State) : (countLow s).dacSample = s.dacSample := rfl
@[simp] theorem countLow_heartbeat (s : State) : (countLow s).heartbeat = s.heartbeat := rfl
@[simp] theorem countLow_idleHistory (s : State) : (countLow s).idleHistory = s.idleHistory := rfl
@[simp] theorem countLow_cfgStartAddress (s : State) : (countLow s).cfgStartAddress = s.cfgStartAddress := rfl
@[simp] theorem countLow_cfgChannelCount (s : State) : (countLow s).cfgChannelCount = s.cfgChannelCount := rfl
@[simp] theorem countLow_busTrace (s : State) : (countLow s).busTrace = s.busTrace := rfl
@[simp] theorem countLow_periodTrace (s : State) : (countLow s).periodTrace = s.periodTrace := rfl
@[simp] theorem countLow_deserTrace (s : State) : (countLow s).deserTrace = s.deserTrace := rfl

/-! ### `countByte` -/

@[simp] theorem countByte_params (s : State) : (countByte s).params = s.params := rfl
@[simp] theorem countByte_stimuli (s : State) : (countByte s).stimuli = s.stimuli := rfl
@[simp] theorem countByte_tickEnable (s : State) : (countByte s).tickEnable = s.tickEnable := rfl
@[simp] theorem countByte_idleRunLength (s : State) : (countByte s).idleRunLength = s.idleRunLength := rfl
@[simp] theorem countByte_breakConfirmed (s : State) : (countByte s).breakConfirmed = s.breakConfirmed := rfl
@[simp] theorem countByte_rxIntEnable (s : State) : (countByte s).rxIntEnable = s.rxIntEnable := rfl
@[simp] theorem countByte_overrunPending (s : State) : (countByte s).overrunPending = s.overrunPending := rfl
@[simp] theorem countByte_addressSkipCount (s : State) : (countByte s).addressSkipCount = s.addressSkipCount + 1 := rfl
@[simp] theorem countByte_receivedCount (s : State) : (countByte s).receivedCount = s.receivedCount := rfl
@[simp] theorem countByte_frame (s : State) : (countByte s).frame = s.frame := rfl
@[simp] theorem countByte_frameReady (s : State) : (countByte s).frameReady = s.frameReady := rfl
@[simp] theorem countByte_rxActive (s : State) : (countByte s).rxActive = s.rxActive := rfl
@[simp] theorem countByte_mpxPhase (s : State) : (countByte s).mpxPhase = s.mpxPhase := rfl
@[simp] theorem countByte_outputChannelIndex (s : State) : (countByte s).outputChannelIndex = s.outputChannelIndex := rfl
@[simp] theorem countByte_mpxPeriod (s : State) : (countByte s).mpxPeriod = s.mpxPeriod := rfl
@[simp] theorem countByte_dacPhase (s : State) : (countByte s).dacPhase = s.dacPhase := rfl
@[simp] theorem countByte_dacSample (s : State) : (countByte s).dacSample = s.dacSample := rfl
@[simp] theorem countByte_heartbeat (s : State) : (countByte s).heartbeat = s.heartbeat := rfl
@[simp] theorem countByte_idleHistory (s : State) : (countByte s).idleHistory = s.idleHistory := rfl
@[simp] theorem countByte_cfgStartAddress (s : State) : (countByte s).cfgStartAddress = s.cfgStartAddress := rfl
@[simp] theorem countByte_cfgChannelCount (s : State) : (countByte s).cfgChannelCount = s.cfgChannelCount := rfl
@[simp] theorem countByte_busTrace (s : State) : (countByte s).busTrace = s.busTrace := rfl
@[simp] theorem countByte_periodTrace (s : State) : (countByte s).periodTrace = s.periodTrace := rfl
@[simp] theorem countByte_deserTrace (s : State) : (countByte s).deserTrace = s.deserTrace := rfl

/-! ### `advanceCursor` -/

@[simp] theorem advanceCursor_params (s : State) : (advanceCursor s).params = s.params := rfl
@[simp] theorem advanceCursor_stimuli (s : State) : (advanceCursor s).stimuli = s.stimuli := rfl
@[simp] theorem advanceCursor_tickEnable (s : State) : (advanceCursor s).tickEnable = s.tickEnable := rfl
@[simp] theorem advanceCursor_idleRunLength (s : State) : (advanceCursor s).idleRunLength = s.idleRunLength := rfl
@[simp] theorem advanceCursor_breakConfirmed (s : State) : (advanceCursor s).breakConfirmed = s.breakConfirmed := rfl
@[simp] theorem advanceCursor_rxIntEnable (s : State) : (advanceCursor s).rxIntEnable = s.rxIntEnable := rfl
@[simp] theorem advanceCursor_overrunPending (s : State) : (advanceCursor s).overrunPending = s.overrunPending := rfl
@[simp] theorem advanceCursor_addressSkipCount (s : State) : (advanceCursor s).addressSkipCount = s.addressSkipCount := rfl
@[simp] theorem advanceCursor_receivedCount (s : State) : (advanceCursor s).receivedCount = s.receivedCount + 1 := rfl
@[simp] theorem advanceCursor_frame (s : State) : (advanceCursor s).frame = s.frame := rfl
@[simp] theorem advanceCursor_frameReady (s : State) : (advanceCursor s).frameReady = s.frameReady := rfl
@[simp] theorem advanceCursor_rxActive (s : State) : (advanceCursor s).rxActive = true := rfl
@[simp] theorem advanceCursor_mpxPhase (s : State) : (advanceCursor s).mpxPhase = s.mpxPhase := rfl
@[simp] theorem advanceCursor_outputChannelIndex (s : State) : (advanceCursor s).outputChannelIndex = s.outputChannelIndex := rfl
@[simp] theorem advanceCursor_mpxPeriod (s : State) : (advanceCursor s).mpxPeriod = s.mpxPeriod := rfl
@[simp] theorem advanceCursor_dacPhase (s : State) : (advanceCursor s).dacPhase = s.dacPhase := rfl
@[simp] theorem advanceCursor_dacSample (s : State) : (advanceCursor s).dacSample = s.dacSample := rfl
@[simp] theorem advanceCursor_heartbeat (s : State) : (advanceCursor s).heartbeat = s.heartbeat := rfl
@[simp] theorem advanceCursor_idleHistory (s : State) : (advanceCursor s).idleHistory = s.idleHistory := rfl
@[simp] theorem advanceCursor_cfgStartAddress (s : State) : (advanceCursor s).cfgStartAddress = s.cfgStartAddress := rfl
@[simp] theorem advanceCursor_cfgChannelCount (s : State) : (advanceCursor s).cfgChannelCount = s.cfgChannelCount := rfl
@[simp] theorem advanceCursor_busTrace (s : State) : (advanceCursor s).busTrace = s.busTrace := rfl
@[simp] theorem advanceCursor_periodTrace (s : State) : (advanceCursor s).periodTrace = s.periodTrace := rfl
@[simp] theorem advanceCursor_deserTrace (s : State) : (advanceCursor s).deserTrace = s.deserTrace := rfl

/-! ### `rearmAcquisition` -/

@[simp] theorem rearmAcquisition_params (s : State) : (rearmAcquisition s).params = s.params := rfl
@[simp] theorem rearmAcquisition_stimuli (s : State) : (rearmAcquisition s).stimuli = s.stimuli := rfl
@[simp] theorem rearmAcquisition_tickEnable (s : State) : (rearmAcquisition s).tickEnable = true := rfl
@[simp] theorem rearmAcquisition_idleRunLength (s : State) : (rearmAcquisition s).idleRunLength = 0 := rfl
@[simp] theorem rearmAcquisition_breakConfirmed (s : State) : (rearmAcquisition s).breakConfirmed = false := rfl
@[simp] theorem rearmAcquisition_rxIntEnable (s : State) : (rearmAcquisition s).rxIntEnable = s.rxIntEnable := rfl
@[simp] theorem rearmAcquisition_overrunPending (s : State) : (rearmAcquisition s).overrunPending = s.overrunPending := rfl
@[simp] theorem rearmAcquisition_addressSkipCount (s : State) : (rearmAcquisition s).addressSkipCount = 0 := rfl
@[simp] theorem rearmAcquisition_receivedCount (s : State) : (rearmAcquisition s).receivedCount = 0 := rfl
@[simp] theorem rearmAcquisition_frame (s : State) : (rearmAcquisition s).frame = s.frame := rfl
@[simp] theorem rearmAcquisition_frameReady (s : State) : (rearmAcquisition s).frameReady = false := rfl
@[simp] theorem rearmAcquisition_rxActive (s : State) : (rearmAcquisition s).rxActive = s.rxActive := rfl
@[simp] theorem rearmAcquisition_mpxPhase (s : State) : (rearmAcquisition s).mpxPhase = s.mpxPhase := rfl
@[simp] theorem rearmAcquisition_outputChannelIndex (s : State) : (rearmAcquisition s).outputChannelIndex = s.outputChannelIndex := rfl
@[simp] theorem rearmAcquisition_mpxPeriod (s : State) : (rearmAcquisition s).mpxPeriod = s.mpxPeriod := rfl
@[simp] theorem rearmAcquisition_dacPhase (s : State) : (rearmAcquisition s).dacPhase = s.dacPhase := rfl
@[simp] theorem rearmAcquisition_dacSample (s : State) : (rearmAcquisition s).dacSample = s.dacSample := rfl
@[simp] theorem rearmAcquisition_heartbeat (s : State) : (rearmAcquisition s).heartbeat = s.heartbeat := rfl
@[simp] theorem rearmAcquisition_idleHistory (s : State) : (rearmAcquisition s).idleHistory = s.idleHistory := rfl
@[simp] theorem rearmAcquisition_cfgStartAddress (s : State) : (rearmAcquisition s).cfgStartAddress = s.cfgStartAddress := rfl
@[simp] theorem rearmAcquisition_cfgChannelCount (s : State) : (rearmAcquisition s).cfgChannelCount = s.cfgChannelCount := rfl
@[simp] theorem rearmAcquisition_busTrace (s : State) : (rearmAcquisition s).busTrace = s.busTrace := rfl
@[simp] theorem rearmAcquisition_periodTrace (s : State) : (rearmAcquisition s).periodTrace = s.periodTrace := rfl
@[simp] theorem rearmAcquisition_deserTrace (s : State) : (rearmAcquisition s).deserTrace = s.deserTrace := rfl

/-! ### `toggleHeartbeat` -/

@[simp] theorem toggleHeartbeat_params (s : State) : (toggleHeartbeat s).params = s.params := rfl
@[simp] theorem toggleHeartbeat_stimuli (s : State) : (toggleHeartbeat s).stimuli = s.stimuli := rfl
@[simp] theorem toggleHeartbeat_tickEnable (s : State) : (toggleHeartbeat s).tickEnable = s.tickEnable := rfl
@[simp] theorem toggleHeartbeat_idleRunLength (s : State) : (toggleHeartbeat s).idleRunLength = s.idleRunLength := rfl
@[simp] theorem toggleHeartbeat_breakConfirmed (s : State) : (toggleHeartbeat s).breakConfirmed = s.breakConfirmed := rfl
@[simp] theorem toggleHeartbeat_rxIntEnable (s : State) : (toggleHeartbeat s).rxIntEnable = s.rxIntEnable := rfl
@[simp] theorem toggleHeartbeat_overrunPending (s : State) : (toggleHeartbeat s).overrunPending = s.overrunPending := rfl
@[simp] theorem toggleHeartbeat_addressSkipCount (s : State) : (toggleHeartbeat s).addressSkipCount = s.addressSkipCount := rfl
@[simp] theorem toggleHeartbeat_receivedCount (s : State) : (toggleHeartbeat s).receivedCount = s.receivedCount := rfl
@[simp] theorem toggleHeartbeat_frame (s : State) : (toggleHeartbeat s).frame = s.frame := rfl
@[simp] theorem toggleHeartbeat_frameReady (s : State) : (toggleHeartbeat s).frameReady = s.frameReady := rfl
@[simp] theorem toggleHeartbeat_rxActive (s : State) : (toggleHeartbeat s).rxActive = s.rxActive := rfl
@[simp] theorem toggleHeartbeat_mpxPhase (s : State) : (toggleHeartbeat s).mpxPhase = s.mpxPhase := rfl
@[simp] theorem toggleHeartbeat_outputChannelIndex (s : State) : (toggleHeartbeat s).outputChannelIndex = s.outputChannelIndex := rfl
@[simp] theorem toggleHeartbeat_mpxPeriod (s : State) : (toggleHeartbeat s).mpxPeriod = s.mpxPeriod := rfl
@[simp] theorem toggleHeartbeat_dacPhase (s : State) : (toggleHeartbeat s).dacPhase = s.dacPhase := rfl
@[simp] theorem toggleHeartbeat_dacSample (s : State) : (toggleHeartbeat s).dacSample = s.dacSample := rfl
@[simp] theorem toggleHeartbeat_heartbeat (s : State) : (toggleHeartbeat s).heartbeat = (!s.heartbeat) := rfl
@[simp] theorem toggleHeartbeat_idleHistory (s : State) : (toggleHeartbeat s).idleHistory = s.idleHistory := rfl
@[simp] theorem toggleHeartbeat_cfgStartAddress (s : State) : (toggleHeartbeat s).cfgStartAddress = s.cfgStartAddress := rfl
@[simp] theorem toggleHeartbeat_cfgChannelCount (s : State) : (toggleHeartbeat s).cfgChannelCount = s.cfgChannelCount := rfl
@[simp] theorem toggleHeartbeat_busTrace (s : State) : (toggleHeartbeat s).busTrace = s.busTrace := rfl
@[simp] theorem toggleHeartbeat_periodTrace (s : State) : (toggleHeartbeat s).periodTrace = s.periodTrace := rfl
@[simp] theorem toggleHeartbeat_deserTrace (s : State) : (toggleHeartbeat s).deserTrace = s.deserTrace := rfl

/-! ### `declareIdle` -/

@[simp] theorem declareIdle_params (s : State) : (declareIdle s).params = s.params := rfl
@[simp] theorem declareIdle_stimuli (s : State) : (declareIdle s).stimuli = s.stimuli := rfl
@[simp] theorem declareIdle_tickEnable (s : State) : (declareIdle s).tickEnable = s.tickEnable := rfl
@[simp] theorem declareIdle_idleRunLength (s : State) : (declareIdle s).idleRunLength = s.idleRunLength := rfl
@[simp] theorem declareIdle_breakConfirmed (s : State) : (declareIdle s).breakConfirmed = s.breakConfirmed := rfl
@[simp] theorem declareIdle_rxIntEnable (s : State) : (declareIdle s).rxIntEnable = s.rxIntEnable := rfl
@[simp] theorem declareIdle_overrunPending (s : State) : (declareIdle s).overrunPending = s.overrunPending := rfl
@[simp] theorem declareIdle_addressSkipCount (s : State) : (declareIdle s).addressSkipCount = s.addressSkipCount := rfl
@[simp] theorem declareIdle_receivedCount (s : State) : (declareIdle s).receivedCount = s.receivedCount := rfl
@[simp] theorem declareIdle_frame (s : State) : (declareIdle s).frame = s.frame := rfl
@[simp] theorem declareIdle_frameReady (s : State) : (declareIdle s).frameReady = s.frameReady := rfl
@[simp] theorem declareIdle_rxActive (s : State) : (declareIdle s).rxActive = false := rfl
@[simp] theorem declareIdle_mpxPhase (s : State) : (declareIdle s).mpxPhase = s.mpxPhase := rfl
@[simp] theorem declareIdle_outputChannelIndex (s : State) : (declareIdle s).outputChannelIndex = s.outputChannelIndex := rfl
@[simp] theorem declareIdle_mpxPeriod (s : State) : (declareIdle s).mpxPeriod = s.mpxPeriod := rfl
@[simp] theorem declareIdle_dacPhase (s : State) : (declareIdle s).dacPhase = s.dacPhase := rfl
@[simp] theorem declareIdle_dacSample (s : State) : (declareIdle s).dacSample = s.dacSample := rfl
@[simp] theorem declareIdle_heartbeat (s : State) : (declareIdle s).heartbeat = s.heartbeat := rfl
@[simp] theorem declareIdle_idleHistory (s : State) : (declareIdle s).idleHistory = 0 := rfl
@[simp] theorem declareIdle_cfgStartAddress (s : State) : (declareIdle s).cfgStartAddress = s.cfgStartAddress := rfl
@[simp] theorem declareIdle_cfgChannelCount (s : State) : (declareIdle s).cfgChannelCount = s.cfgChannelCount := rfl
@[simp] theorem declareIdle_busTrace (s : State) : (declareIdle s).busTrace = s.busTrace := rfl
@[simp] theorem declareIdle_periodTrace (s : State) : (declareIdle s).periodTrace = s.periodTrace := rfl
@[simp] theorem declareIdle_deserTrace (s : State) : (declareIdle s).deserTrace = s.deserTrace := rfl

/-! ### `countPeriod` -/

@[simp] theorem countPeriod_params (s : State) : (countPeriod s).params = s.params := rfl
@[simp] theorem countPeriod_stimuli (s : State) : (countPeriod s).stimuli = s.stimuli := rfl
@[simp] theorem countPeriod_tickEnable (s : State) : (countPeriod s).tickEnable = s.tickEnable := rfl
@[simp] theorem countPeriod_idleRunLength (s : State) : (countPeriod s).idleRunLength = s.idleRunLength := rfl
@[simp] theorem countPeriod_breakConfirmed (s : State) : (countPeriod s).breakConfirmed = s.breakConfirmed := rfl
@[simp] theorem countPeriod_rxIntEnable (s : State) : (countPeriod s).rxIntEnable = s.rxIntEnable := rfl
@[simp] theorem countPeriod_overrunPending (s : State) : (countPeriod s).overrunPending = s.overrunPending := rfl
@[simp] theorem countPeriod_addressSkipCount (s : State) : (countPeriod s).addressSkipCount = s.addressSkipCount := rfl
@[simp] theorem countPeriod_receivedCount (s : State) : (countPeriod s).receivedCount = s.receivedCount := rfl
@[simp] theorem countPeriod_frame (s : State) : (countPeriod s).frame = s.frame := rfl
@[simp] theorem countPeriod_frameReady (s : State) : (countPeriod s).frameReady = s.frameReady := rfl
@[simp] theorem countPeriod_rxActive (s : State) : (countPeriod s).rxActive = s.rxActive := rfl
@[simp] theorem countPeriod_mpxPhase (s : State) : (countPeriod s).mpxPhase = s.mpxPhase := rfl
@[simp] theorem countPeriod_outputChannelIndex (s : State) : (countPeriod s).outputChannelIndex = s.outputChannelIndex := rfl
@[simp] theorem countPeriod_mpxPeriod (s : State) : (countPeriod s).mpxPeriod = s.mpxPeriod := rfl
@[simp] theorem countPeriod_dacPhase (s : State) : (countPeriod s).dacPhase = s.dacPhase := rfl
@[simp] theorem countPeriod_dacSample (s : State) : (countPeriod s).dacSample = s.dacSample := rfl
@[simp] theorem countPeriod_heartbeat (s : State) : (countPeriod s).heartbeat = s.heartbeat := rfl
@[simp] theorem countPeriod_idleHistory (s : State) : (countPeriod s).idleHistory = s.idleHistory + 1 := rfl
@[simp] theorem countPeriod_cfgStartAddress (s : State) : (countPeriod s).cfgStartAddress = s.cfgStartAddress := rfl
@[simp] theorem countPeriod_cfgChannelCount (s : State) : (countPeriod s).cfgChannelCount = s.cfgChannelCount := rfl
@[simp] theorem countPeriod_busTrace (s : State) : (countPeriod s).busTrace = s.busTrace := rfl
@[simp] theorem countPeriod_periodTrace (s : State) : (countPeriod s).periodTrace = s.periodTrace := rfl
@[simp] theorem countPeriod_deserTrace (s : State) : (countPeriod s).deserTrace = s.deserTrace := rfl

/-! ### `placeStimulus` -/

@[simp] theorem placeStimulus_params (c : CodeWord) (s : State) : (placeStimulus c s).params = s.params := rfl
@[simp] theorem placeStimulus_stimuli (c : CodeWord) (s : State) : (placeStimulus c s).stimuli = c :: s.stimuli := rfl
@[simp] theorem placeStimulus_tickEnable (c : CodeWord) (s : State) : (placeStimulus c s).tickEnable = s.tickEnable := rfl
@[simp] theorem placeStimulus_idleRunLength (c : CodeWord) (s : State) : (placeStimulus c s).idleRunLength = s.idleRunLength := rfl
@[simp] theorem placeStimulus_breakConfirmed (c : CodeWord) (s : State) : (placeStimulus c s).breakConfirmed = s.breakConfirmed := rfl
@[simp] theorem placeStimulus_rxIntEnable (c : CodeWord) (s : State) : (placeStimulus c s).rxIntEnable = s.rxIntEnable := rfl
@[simp] theorem placeStimulus_overrunPending (c : CodeWord) (s : State) : (placeStimulus c s).overrunPending = s.overrunPending := rfl
@[simp] theorem placeStimulus_addressSkipCount (c : CodeWord) (s : State) : (placeStimulus c s).addressSkipCount = s.addressSkipCount := rfl
@[simp] theorem placeStimulus_receivedCount (c : CodeWord) (s : State) : (placeStimulus c s).receivedCount = s.receivedCount := rfl
@[simp] theorem placeStimulus_frame (c : CodeWord) (s : State) : (placeStimulus c s).frame = s.frame := rfl
@[simp] theorem placeStimulus_frameReady (c : CodeWord) (s : State) : (placeStimulus c s).frameReady = s.frameReady := rfl
@[simp] theorem placeStimulus_rxActive (c : CodeWord) (s : State) : (placeStimulus c s).rxActive = s.rxActive := rfl
@[simp] theorem placeStimulus_mpxPhase (c : CodeWord) (s : State) : (placeStimulus c s).mpxPhase = s.mpxPhase := rfl
@[simp] theorem placeStimulus_outputChannelIndex (c : CodeWord) (s : State) : (placeStimulus c s).outputChannelIndex = s.outputChannelIndex := rfl
@[simp] theorem placeStimulus_mpxPeriod (c : CodeWord) (s : State) : (placeStimulus c s).mpxPeriod = s.mpxPeriod := rfl
@[simp] theorem placeStimulus_dacPhase (c : CodeWord) (s : State) : (placeStimulus c s).dacPhase = s.dacPhase := rfl
@[simp] theorem placeStimulus_dacSample (c : CodeWord) (s : State) : (placeStimulus c s).dacSample = s.dacSample := rfl
@[simp] theorem placeStimulus_heartbeat (c : CodeWord) (s : State) : (placeStimulus c s).heartbeat = s.heartbeat := rfl
@[simp] theorem placeStimulus_idleHistory (c : CodeWord) (s : State) : (placeStimulus c s).idleHistory = s.idleHistory := rfl
@[simp] theorem placeStimulus_cfgStartAddress (c : CodeWord) (s : State) : (placeStimulus c s).cfgStartAddress = s.cfgStartAddress := rfl
@[simp] theorem placeStimulus_cfgChannelCount (c : CodeWord) (s : State) : (placeStimulus c s).cfgChannelCount = s.cfgChannelCount := rfl
@[simp] theorem placeStimulus_busTrace (c : CodeWord) (s : State) : (placeStimulus c s).busTrace = s.busTrace := rfl
@[simp] theorem placeStimulus_periodTrace (c : CodeWord) (s : State) : (placeStimulus c s).periodTrace = s.periodTrace := rfl
@[simp] theorem placeStimulus_deserTrace (c : CodeWord) (s : State) : (placeStimulus c s).deserTrace = s.deserTrace := rfl

/-! ### `dacRequest`: the fields it never writes -/

@[simp] theorem dacRequest_params (x : Sample) (s : State) : (dacRequest x s).params = s.params := by unfold dacRequest; split <;> rfl
@[simp] theorem dacRequest_stimuli (x : Sample) (s : State) : (dacRequest x s).stimuli = s.stimuli := by unfold dacRequest; split <;> rfl
@[simp] theorem dacRequest_tickEnable (x : Sample) (s : State) : (dacRequest x s).tickEnable = s.tickEnable := by unfold dacRequest; split <;> rfl
@[simp] theorem dacRequest_idleRunLength (x : Sample) (s : State) : (dacRequest x s).idleRunLength = s.idleRunLength := by unfold dacRequest; split <;> rfl
@[simp] theorem dacRequest_breakConfirmed (x : Sample) (s : State) : (dacRequest x s).breakConfirmed = s.breakConfirmed := by unfold dacRequest; split <;> rfl
@[simp] theorem dacRequest_rxIntEnable (x : Sample) (s : State) : (dacRequest x s).rxIntEnable = s.rxIntEnable := by unfold dacRequest; split <;> rfl
@[simp] theorem dacRequest_overrunPending (x : Sample) (s : State) : (dacRequest x s).overrunPending = s.overrunPending := by unfold dacRequest; split <;> rfl
@[simp] theorem dacRequest_addressSkipCount (x : Sample) (s : State) : (dacRequest x s).addressSkipCount = s.addressSkipCount := by unfold dacRequest; split <;> rfl
@[simp] theorem dacRequest_receivedCount (x : Sample) (s : State) : (dacRequest x s).receivedCount = s.receivedCount := by unfold dacRequest; split <;> rfl
@[simp] theorem dacRequest_frame (x : Sample) (s : State) : (dacRequest x s).frame = s.frame := by unfold dacRequest; split <;> rfl
@[simp] theorem dacRequest_frameReady (x : Sample) (s : State) : (dacRequest x s).frameReady = s.frameReady := by unfold dacRequest; split <;> rfl
@[simp] theorem dacRequest_rxActive (x : Sample) (s : State) : (dacRequest x s).rxActive = s.rxActive := by unfold dacRequest; split <;> rfl
@[simp] theorem dacRequest_mpxPhase (x : Sample) (s : State) : (dacRequest x s).mpxPhase = s.mpxPhase := by unfold dacRequest; split <;> rfl
@[simp] theorem dacRequest_outputChannelIndex (x : Sample) (s : State) : (dacRequest x s).outputChannelIndex = s.outputChannelIndex := by unfold dacRequest; split <;> rfl
@[simp] theorem dacRequest_mpxPeriod (x : Sample) (s : State) : (dacRequest x s).mpxPeriod = s.mpxPeriod := by unfold dacRequest; split <;> rfl
@[simp] theorem dacRequest_heartbeat (x : Sample) (s : State) : (dacRequest x s).heartbeat = s.heartbeat := by unfold dacRequest; split <;> rfl
@[simp] theorem dacRequest_idleHistory (x : Sample) (s : State) : (dacRequest x s).idleHistory = s.idleHistory := by unfold dacRequest; split <;> rfl
@[simp] theorem dacRequest_cfgStartAddress (x : Sample) (s : State) : (dacRequest x s).cfgStartAddress = s.cfgStartAddress := by unfold dacRequest; split <;> rfl
@[simp] theorem dacRequest_cfgChannelCount (x : Sample) (s : State) : (dacRequest x s).cfgChannelCount = s.cfgChannelCount := by unfold dacRequest; split <;> rfl
@[simp] theorem dacRequest_periodTrace (x : Sample) (s : State) : (dacRequest x s).periodTrace = s.periodTrace := by unfold dacRequest; split <;> rfl
@[simp] theorem dacRequest_deserTrace (x : Sample) (s : State) : (dacRequest x s).deserTrace = s.deserTrace := by unfold dacRequest; split <;> rfl

/-! ### `busCompletion`: the fields it never writes -/

@[simp] theorem busCompletion_params (s : State) : (busCompletion s).params = s.params := by unfold busCompletion; split <;> rfl
@[simp] theorem busCompletion_stimuli (s : State) : (busCompletion s).stimuli = s.stimuli := by unfold busCompletion; split <;> rfl
@[simp] theorem busCompletion_tickEnable (s : State) : (busCompletion s).tickEnable = s.tickEnable := by unfold busCompletion; split <;> rfl
@[simp] theorem busCompletion_idleRunLength (s : State) : (busCompletion s).idleRunLength = s.idleRunLength := by unfold busCompletion; split <;> rfl
@[simp] theorem busCompletion_breakConfirmed (s : State) : (busCompletion s).breakConfirmed = s.breakConfirmed := by unfold busCompletion; split <;> rfl
@[simp] theorem busCompletion_rxIntEnable (s : State) : (busCompletion s).rxIntEnable = s.rxIntEnable := by unfold busCompletion; split <;> rfl
@[simp] theorem busCompletion_overrunPending (s : State) : (busCompletion s).overrunPending = s.overrunPending := by unfold busCompletion; split <;> rfl
@[simp] theorem busCompletion_addressSkipCount (s : State) : (busCompletion s).addressSkipCount = s.addressSkipCount := by unfold busCompletion; split <;> rfl
@[simp] theorem busCompletion_receivedCount (s : State) : (busCompletion s).receivedCount = s.receivedCount := by unfold busCompletion; split <;> rfl
@[simp] theorem busCompletion_frame (s : State) : (busCompletion s).frame = s.frame := by unfold busCompletion; split <;> rfl
@[simp] theorem busCompletion_frameReady (s : State) : (busCompletion s).frameReady = s.frameReady := by unfold busCompletion; split <;> rfl
@[simp] theorem busCompletion_rxActive (s : State) : (busCompletion s).rxActive = s.rxActive := by unfold busCompletion; split <;> rfl
@[simp] theorem busCompletion_mpxPhase (s : State) : (busCompletion s).mpxPhase = s.mpxPhase := by unfold busCompletion; split <;> rfl
@[simp] theorem busCompletion_outputChannelIndex (s : State) : (busCompletion s).outputChannelIndex = s.outputChannelIndex := by unfold busCompletion; split <;> rfl
@[simp] theorem busCompletion_mpxPeriod (s : State) : (busCompletion s).mpxPeriod = s.mpxPeriod := by unfold busCompletion; split <;> rfl
@[simp] theorem busCompletion_dacSample (s : State) : (busCompletion s).dacSample = s.dacSample := by unfold busCompletion; split <;> rfl
@[simp] theorem busCompletion_heartbeat (s : State) : (busCompletion s).heartbeat = s.heartbeat := by unfold busCompletion; split <;> rfl
@[simp] theorem busCompletion_idleHistory (s : State) : (busCompletion s).idleHistory = s.idleHistory := by unfold busCompletion; split <;> rfl
@[simp] theorem busCompletion_cfgStartAddress (s : State) : (busCompletion s).cfgStartAddress = s.cfgStartAddress := by unfold busCompletion; split <;> rfl
@[simp] theorem busCompletion_cfgChannelCount (s : State) : (busCompletion s).cfgChannelCount = s.cfgChannelCount := by unfold busCompletion; split <;> rfl
@[simp] theorem busCompletion_periodTrace (s : State) : (busCompletion s).periodTrace = s.periodTrace := by unfold busCompletion; split <;> rfl
@[simp] theorem busCompletion_deserTrace (s : State) : (busCompletion s).deserTrace = s.deserTrace := by unfold busCompletion; split <;> rfl

/-! ### `completeFrame`: the fields it never writes -/

@[simp] theorem completeFrame_params (s : State) : (completeFrame s).params = s.params := by unfold completeFrame; split <;> rfl
@[simp] theorem completeFrame_stimuli (s : State) : (completeFrame s).stimuli = s.stimuli := by unfold completeFrame; split <;> rfl
@[simp] theorem completeFrame_tickEnable (s : State) : (completeFrame s).tickEnable = s.tickEnable := by unfold completeFrame; split <;> rfl
@[simp] theorem completeFrame_idleRunLength (s : State) : (completeFrame s).idleRunLength = s.idleRunLength := by unfold completeFrame; split <;> rfl
@[simp] theorem completeFrame_breakConfirmed (s : State) : (completeFrame s).breakConfirmed = s.breakConfirmed := by unfold completeFrame; split <;> rfl
@[simp] theorem completeFrame_overrunPending (s : State) : (completeFrame s).overrunPending = s.overrunPending := by unfold completeFrame; split <;> rfl
@[simp] theorem completeFrame_addressSkipCount (s : State) : (completeFrame s).addressSkipCount = s.addressSkipCount := by unfold completeFrame; split <;> rfl
@[simp] theorem completeFrame_receivedCount (s : State) : (completeFrame s).receivedCount = s.receivedCount := by unfold completeFrame; split <;> rfl
@[simp] theorem completeFrame_frame (s : State) : (completeFrame s).frame = s.frame := by unfold completeFrame; split <;> rfl
@[simp] theorem completeFrame_rxActive (s : State) : (completeFrame s).rxActive = s.rxActive := by unfold completeFrame; split <;> rfl
@[simp] theorem completeFrame_mpxPhase (s : State) : (completeFrame s).mpxPhase = s.mpxPhase := by unfold completeFrame; split <;> rfl
@[simp] theorem completeFrame_outputChannelIndex (s : State) : (completeFrame s).outputChannelIndex = s.outputChannelIndex := by unfold completeFrame; split <;> rfl
@[simp] theorem completeFrame_mpxPeriod (s : State) : (completeFrame s).mpxPeriod = s.mpxPeriod := by unfold completeFrame; split <;> rfl
@[simp] theorem completeFrame_dacPhase (s : State) : (completeFrame s).dacPhase = s.dacPhase := by unfold completeFrame; split <;> rfl
@[simp] theorem completeFrame_dacSample (s : State) : (completeFrame s).dacSample = s.dacSample := by unfold completeFrame; split <;> rfl
@[simp] theorem completeFrame_heartbeat (s : State) : (completeFrame s).heartbeat = s.heartbeat := by unfold completeFrame; split <;> rfl
@[simp] theorem completeFrame_idleHistory (s : State) : (completeFrame s).idleHistory = s.idleHistory := by unfold completeFrame; split <;> rfl
@[simp] theorem completeFrame_cfgStartAddress (s : State) : (completeFrame s).cfgStartAddress = s.cfgStartAddress := by unfold completeFrame; split <;> rfl
@[simp] theorem completeFrame_cfgChannelCount (s : State) : (completeFrame s).cfgChannelCount = s.cfgChannelCount := by unfold completeFrame; split <;> rfl
@[simp] theorem completeFrame_busTrace (s : State) : (completeFrame s).busTrace = s.busTrace := by unfold completeFrame; split <;> rfl
@[simp] theorem completeFrame_periodTrace (s : State) : (completeFrame s).periodTrace = s.periodTrace := by unfold completeFrame; split <;> rfl
@[simp] theorem completeFrame_deserTrace (s : State) : (completeFrame s).deserTrace = s.deserTrace := by unfold completeFrame; split <;> rfl

/-! ### `latchLineError`: the fields it never writes -/

@[simp] theorem latchLineError_params (k : ErrorKind) (s : State) : (latchLineError k s).params = s.params := by cases k <;> rfl
@[simp] theorem latchLineError_stimuli (k : ErrorKind) (s : State) : (latchLineError k s).stimuli = s.stimuli := by cases k <;> rfl
@[simp] theorem latchLineError_tickEnable (k : ErrorKind) (s : State) : (latchLineError k s).tickEnable = s.tickEnable := by cases k <;> rfl
@[simp] theorem latchLineError_idleRunLength (k : ErrorKind) (s : State) : (latchLineError k s).idleRunLength = s.idleRunLength := by cases k <;> rfl
@[simp] theorem latchLineError_breakConfirmed (k : ErrorKind) (s : State) : (latchLineError k s).breakConfirmed = s.breakConfirmed := by cases k <;> rfl
@[simp] theorem latchLineError_rxIntEnable (k : ErrorKind) (s : State) : (latchLineError k s).rxIntEnable = s.rxIntEnable := by cases k <;> rfl
@[simp] theorem latchLineError_addressSkipCount (k : ErrorKind) (s : State) : (latchLineError k s).addressSkipCount = s.addressSkipCount := by cases k <;> rfl
@[simp] theorem latchLineError_receivedCount (k : ErrorKind) (s : State) : (latchLineError k s).receivedCount = s.receivedCount := by cases k <;> rfl
@[simp] theorem latchLineError_frame (k : ErrorKind) (s : State) : (latchLineError k s).frame = s.frame := by cases k <;> rfl
@[simp] theorem latchLineError_frameReady (k : ErrorKind) (s : State) : (latchLineError k s).frameReady = s.frameReady := by cases k <;> rfl
@[simp] theorem latchLineError_rxActive (k : ErrorKind) (s : State) : (latchLineError k s).rxActive = s.rxActive := by cases k <;> rfl
@[simp] theorem latchLineError_mpxPhase (k : ErrorKind) (s : State) : (latchLineError k s).mpxPhase = s.mpxPhase := by cases k <;> rfl
@[simp] theorem latchLineError_outputChannelIndex (k : ErrorKind) (s : State) : (latchLineError k s).outputChannelIndex = s.outputChannelIndex := by cases k <;> rfl
@[simp] theorem latchLineError_mpxPeriod (k : ErrorKind) (s : State) : (latchLineError k s).mpxPeriod = s.mpxPeriod := by cases k <;> rfl
@[simp] theorem latchLineError_dacPhase (k : ErrorKind) (s : State) : (latchLineError k s).dacPhase = s.dacPhase := by cases k <;> rfl
@[simp] theorem latchLineError_dacSample (k : ErrorKind) (s : State) : (latchLineError k s).dacSample = s.dacSample := by cases k <;> rfl
@[simp] theorem latchLineError_heartbeat (k : ErrorKind) (s : State) : (latchLineError k s).heartbeat = s.heartbeat := by cases k <;> rfl
@[simp] theorem latchLineError_idleHistory (k : ErrorKind) (s : State) : (latchLineError k s).idleHistory = s.idleHistory := by cases k <;> rfl
@[simp] theorem latchLineError_cfgStartAddress (k : ErrorKind) (s : State) : (latchLineError k s).cfgStartAddress = s.cfgStartAddress := by cases k <;> rfl
@[simp] theorem latchLineError_cfgChannelCount (k : ErrorKind) (s : State) : (latchLineError k s).cfgChannelCount = s.cfgChannelCount := by cases k <;> rfl
@[simp] theorem latchLineError_busTrace (k : ErrorKind) (s : State) : (latchLineError k s).busTrace = s.busTrace := by cases k <;> rfl
@[simp] theorem latchLineError_periodTrace (k : ErrorKind) (s : State) : (latchLineError k s).periodTrace = s.periodTrace := by cases k <;> rfl
@[simp] theorem latchLineError_deserTrace (k : ErrorKind) (s : State) : (latchLineError k s).deserTrace = s.deserTrace := by cases k <;> rfl

/-! ### `lineErrorReaction`: the fields it never writes -/

@[simp] theorem lineErrorReaction_params (k : ErrorKind) (s : State) : (lineErrorReaction k s).params = s.params := by cases k <;> rfl
@[simp] theorem lineErrorReaction_stimuli (k : ErrorKind) (s : State) : (lineErrorReaction k s).stimuli = s.stimuli := by cases k <;> rfl
@[simp] theorem lineErrorReaction_tickEnable (k : ErrorKind) (s : State) : (lineErrorReaction k s).tickEnable = s.tickEnable := by cases k <;> rfl
@[simp] theorem lineErrorReaction_idleRunLength (k : ErrorKind) (s : State) : (lineErrorReaction k s).idleRunLength = s.idleRunLength := by cases k <;> rfl
@[simp] theorem lineErrorReaction_breakConfirmed (k : ErrorKind) (s : State) : (lineErrorReaction k s).breakConfirmed = s.breakConfirmed := by cases k <;> rfl
@[simp] theorem lineErrorReaction_overrunPending (k : ErrorKind) (s : State) : (lineErrorReaction k s).overrunPending = s.overrunPending := by cases k <;> rfl
@[simp] theorem lineErrorReaction_addressSkipCount (k : ErrorKind) (s : State) : (lineErrorReaction k s).addressSkipCount = s.addressSkipCount := by cases k <;> rfl
@[simp] theorem lineErrorReaction_receivedCount (k : ErrorKind) (s : State) : (lineErrorReaction k s).receivedCount = s.receivedCount := by cases k <;> rfl
@[simp] theorem lineErrorReaction_frame (k : ErrorKind) (s : State) : (lineErrorReaction k s).frame = s.frame := by cases k <;> rfl
@[simp] theorem lineErrorReaction_mpxPhase (k : ErrorKind) (s : State) : (lineErrorReaction k s).mpxPhase = s.mpxPhase := by cases k <;> rfl
@[simp] theorem lineErrorReaction_outputChannelIndex (k : ErrorKind) (s : State) : (lineErrorReaction k s).outputChannelIndex = s.outputChannelIndex := by cases k <;> rfl
@[simp] theorem lineErrorReaction_mpxPeriod (k : ErrorKind) (s : State) : (lineErrorReaction k s).mpxPeriod = s.mpxPeriod := by cases k <;> rfl
@[simp] theorem lineErrorReaction_dacPhase (k : ErrorKind) (s : State) : (lineErrorReaction k s).dacPhase = s.dacPhase := by cases k <;> rfl
@[simp] theorem lineErrorReaction_dacSample (k : ErrorKind) (s : State) : (lineErrorReaction k s).dacSample = s.dacSample := by cases k <;> rfl
@[simp] theorem lineErrorReaction_heartbeat (k : ErrorKind) (s : State) : (lineErrorReaction k s).heartbeat = s.heartbeat := by cases k <;> rfl
@[simp] theorem lineErrorReaction_idleHistory (k : ErrorKind) (s : State) : (lineErrorReaction k s).idleHistory = s.idleHistory := by cases k <;> rfl
@[simp] theorem lineErrorReaction_cfgStartAddress (k : ErrorKind) (s : State) : (lineErrorReaction k s).cfgStartAddress = s.cfgStartAddress := by cases k <;> rfl
@[simp] theorem lineErrorReaction_cfgChannelCount (k : ErrorKind) (s : State) : (lineErrorReaction k s).cfgChannelCount = s.cfgChannelCount := by cases k <;> rfl
@[simp] theorem lineErrorReaction_busTrace (k : ErrorKind) (s : State) : (lineErrorReaction k s).busTrace = s.busTrace := by cases k <;> rfl
@[simp] theorem lineErrorReaction_periodTrace (k : ErrorKind) (s : State) : (lineErrorReaction k s).periodTrace = s.periodTrace := by cases k <;> rfl
@[simp] theorem lineErrorReaction_deserTrace (k : ErrorKind) (s : State) : (lineErrorReaction k s).deserTrace = s.deserTrace := by cases k <;> rfl

/-! ### `reactToLineError`: the fields it never writes -/

@[simp] theorem reactToLineError_params (k : ErrorKind) (s : State) : (reactToLineError k s).params = s.params := by unfold reactToLineError; split <;> cases k <;> rfl
@[simp] theorem reactToLineError_stimuli (k : ErrorKind) (s : State) : (reactToLineError k s).stimuli = s.stimuli := by unfold reactToLineError; split <;> cases k <;> rfl
@[simp] theorem reactToLineError_tickEnable (k : ErrorKind) (s : State) : (reactToLineError k s).tickEnable = s.tickEnable := by unfold reactToLineError; split <;> cases k <;> rfl
@[simp] theorem reactToLineError_idleRunLength (k : ErrorKind) (s : State) : (reactToLineError k s).idleRunLength = s.idleRunLength := by unfold reactToLineError; split <;> cases k <;> rfl
@[simp] theorem reactToLineError_breakConfirmed (k : ErrorKind) (s : State) : (reactToLineError k s).breakConfirmed = s.breakConfirmed := by unfold reactToLineError; split <;> cases k <;> rfl
@[simp] theorem reactToLineError_addressSkipCount (k : ErrorKind) (s : State) : (reactToLineError k s).addressSkipCount = s.addressSkipCount := by unfold reactToLineError; split <;> cases k <;> rfl
@[simp] theorem reactToLineError_receivedCount (k : ErrorKind) (s : State) : (reactToLineError k s).receivedCount = s.receivedCount := by unfold reactToLineError; split <;> cases k <;> rfl
@[simp] theorem reactToLineError_frame (k : ErrorKind) (s : State) : (reactToLineError k s).frame = s.frame := by unfold reactToLineError; split <;> cases k <;> rfl
@[simp] theorem reactToLineError_mpxPhase (k : ErrorKind) (s : State) : (reactToLineError k s).mpxPhase = s.mpxPhase := by unfold reactToLineError; split <;> cases k <;> rfl
@[simp] theorem reactToLineError_outputChannelIndex (k : ErrorKind) (s : State) : (reactToLineError k s).outputChannelIndex = s.outputChannelIndex := by unfold reactToLineError; split <;> cases k <;> rfl
@[simp] theorem reactToLineError_mpxPeriod (k : ErrorKind) (s : State) : (reactToLineError k s).mpxPeriod = s.mpxPeriod := by unfold reactToLineError; split <;> cases k <;> rfl
@[simp] theorem reactToLineError_dacPhase (k : ErrorKind) (s : State) : (reactToLineError k s).dacPhase = s.dacPhase := by unfold reactToLineError; split <;> cases k <;> rfl
@[simp] theorem reactToLineError_dacSample (k : ErrorKind) (s : State) : (reactToLineError k s).dacSample = s.dacSample := by unfold reactToLineError; split <;> cases k <;> rfl
@[simp] theorem reactToLineError_heartbeat (k : ErrorKind) (s : State) : (reactToLineError k s).heartbeat = s.heartbeat := by unfold reactToLineError; split <;> cases k <;> rfl
@[simp] theorem reactToLineError_idleHistory (k : ErrorKind) (s : State) : (reactToLineError k s).idleHistory = s.idleHistory := by unfold reactToLineError; split <;> cases k <;> rfl
@[simp] theorem reactToLineError_cfgStartAddress (k : ErrorKind) (s : State) : (reactToLineError k s).cfgStartAddress = s.cfgStartAddress := by unfold reactToLineError; split <;> cases k <;> rfl
@[simp] theorem reactToLineError_cfgChannelCount (k : ErrorKind) (s : State) : (reactToLineError k s).cfgChannelCount = s.cfgChannelCount := by unfold reactToLineError; split <;> cases k <;> rfl
@[simp] theorem reactToLineError_busTrace (k : ErrorKind) (s : State) : (reactToLineError k s).busTrace = s.busTrace := by unfold reactToLineError; split <;> cases k <;> rfl
@[simp] theorem reactToLineError_periodTrace (k : ErrorKind) (s : State) : (reactToLineError k s).periodTrace = s.periodTrace := by unfold reactToLineError; split <;> cases k <;> rfl
@[simp] theorem reactToLineError_deserTrace (k : ErrorKind) (s : State) : (reactToLineError k s).deserTrace = s.deserTrace := by unfold reactToLineError; split <;> cases k <;> rfl

/-! ### `sampleLine`: the fields it never writes -/

@[simp] theorem sampleLine_params (l : LineLevel) (s : State) : (sampleLine l s).params = s.params := by cases l; rfl; (unfold sampleLine; dsimp only; split <;> rfl)
@[simp] theorem sampleLine_stimuli (l : LineLevel) (s : State) : (sampleLine l s).stimuli = s.stimuli := by cases l; rfl; (unfold sampleLine; dsimp only; split <;> rfl)
@[simp] theorem sampleLine_addressSkipCount (l : LineLevel) (s : State) : (sampleLine l s).addressSkipCount = s.addressSkipCount := by cases l; rfl; (unfold sampleLine; dsimp only; split <;> rfl)
@[simp] theorem sampleLine_receivedCount (l : LineLevel) (s : State) : (sampleLine l s).receivedCount = s.receivedCount := by cases l; rfl; (unfold sampleLine; dsimp only; split <;> rfl)
@[simp] theorem sampleLine_frame (l : LineLevel) (s : State) : (sampleLine l s).frame = s.frame := by cases l; rfl; (unfold sampleLine; dsimp only; split <;> rfl)
@[simp] theorem sampleLine_frameReady (l : LineLevel) (s : State) : (sampleLine l s).frameReady = s.frameReady := by cases l; rfl; (unfold sampleLine; dsimp only; split <;> rfl)
@[simp] theorem sampleLine_rxActive (l : LineLevel) (s : State) : (sampleLine l s).rxActive = s.rxActive := by cases l; rfl; (unfold sampleLine; dsimp only; split <;> rfl)
@[simp] theorem sampleLine_mpxPhase (l : LineLevel) (s : State) : (sampleLine l s).mpxPhase = s.mpxPhase := by cases l; rfl; (unfold sampleLine; dsimp only; split <;> rfl)
@[simp] theorem sampleLine_outputChannelIndex (l : LineLevel) (s : State) : (sampleLine l s).outputChannelIndex = s.outputChannelIndex := by cases l; rfl; (unfold sampleLine; dsimp only; split <;> rfl)
@[simp] theorem sampleLine_mpxPeriod (l : LineLevel) (s : State) : (sampleLine l s).mpxPeriod = s.mpxPeriod := by cases l; rfl; (unfold sampleLine; dsimp only; split <;> rfl)
@[simp] theorem sampleLine_dacPhase (l : LineLevel) (s : State) : (sampleLine l s).dacPhase = s.dacPhase := by cases l; rfl; (unfold sampleLine; dsimp only; split <;> rfl)
@[simp] theorem sampleLine_dacSample (l : LineLevel) (s : State) : (sampleLine l s).dacSample = s.dacSample := by cases l; rfl; (unfold sampleLine; dsimp only; split <;> rfl)
@[simp] theorem sampleLine_heartbeat (l : LineLevel) (s : State) : (sampleLine l s).heartbeat = s.heartbeat := by cases l; rfl; (unfold sampleLine; dsimp only; split <;> rfl)
@[simp] theorem sampleLine_idleHistory (l : LineLevel) (s : State) : (sampleLine l s).idleHistory = s.idleHistory := by cases l; rfl; (unfold sampleLine; dsimp only; split <;> rfl)
@[simp] theorem sampleLine_cfgStartAddress (l : LineLevel) (s : State) : (sampleLine l s).cfgStartAddress = s.cfgStartAddress := by cases l; rfl; (unfold sampleLine; dsimp only; split <;> rfl)
@[simp] theorem sampleLine_cfgChannelCount (l : LineLevel) (s : State) : (sampleLine l s).cfgChannelCount = s.cfgChannelCount := by cases l; rfl; (unfold sampleLine; dsimp only; split <;> rfl)
@[simp] theorem sampleLine_busTrace (l : LineLevel) (s : State) : (sampleLine l s).busTrace = s.busTrace := by cases l; rfl; (unfold sampleLine; dsimp only; split <;> rfl)
@[simp] theorem sampleLine_periodTrace (l : LineLevel) (s : State) : (sampleLine l s).periodTrace = s.periodTrace := by cases l; rfl; (unfold sampleLine; dsimp only; split <;> rfl)

end Sys2Proof.Machine
end

