-- ==== Sys2Proof/Laws/Memory.lean ====
section
/-!
SUPPORT. The frame buffer as data: read after write, other indices unchanged, and every write keeps the canonical form
and the range of the listed indices.
-/

namespace Sys2Proof.Machine

theorem Memory.lookup_put_same (m : Memory) (i : Nat) (b : Byte) : Memory.lookup (Memory.put m i b) i = some b := by
  induction m with
  | nil => simp [Memory.put, Memory.lookup]
  | cons c m ih =>
    obtain ⟨a, v⟩ := c
    by_cases h1 : i < a
    · simp [Memory.put, Memory.lookup, h1]
    · by_cases h2 : i = a
      · simp [Memory.put, Memory.lookup, h2]
      · simp [Memory.put, Memory.lookup, h1, h2, ih, Ne.symm h2]

theorem Memory.lookup_put_other (m : Memory) (i j : Nat) (b : Byte) (h : j ≠ i) :
    Memory.lookup (Memory.put m i b) j = Memory.lookup m j := by
  induction m with
  | nil => simp [Memory.put, Memory.lookup, Ne.symm h]
  | cons c m ih =>
    obtain ⟨a, v⟩ := c
    by_cases h1 : i < a
    · simp [Memory.put, Memory.lookup, h1, Ne.symm h]
    · by_cases h2 : i = a
      · subst h2
        simp [Memory.put, Memory.lookup, Ne.symm h]
      · simp [Memory.put, Memory.lookup, h1, h2, ih]

theorem Memory.lookup_drop_same (m : Memory) (i : Nat) : Memory.lookup (Memory.drop m i) i = none := by
  induction m with
  | nil => rfl
  | cons c m ih =>
    obtain ⟨a, v⟩ := c
    by_cases h : a = i
    · simp [Memory.drop, h, ih]
    · simp [Memory.drop, Memory.lookup, h, ih]

theorem Memory.lookup_drop_other (m : Memory) (i j : Nat) (h : j ≠ i) :
    Memory.lookup (Memory.drop m i) j = Memory.lookup m j := by
  induction m with
  | nil => rfl
  | cons c m ih =>
    obtain ⟨a, v⟩ := c
    by_cases h1 : a = i
    · subst h1
      simp [Memory.drop, Memory.lookup, Ne.symm h, ih]
    · simp [Memory.drop, Memory.lookup, h1, ih]

/-- Reading an index just written gives the byte written. -/
@[simp] theorem Memory.read_write_same (init : Nat → Byte) (m : Memory) (i : Nat) (b : Byte) :
    Memory.read init (Memory.write init m i b) i = b := by
  by_cases h : b = init i
  · simp [Memory.write, Memory.read, h, Memory.lookup_drop_same]
  · simp [Memory.write, Memory.read, h, Memory.lookup_put_same]

/-- A write leaves every other index as it was (20_memory.md R65). -/
theorem Memory.read_write_other (init : Nat → Byte) (m : Memory) (i j : Nat) (b : Byte) (h : j ≠ i) :
    Memory.read init (Memory.write init m i b) j = Memory.read init m j := by
  by_cases h1 : b = init i
  · simp [Memory.write, Memory.read, h1, Memory.lookup_drop_other m i j h]
  · simp [Memory.write, Memory.read, h1, Memory.lookup_put_other m i j b h]

theorem Memory.wfAbove_mono (init : Nat → Byte) (m : Memory) (a b : Nat) (h : a ≤ b)
    (hm : Memory.wfAbove init b m = true) : Memory.wfAbove init a m = true := by
  cases m with
  | nil => rfl
  | cons c m =>
    simp only [Memory.wfAbove, Bool.and_eq_true, decide_eq_true_eq] at hm ⊢
    exact ⟨⟨by omega, hm.1.2⟩, hm.2⟩

theorem Memory.wfAbove_put (init : Nat → Byte) (m : Memory) (low i : Nat) (b : Byte) (hl : low < i) (hb : b ≠ init i)
    (hm : Memory.wfAbove init low m = true) : Memory.wfAbove init low (Memory.put m i b) = true := by
  induction m generalizing low with
  | nil => simp [Memory.put, Memory.wfAbove, hl, hb]
  | cons c m ih =>
    obtain ⟨a, v⟩ := c
    simp only [Memory.wfAbove, Bool.and_eq_true, decide_eq_true_eq] at hm
    by_cases h1 : i < a
    · simp [Memory.put, Memory.wfAbove, h1, hl, hb, hm.1.2, hm.2]
    · by_cases h2 : i = a
      · subst h2
        simp [Memory.put, Memory.wfAbove, hl, hb, hm.2]
      · have h3 : a < i := by omega
        simp [Memory.put, Memory.wfAbove, h1, h2, hm.1.1, hm.1.2, ih a h3 hm.2]

theorem Memory.wfAbove_drop (init : Nat → Byte) (m : Memory) (low i : Nat)
    (hm : Memory.wfAbove init low m = true) : Memory.wfAbove init low (Memory.drop m i) = true := by
  induction m generalizing low with
  | nil => rfl
  | cons c m ih =>
    obtain ⟨a, v⟩ := c
    simp only [Memory.wfAbove, Bool.and_eq_true, decide_eq_true_eq] at hm
    by_cases h1 : a = i
    · simp [Memory.drop, h1, ih low (Memory.wfAbove_mono init m low a (by omega) hm.2)]
    · simp [Memory.drop, Memory.wfAbove, h1, hm.1.1, hm.1.2, ih a hm.2]

theorem Memory.wf_of_wfAbove (init : Nat → Byte) (m : Memory) (low : Nat) (hm : Memory.wfAbove init low m = true) :
    Memory.wf init m = true := by
  cases m with
  | nil => rfl
  | cons c m =>
    simp only [Memory.wfAbove, Bool.and_eq_true, decide_eq_true_eq] at hm
    simp [Memory.wf, hm.1.2, hm.2]

theorem Memory.wf_put (init : Nat → Byte) (m : Memory) (i : Nat) (b : Byte) (hb : b ≠ init i)
    (hm : Memory.wf init m = true) : Memory.wf init (Memory.put m i b) = true := by
  cases m with
  | nil => simp [Memory.put, Memory.wf, Memory.wfAbove, hb]
  | cons c m =>
    obtain ⟨a, v⟩ := c
    simp only [Memory.wf, Bool.and_eq_true, decide_eq_true_eq] at hm
    by_cases h1 : i < a
    · simp [Memory.put, Memory.wf, Memory.wfAbove, h1, hb, hm.1, hm.2]
    · by_cases h2 : i = a
      · subst h2
        simp [Memory.put, Memory.wf, hb, hm.2]
      · have h3 : a < i := by omega
        simp [Memory.put, Memory.wf, h1, h2, hm.1, Memory.wfAbove_put init m a i b h3 hb hm.2]

theorem Memory.wf_drop (init : Nat → Byte) (m : Memory) (i : Nat)
    (hm : Memory.wf init m = true) : Memory.wf init (Memory.drop m i) = true := by
  cases m with
  | nil => rfl
  | cons c m =>
    obtain ⟨a, v⟩ := c
    simp only [Memory.wf, Bool.and_eq_true, decide_eq_true_eq] at hm
    by_cases h1 : a = i
    · simp only [Memory.drop, h1, if_true]
      exact Memory.wf_of_wfAbove init _ a (Memory.wfAbove_drop init m a i hm.2)
    · simp [Memory.drop, Memory.wf, h1, hm.1, Memory.wfAbove_drop init m a i hm.2]

/-- A write keeps the canonical form. -/
theorem Memory.wf_write (init : Nat → Byte) (m : Memory) (i : Nat) (b : Byte)
    (hm : Memory.wf init m = true) : Memory.wf init (Memory.write init m i b) = true := by
  by_cases h : b = init i
  · simp only [Memory.write, h, if_true]
    exact Memory.wf_drop init m i hm
  · simp only [Memory.write, h, if_false]
    exact Memory.wf_put init m i b h hm

theorem Memory.within_put (top : Nat) (m : Memory) (i : Nat) (b : Byte) (hi : i ≤ top)
    (hm : Memory.within top m = true) : Memory.within top (Memory.put m i b) = true := by
  induction m with
  | nil => simp [Memory.put, Memory.within, hi]
  | cons c m ih =>
    obtain ⟨a, v⟩ := c
    simp only [Memory.within, List.all_cons, Bool.and_eq_true, decide_eq_true_eq] at hm ih
    by_cases h1 : i < a
    · simp only [Memory.put, h1, if_true, Memory.within, List.all_cons, Bool.and_eq_true, decide_eq_true_eq]
      exact ⟨hi, hm⟩
    · by_cases h2 : i = a
      · simp only [Memory.put, h2, if_true, if_false, Memory.within, List.all_cons, Bool.and_eq_true,
          decide_eq_true_eq, lt_irrefl]
        exact hm
      · simp only [Memory.put, h1, h2, if_false, Memory.within, List.all_cons, Bool.and_eq_true, decide_eq_true_eq]
        exact ⟨hm.1, ih hm.2⟩

theorem Memory.within_drop (top : Nat) (m : Memory) (i : Nat)
    (hm : Memory.within top m = true) : Memory.within top (Memory.drop m i) = true := by
  induction m with
  | nil => rfl
  | cons c m ih =>
    obtain ⟨a, v⟩ := c
    simp only [Memory.within, List.all_cons, Bool.and_eq_true, decide_eq_true_eq] at hm ih
    by_cases h1 : a = i
    · simp only [Memory.drop, h1, if_true]
      exact ih hm.2
    · simp only [Memory.drop, h1, if_false, Memory.within, List.all_cons, Bool.and_eq_true, decide_eq_true_eq]
      exact ⟨hm.1, ih hm.2⟩

/-- A write at an index that exists lists only indices that exist. -/
theorem Memory.within_write (init : Nat → Byte) (top : Nat) (m : Memory) (i : Nat) (b : Byte) (hi : i ≤ top)
    (hm : Memory.within top m = true) : Memory.within top (Memory.write init m i b) = true := by
  by_cases h : b = init i
  · simp only [Memory.write, h, if_true]
    exact Memory.within_drop top m i hm
  · simp only [Memory.write, h, if_false]
    exact Memory.within_put top m i b hi hm

/-- Right after reset nothing is listed, and that is canonical. -/
theorem State.resetWith_frame_wf (p : Params) : Memory.wf p.initByte (State.resetWith p).frame = true := rfl

theorem State.reset_frame_wf : Memory.wf State.reset.params.initByte State.reset.frame = true := rfl

end Sys2Proof.Machine
end

