-- ==== Sys2Proof/Laws/Ops.lean ====
section
/-!
SUPPORT. For each shared operation, one lemma that says everything it can do; later proofs cite these and do not unfold
the operation.
-/

namespace Sys2Proof.Machine

/-! ### Frame buffer -/

/-- A read answers the byte at an index that exists, and nothing at any other. -/
theorem frameRead_of_le {s : State} {i : Nat} (h : i ≤ s.params.frameTop) : frameRead s i = some (s.frameByte i) := by
  simp [frameRead, h]

theorem frameRead_of_gt {s : State} {i : Nat} (h : s.params.frameTop < i) : frameRead s i = none := by
  simp [frameRead, Nat.not_le.mpr h]

theorem frameRead_some {s : State} {i : Nat} {v : Byte} (h : frameRead s i = some v) :
    i ≤ s.params.frameTop ∧ v = s.frameByte i := by
  unfold frameRead at h
  split at h
  · exact ⟨‹_›, (Option.some.inj h).symm⟩
  · cases h

/-- A write at an index that exists changes the frame buffer only. -/
theorem frameWrite_of_le {s : State} {i : Nat} {v : Byte} (h : i ≤ s.params.frameTop) :
    frameWrite s i v = some { s with frame := Memory.write s.params.initByte s.frame i v } := by
  simp [frameWrite, h]

theorem frameWrite_of_gt {s : State} {i : Nat} {v : Byte} (h : s.params.frameTop < i) : frameWrite s i v = none := by
  simp [frameWrite, Nat.not_le.mpr h]

theorem frameWrite_some {s t : State} {i : Nat} {v : Byte} (h : frameWrite s i v = some t) :
    i ≤ s.params.frameTop ∧ t = { s with frame := Memory.write s.params.initByte s.frame i v } := by
  unfold frameWrite at h
  split at h
  · exact ⟨‹_›, (Option.some.inj h).symm⟩
  · cases h

/-- What a frame-buffer write leaves at each index. -/
theorem frameWrite_frameByte {s t : State} {i : Nat} {v : Byte} (h : frameWrite s i v = some t) (j : Nat) :
    t.frameByte j = if j = i then v else s.frameByte j := by
  obtain ⟨-, rfl⟩ := frameWrite_some h
  by_cases hj : j = i
  · subst hj
    simp [State.frameByte]
  · simp [State.frameByte, hj, Memory.read_write_other _ _ _ _ _ hj]

/-- The byte at an index depends on the parameters and the frame buffer alone. -/
theorem frameByte_congr {s t : State} (hp : t.params = s.params) (hf : t.frame = s.frame) (i : Nat) :
    t.frameByte i = s.frameByte i := by
  simp [State.frameByte, hp, hf]

/-! ### DAC Transaction Driver -/

/-- Everything `DacRequest` can do: accept in `Idle`, drop otherwise (44_dac_driver.md R170, R171). -/
theorem dacRequest_cases (x : Sample) (s : State) :
    (s.dacPhase = .idle ∧
      dacRequest x s = { s with dacSample := x, dacPhase := .startRequested, busTrace := s.busTrace ++ [.start] }) ∨
    (s.dacPhase ≠ .idle ∧ dacRequest x s = s) := by
  unfold dacRequest
  cases h : s.dacPhase <;> simp [emitBus, enterDacPhase, latchSample]

theorem dacRequest_idle {s : State} (x : Sample) (h : s.dacPhase = .idle) :
    dacRequest x s = { s with dacSample := x, dacPhase := .startRequested, busTrace := s.busTrace ++ [.start] } := by
  simp [dacRequest, h, emitBus, enterDacPhase, latchSample]

theorem dacRequest_busy {s : State} (x : Sample) (h : s.dacPhase ≠ .idle) : dacRequest x s = s := by
  cases h' : s.dacPhase <;> simp_all [dacRequest]

/-- Everything a bus completion can do, one case per phase (44_dac_driver.md R172 to R177). -/
theorem busCompletion_cases (s : State) :
    (s.dacPhase = .idle ∧ busCompletion s = s) ∨
    (s.dacPhase = .startRequested ∧ busCompletion s = sendAddressByte s) ∨
    (s.dacPhase = .addressSent ∧ busCompletion s = sendHighByte s) ∨
    (s.dacPhase = .highNibbleSent ∧ busCompletion s = sendLowByte s) ∨
    (s.dacPhase = .lowByteSent ∧ busCompletion s = requestStop s) ∨
    (s.dacPhase = .stopRequested ∧ busCompletion s = endTransaction s) := by
  unfold busCompletion
  cases h : s.dacPhase <;> simp

/-! ### Frame Receiver -/

/-- Everything a line error can do (41_frame_receiver.md R124 to R127). -/
theorem reactToLineError_cases (k : ErrorKind) (s : State) :
    (k = .overrun ∧ s.rxIntEnable = true ∧ reactToLineError k s = abandonAttempt (latchOverrun s)) ∨
    (k = .overrun ∧ s.rxIntEnable = false ∧ reactToLineError k s = latchOverrun s) ∨
    (k ≠ .overrun ∧ s.rxIntEnable = true ∧ reactToLineError k s = clearActivity s) ∨
    (k ≠ .overrun ∧ s.rxIntEnable = false ∧ reactToLineError k s = s) := by
  cases k <;> cases h : s.rxIntEnable <;> simp [reactToLineError, latchLineError, lineErrorReaction, h]

/-- Everything completion can do after a store (41_frame_receiver.md R123). -/
theorem completeFrame_cases (s : State) :
    (s.cfgChannelCount + 1 ≤ s.receivedCount ∧ completeFrame s = finishFrame s) ∨
    (s.receivedCount < s.cfgChannelCount + 1 ∧ completeFrame s = s) := by
  by_cases h : s.cfgChannelCount + 1 ≤ s.receivedCount
  · exact .inl ⟨h, by simp [completeFrame, frameComplete, h]⟩
  · exact .inr ⟨by omega, by simp [completeFrame, frameComplete, h]⟩

/-- The state after a store, before the completion test (41_frame_receiver.md R122): the frame buffer, the cursor and the
receiving indicator change. -/
def stored (b : Byte) (s : State) : State :=
  { s with
    frame := Memory.write s.params.initByte s.frame s.receivedCount b, receivedCount := s.receivedCount + 1,
    rxActive := true }

@[simp] theorem stored_params (b : Byte) (s : State) : (stored b s).params = s.params := rfl
@[simp] theorem stored_stimuli (b : Byte) (s : State) : (stored b s).stimuli = s.stimuli := rfl
@[simp] theorem stored_tickEnable (b : Byte) (s : State) : (stored b s).tickEnable = s.tickEnable := rfl
@[simp] theorem stored_idleRunLength (b : Byte) (s : State) : (stored b s).idleRunLength = s.idleRunLength := rfl
@[simp] theorem stored_breakConfirmed (b : Byte) (s : State) : (stored b s).breakConfirmed = s.breakConfirmed := rfl
@[simp] theorem stored_rxIntEnable (b : Byte) (s : State) : (stored b s).rxIntEnable = s.rxIntEnable := rfl
@[simp] theorem stored_overrunPending (b : Byte) (s : State) : (stored b s).overrunPending = s.overrunPending := rfl
@[simp] theorem stored_addressSkipCount (b : Byte) (s : State) : (stored b s).addressSkipCount = s.addressSkipCount := rfl
@[simp] theorem stored_receivedCount (b : Byte) (s : State) : (stored b s).receivedCount = s.receivedCount + 1 := rfl
@[simp] theorem stored_frame (b : Byte) (s : State) : (stored b s).frame = Memory.write s.params.initByte s.frame s.receivedCount b := rfl
@[simp] theorem stored_frameReady (b : Byte) (s : State) : (stored b s).frameReady = s.frameReady := rfl
@[simp] theorem stored_rxActive (b : Byte) (s : State) : (stored b s).rxActive = true := rfl
@[simp] theorem stored_mpxPhase (b : Byte) (s : State) : (stored b s).mpxPhase = s.mpxPhase := rfl
@[simp] theorem stored_outputChannelIndex (b : Byte) (s : State) : (stored b s).outputChannelIndex = s.outputChannelIndex := rfl
@[simp] theorem stored_mpxPeriod (b : Byte) (s : State) : (stored b s).mpxPeriod = s.mpxPeriod := rfl
@[simp] theorem stored_dacPhase (b : Byte) (s : State) : (stored b s).dacPhase = s.dacPhase := rfl
@[simp] theorem stored_dacSample (b : Byte) (s : State) : (stored b s).dacSample = s.dacSample := rfl
@[simp] theorem stored_heartbeat (b : Byte) (s : State) : (stored b s).heartbeat = s.heartbeat := rfl
@[simp] theorem stored_idleHistory (b : Byte) (s : State) : (stored b s).idleHistory = s.idleHistory := rfl
@[simp] theorem stored_cfgStartAddress (b : Byte) (s : State) : (stored b s).cfgStartAddress = s.cfgStartAddress := rfl
@[simp] theorem stored_cfgChannelCount (b : Byte) (s : State) : (stored b s).cfgChannelCount = s.cfgChannelCount := rfl
@[simp] theorem stored_busTrace (b : Byte) (s : State) : (stored b s).busTrace = s.busTrace := rfl
@[simp] theorem stored_periodTrace (b : Byte) (s : State) : (stored b s).periodTrace = s.periodTrace := rfl
@[simp] theorem stored_deserTrace (b : Byte) (s : State) : (stored b s).deserTrace = s.deserTrace := rfl

/-- What a store leaves at each index. -/
theorem stored_frameByte (b : Byte) (s : State) (j : Nat) :
    (stored b s).frameByte j = if j = s.receivedCount then b else s.frameByte j := by
  by_cases hj : j = s.receivedCount
  · subst hj
    simp [State.frameByte, stored]
  · simp [State.frameByte, stored, hj, Memory.read_write_other _ _ _ _ _ hj]

/-- Everything a store can do: go on with the attempt, complete it, or the model's fault where there is no such index
(41_frame_receiver.md R122, R123). -/
theorem storeByte_cases (b : Byte) (s : State) :
    (s.receivedCount ≤ s.params.frameTop ∧ s.receivedCount < s.cfgChannelCount ∧
      storeByte b s = .next (stored b s)) ∨
    (s.receivedCount ≤ s.params.frameTop ∧ s.cfgChannelCount ≤ s.receivedCount ∧
      storeByte b s = .next (finishFrame (stored b s))) ∨
    (s.params.frameTop < s.receivedCount ∧ storeByte b s = .fault (.frameIndexOutOfRange s.receivedCount)) := by
  by_cases hi : s.receivedCount ≤ s.params.frameTop
  · have e : storeByte b s = .next (completeFrame (stored b s)) := by
      simp only [storeByte, frameWrite_of_le hi]
      rfl
    rcases completeFrame_cases (stored b s) with ⟨hc, hs⟩ | ⟨hc, hs⟩
    · exact .inr (.inl ⟨hi, Nat.le_of_succ_le_succ hc, by rw [e, hs]⟩)
    · exact .inl ⟨hi, Nat.lt_of_succ_lt_succ hc, by rw [e, hs]⟩
  · have hi' := Nat.lt_of_not_le hi
    exact .inr (.inr ⟨hi', by simp only [storeByte, frameWrite_of_gt hi']⟩)

/-- Everything a received byte can do: lost while disabled, discarded inside the skip window, stored past it
(41_frame_receiver.md R120 to R122). -/
theorem execRxByte_cases (b : Byte) (s : State) :
    (s.rxIntEnable = false ∧ execRxByte b s = .next s) ∨
    (s.rxIntEnable = true ∧ (s.addressSkipCount + 1).toNat ≤ s.cfgStartAddress.toNat ∧
      execRxByte b s = .next (countByte s)) ∨
    (s.rxIntEnable = true ∧ s.cfgStartAddress.toNat < (s.addressSkipCount + 1).toNat ∧
      execRxByte b s = storeByte b (countByte s)) := by
  cases hr : s.rxIntEnable with
  | false => exact .inl ⟨rfl, by simp [execRxByte, hr]⟩
  | true =>
    by_cases hw : (s.addressSkipCount + 1).toNat ≤ s.cfgStartAddress.toNat
    · exact .inr (.inl ⟨rfl, hw, by
        simp only [execRxByte, hr, if_true, placeByte, inSkipWindow, countByte_addressSkipCount,
          countByte_cfgStartAddress, hw, decide_true]⟩)
    · exact .inr (.inr ⟨rfl, Nat.lt_of_not_le hw, by
        simp only [execRxByte, hr, if_true, placeByte, inSkipWindow, countByte_addressSkipCount,
          countByte_cfgStartAddress, hw, decide_false, Bool.false_eq_true, if_false]⟩)

/-- Everything a received byte can do when it answers a next state. -/
theorem execRxByte_next {b : Byte} {s t : State} (h : execRxByte b s = .next t) :
    (s.rxIntEnable = false ∧ t = s) ∨
    (s.rxIntEnable = true ∧ (s.addressSkipCount + 1).toNat ≤ s.cfgStartAddress.toNat ∧ t = countByte s) ∨
    (s.rxIntEnable = true ∧ s.cfgStartAddress.toNat < (s.addressSkipCount + 1).toNat ∧
      s.receivedCount ≤ s.params.frameTop ∧ s.receivedCount < s.cfgChannelCount ∧ t = stored b (countByte s)) ∨
    (s.rxIntEnable = true ∧ s.cfgStartAddress.toNat < (s.addressSkipCount + 1).toNat ∧
      s.receivedCount ≤ s.params.frameTop ∧ s.cfgChannelCount ≤ s.receivedCount ∧
      t = finishFrame (stored b (countByte s))) := by
  rcases execRxByte_cases b s with ⟨hr, e⟩ | ⟨hr, hw, e⟩ | ⟨hr, hw, e⟩
  · exact .inl ⟨hr, (Host.Outcome.next.inj (e.symm.trans h)).symm⟩
  · exact .inr (.inl ⟨hr, hw, (Host.Outcome.next.inj (e.symm.trans h)).symm⟩)
  · rw [e] at h
    rcases storeByte_cases b (countByte s) with ⟨hi, hc, e'⟩ | ⟨hi, hc, e'⟩ | ⟨-, e'⟩
    · exact .inr (.inr (.inl ⟨hr, hw, hi, hc, (Host.Outcome.next.inj (e'.symm.trans h)).symm⟩))
    · exact .inr (.inr (.inr ⟨hr, hw, hi, hc, (Host.Outcome.next.inj (e'.symm.trans h)).symm⟩))
    · cases e'.symm.trans h

/-! ### MPX Generator -/

/-- Reading a level either goes on with its code or is the model's fault. -/
theorem withLevel_of_le {i : Nat} {s : State} {k : Sample → State} (h : i ≤ s.params.frameTop) :
    withLevel i s k = .next (k (levelSample (s.frameByte i))) := by
  simp [withLevel, frameRead_of_le h]

theorem withLevel_of_gt {i : Nat} {s : State} {k : Sample → State} (h : s.params.frameTop < i) :
    withLevel i s k = .fault (.frameIndexOutOfRange i) := by
  simp [withLevel, frameRead_of_gt h]

theorem withLevel_next {i : Nat} {s t : State} {k : Sample → State} (h : withLevel i s k = .next t) :
    i ≤ s.params.frameTop ∧ t = k (levelSample (s.frameByte i)) := by
  by_cases hi : i ≤ s.params.frameTop
  · rw [withLevel_of_le hi] at h
    exact ⟨hi, (Host.Outcome.next.inj h).symm⟩
  · rw [withLevel_of_gt (Nat.lt_of_not_le hi)] at h
    cases h

/-- Everything MPXTICK can do when it answers a next state, one case per rule R151 to R155. -/
theorem execMpxTick_cases {s t : State} (h : execMpxTick s = .next t) :
    (s.mpxPhase = .emitFirstLevel ∧ 1 ≤ s.params.frameTop ∧
      t = enterMpxPhase .emitSync (selectChannel 2
        (dacRequest (levelSample (s.frameByte 1)) (programPeriod .short s)))) ∨
    (s.mpxPhase = .emitSync ∧ t = enterMpxPhase .emitNextLevel (dacRequest syncSample s)) ∨
    (s.mpxPhase = .emitNextLevel ∧ s.outputChannelIndex ≤ s.params.frameTop ∧ s.outputChannelIndex < s.params.maxOut ∧
      t = enterMpxPhase .emitSync (selectChannel (s.outputChannelIndex + 1)
        (dacRequest (levelSample (s.frameByte s.outputChannelIndex)) s))) ∨
    (s.mpxPhase = .emitNextLevel ∧ s.outputChannelIndex ≤ s.params.frameTop ∧ s.params.maxOut ≤ s.outputChannelIndex ∧
      t = enterMpxPhase .emitLongSync (selectChannel 1
        (dacRequest (levelSample (s.frameByte s.outputChannelIndex)) s))) ∨
    (s.mpxPhase = .emitLongSync ∧
      t = enterMpxPhase .emitFirstLevel (dacRequest syncSample (programPeriod .long s))) := by
  cases hp : s.mpxPhase with
  | emitFirstLevel =>
    simp only [execMpxTick, hp, emitFirstLevel] at h
    obtain ⟨hi, rfl⟩ := withLevel_next h
    exact .inl ⟨rfl, hi, rfl⟩
  | emitSync =>
    simp only [execMpxTick, hp] at h
    exact .inr (.inl ⟨rfl, (Host.Outcome.next.inj h).symm⟩)
  | emitNextLevel =>
    simp only [execMpxTick, hp, emitNextLevel] at h
    obtain ⟨hi, rfl⟩ := withLevel_next h
    by_cases hc : s.outputChannelIndex < s.params.maxOut
    · exact .inr (.inr (.inl ⟨rfl, hi, hc, by simp [channelsRemain, hc]⟩))
    · exact .inr (.inr (.inr (.inl ⟨rfl, hi, by omega, by simp [channelsRemain, hc]⟩)))
  | emitLongSync =>
    simp only [execMpxTick, hp] at h
    exact .inr (.inr (.inr (.inr ⟨rfl, (Host.Outcome.next.inj h).symm⟩)))

/-! ### Link Activity Supervisor and configuration port -/

/-- Everything SUPTICK can do (45_link_supervisor.md R190). -/
theorem execSupTick_cases (r : Bool) (s : State) :
    (r = true ∧ supIdleLimit < s.idleHistory.toNat ∧ execSupTick r s = .next (declareIdle (toggleHeartbeat s))) ∨
    ((r = false ∨ s.idleHistory.toNat ≤ supIdleLimit) ∧ execSupTick r s = .next (countPeriod (toggleHeartbeat s))) := by
  by_cases h : r = true ∧ supIdleLimit < s.idleHistory.toNat
  · exact .inl ⟨h.1, h.2, by simp [execSupTick, idleTooLong, h.1, h.2]⟩
  · refine .inr ⟨?_, ?_⟩
    · cases r
      · exact .inl rfl
      · exact .inr (Nat.le_of_not_lt fun hl => h ⟨rfl, hl⟩)
    · have : idleTooLong r s.idleHistory = false := by
        cases r <;> simp_all [idleTooLong]
      simp [execSupTick, this]

theorem execCfgAddr_next {a : BitVec 10} {s t : State} (h : execCfgAddr a s = .next t) :
    a.toNat ≤ startMax ∧ t = { s with cfgStartAddress := a } := by
  unfold execCfgAddr at h
  split at h
  · exact ⟨‹_›, (Host.Outcome.next.inj h).symm⟩
  · cases h

theorem execCfgCnt_next {n : BitVec 10} {s t : State} (h : execCfgCnt n s = .next t) :
    n.toNat ≤ s.params.maxCh ∧ t = { s with cfgChannelCount := n.toNat } := by
  unfold execCfgCnt at h
  split at h
  · exact ⟨‹_›, (Host.Outcome.next.inj h).symm⟩
  · cases h

/-! ### Taking the next stimulus -/

/-- Everything one step can do (00_scope.md R8, 30_encoding.md R92, R94). -/
theorem step_cases (s : State) :
    (s.params.ok = false ∧ step s = .refused .parametersOutOfRange) ∨
    (s.params.ok = true ∧ s.stimuli = [] ∧ step s = .next s) ∨
    (s.params.ok = true ∧ ∃ c rest, s.stimuli = c :: rest ∧
      step s = runCodeWord c (withStimuli rest s)) := by
  cases hp : s.params.ok with
  | false => exact .inl ⟨rfl, by simp [step, guardParameters, hp]⟩
  | true =>
    cases hs : s.stimuli with
    | nil => exact .inr (.inl ⟨rfl, rfl, by simp [step, guardParameters, hp, handleNext, takeStimulus, hs]⟩)
    | cons c rest =>
      exact .inr (.inr ⟨rfl, c, rest, rfl, by simp [step, guardParameters, hp, handleNext, takeStimulus, hs]⟩)

end Sys2Proof.Machine
end

