-- ==== Sys2Proof/Laws/PerInstr.lean ====
section
/-!
SUPPORT. The per-instruction family `RowSpelling`: an operation's encoding has the width and the fixed bits of its own
row of spec/opcode_table.json.
-/

namespace Sys2Proof.Laws

/-- The encoding of the operation is a word that its own row of the table spells. -/
def RowSpelling.Statement (i : Instr) : Prop := spelledByOwnRow i = true

theorem RowSpelling.reset : RowSpelling.Statement .reset := by
  unfold RowSpelling.Statement
  decide

theorem RowSpelling.tick (level : LineLevel) : RowSpelling.Statement (.tick level) := by
  unfold RowSpelling.Statement
  cases level <;> decide

theorem RowSpelling.rxByte (b : Byte) : RowSpelling.Statement (.rxByte b) := by
  revert b
  unfold RowSpelling.Statement
  decide

theorem RowSpelling.rxErrOverrun : RowSpelling.Statement .rxErrOverrun := by
  unfold RowSpelling.Statement
  decide

theorem RowSpelling.rxErrFraming : RowSpelling.Statement .rxErrFraming := by
  unfold RowSpelling.Statement
  decide

theorem RowSpelling.rxErrParity : RowSpelling.Statement .rxErrParity := by
  unfold RowSpelling.Statement
  decide

theorem RowSpelling.rearm : RowSpelling.Statement .rearm := by
  unfold RowSpelling.Statement
  decide

theorem RowSpelling.mpxTick : RowSpelling.Statement .mpxTick := by
  unfold RowSpelling.Statement
  decide

theorem RowSpelling.dacReq (s : Sample) : RowSpelling.Statement (.dacReq s) := by
  have hr : tableRows.find? (fun r => r.mnemonic == (Instr.dacReq s).mnemonic) = some ⟨"DACREQ", 16, 0x6000, 0xFC00⟩ := by rfl
  have hm := stim10_masked 0x6#4 s
  have hn : ∀ (op : BitVec 4) (x : BitVec 12), (stimWord op x).nbits = 16 := fun _ _ => rfl
  simp [RowSpelling.Statement, spelledByOwnRow, hr, TableRow.spells, hm, encode, hn]

theorem RowSpelling.busDone : RowSpelling.Statement .busDone := by
  unfold RowSpelling.Statement
  decide

theorem RowSpelling.supTick (rxIdle : Bool) : RowSpelling.Statement (.supTick rxIdle) := by
  unfold RowSpelling.Statement
  cases rxIdle <;> decide

theorem RowSpelling.cfgAddr (a : BitVec 10) : RowSpelling.Statement (.cfgAddr a) := by
  have hr : tableRows.find? (fun r => r.mnemonic == (Instr.cfgAddr a).mnemonic) = some ⟨"CFGADDR", 16, 0x9000, 0xFC00⟩ := by rfl
  have hm := stim10_masked 0x9#4 a
  have hn : ∀ (op : BitVec 4) (x : BitVec 12), (stimWord op x).nbits = 16 := fun _ _ => rfl
  simp [RowSpelling.Statement, spelledByOwnRow, hr, TableRow.spells, hm, encode, hn]

theorem RowSpelling.cfgCnt (n : BitVec 10) : RowSpelling.Statement (.cfgCnt n) := by
  have hr : tableRows.find? (fun r => r.mnemonic == (Instr.cfgCnt n).mnemonic) = some ⟨"CFGCNT", 16, 0xA000, 0xFC00⟩ := by rfl
  have hm := stim10_masked 0xA#4 n
  have hn : ∀ (op : BitVec 4) (x : BitVec 12), (stimWord op x).nbits = 16 := fun _ _ => rfl
  simp [RowSpelling.Statement, spelledByOwnRow, hr, TableRow.spells, hm, encode, hn]

theorem RowSpelling.levelCode (v : Byte) : RowSpelling.Statement (.levelCode v) := by
  revert v
  unfold RowSpelling.Statement
  decide

theorem RowSpelling.syncCode : RowSpelling.Statement .syncCode := by
  unfold RowSpelling.Statement
  decide

theorem RowSpelling.dacAddrByte (a : BitVec 7) : RowSpelling.Statement (.dacAddrByte a) := by
  revert a
  unfold RowSpelling.Statement
  decide

theorem RowSpelling.dacHighByte (h : BitVec 4) : RowSpelling.Statement (.dacHighByte h) := by
  revert h
  unfold RowSpelling.Statement
  decide

theorem RowSpelling.dacLowByte (l : Byte) : RowSpelling.Statement (.dacLowByte l) := by
  revert l
  unfold RowSpelling.Statement
  decide

end Sys2Proof.Laws
end

