-- ==== Sys2Proof/Tests/Slice0.lean ====
section
/-!
SUPPORT. Tests with expected values from 95_test_vectors.md (its vector named at each), and for every obligation that
has hypotheses a concrete state and operands that meet them.
-/

namespace Sys2Proof.Tests

open Sys2Proof Sys2Proof.Machine

/-! ### Ill-formed terms are refused by the check -/

theorem test_wellFormed_cfgAddr_513 :
    (Instr.cfgAddr 512#10).wellFormed Params.reference = true ∧ (Instr.cfgAddr 513#10).wellFormed Params.reference = false := by
  decide

theorem test_wellFormed_cfgCnt_17 :
    (Instr.cfgCnt 16#10).wellFormed Params.reference = true ∧ (Instr.cfgCnt 17#10).wellFormed Params.reference = false := by
  decide

theorem test_wellFormed_foreign_address :
    (Instr.dacAddrByte 0x60#7).wellFormed Params.reference = true ∧
    (Instr.dacAddrByte 0x61#7).wellFormed Params.reference = false := by
  decide

theorem test_wellFormed_high_nibble :
    (Instr.dacHighByte 3#4).wellFormed Params.reference = true ∧
    (Instr.dacHighByte 4#4).wellFormed Params.reference = false := by
  decide

theorem test_wellFormed_low_byte :
    (Instr.dacLowByte 0xF8#8).wellFormed { Params.reference with sampleShift := .two } = true ∧
    (Instr.dacLowByte 0xF9#8).wellFormed { Params.reference with sampleShift := .two } = false := by
  decide

theorem test_params_ok :
    Params.reference.ok = true ∧ ({ Params.reference with maxOut := 1 } : Params).ok = false ∧
    ({ Params.reference with maxCh := 513 } : Params).ok = false ∧
    ({ Params.reference with frameInit := [] } : Params).ok = false := by
  decide

/-! ### Words written out bit by bit (table 2.1; 30_encoding.md R81, R82, R85 to R87, R93, R94) -/

theorem test_decode_reset : (decode (.stim16 0b0000000000000000#16)).toOption = some (.reset) := by decide

theorem test_decode_tick_low : (decode (.stim16 0b0001000000000000#16)).toOption = some (.tick .low) := by decide

theorem test_decode_tick_high : (decode (.stim16 0b0001000000000001#16)).toOption = some (.tick .high) := by decide

theorem test_decode_rxByte : (decode (.stim16 0b0010000001010101#16)).toOption = some (.rxByte 0x55#8) := by decide

theorem test_decode_rxErrOverrun : (decode (.stim16 0b0011000000000000#16)).toOption = some (.rxErrOverrun) := by decide

theorem test_decode_rxErrFraming : (decode (.stim16 0b0011000000000001#16)).toOption = some (.rxErrFraming) := by decide

theorem test_decode_rxErrParity : (decode (.stim16 0b0011000000000010#16)).toOption = some (.rxErrParity) := by decide

theorem test_decode_rearm : (decode (.stim16 0b0100000000000000#16)).toOption = some (.rearm) := by decide

theorem test_decode_mpxTick : (decode (.stim16 0b0101000000000000#16)).toOption = some (.mpxTick) := by decide

theorem test_decode_dacReq : (decode (.stim16 0b0110001111111110#16)).toOption = some (.dacReq 1022#10) := by decide

theorem test_decode_busDone : (decode (.stim16 0b0111000000000000#16)).toOption = some (.busDone) := by decide

theorem test_decode_supTick_busy : (decode (.stim16 0b1000000000000000#16)).toOption = some (.supTick false) := by decide

theorem test_decode_supTick_idle : (decode (.stim16 0b1000000000000001#16)).toOption = some (.supTick true) := by decide

theorem test_decode_cfgAddr : (decode (.stim16 0b1001000000001010#16)).toOption = some (.cfgAddr 10#10) := by decide

theorem test_decode_cfgCnt : (decode (.stim16 0b1010000000010000#16)).toOption = some (.cfgCnt 16#10) := by decide

theorem test_decode_levelCode : (decode (.sample10 0b1000100010#10)).toOption = some (.levelCode 17#8) := by decide

theorem test_decode_syncCode : (decode (.sample10 0b0000000000#10)).toOption = some (.syncCode) := by decide

theorem test_decode_dacAddrByte : (decode (.busByte8 .address 0b11000100#8)).toOption = some (.dacAddrByte 0x62#7) := by decide

theorem test_decode_dacHighByte : (decode (.busByte8 .high 0b00001011#8)).toOption = some (.dacHighByte 0xB#4) := by decide

theorem test_decode_dacLowByte : (decode (.busByte8 .low 0b11111110#8)).toOption = some (.dacLowByte 0xFE#8) := by decide

/-- The invalid words of table 2.1. -/
theorem test_decode_invalid :
    ([0x0001#16, 0x1002#16, 0x2100#16, 0x3003#16, 0x4001#16, 0x6400#16, 0x8002#16, 0x9400#16, 0xB000#16, 0xFFFF#16].all
      fun w => (decode (.stim16 w)).toOption.isNone) = true := by
  decide

/-- A sample between the two codes, an address byte with its write bit set and a first data byte with a high nibble. -/
theorem test_decode_no_format :
    (decode (.sample10 0x201#10)).toOption = none ∧ (decode (.busByte8 .address 0xC1#8)).toOption = none ∧
    (decode (.busByte8 .high 0x10#8)).toOption = none := by
  decide

/-- The words of the table given in whole bytes. -/
theorem test_decodeTableWord :
    decodeTableWord 16 0x63FE = some (.dacReq 1022#10) ∧ decodeTableWord 16 0x0222 = some (.levelCode 17#8) ∧
    decodeTableWord 10 0 = some .syncCode ∧ decodeTableWord 8 0xC0 = some (.dacAddrByte 0x60#7) ∧
    decodeTableWord 8 0x03 = some (.dacHighByte 3#4) ∧ decodeTableWord 8 0xFF = some (.dacLowByte 0xFF#8) ∧
    decodeTableWord 16 0xB000 = none := by
  decide

/-! ### Level codes and bus bytes (table V-ENC) -/

theorem test_level_codes :
    levelSample 0#8 = 0x200#10 ∧ levelSample 127#8 = 0x2FE#10 ∧ levelSample 255#8 = 0x3FE#10 := by
  decide

theorem test_data_bytes_unshifted :
    highByte .zero 766#10 = 0x02#8 ∧ lowByte .zero 766#10 = 0xFE#8 ∧ highByte .zero 1023#10 = 0x03#8 ∧
    lowByte .zero 1023#10 = 0xFF#8 := by
  decide

theorem test_data_bytes_shifted :
    highByte .two 766#10 = 0x0B#8 ∧ lowByte .two 766#10 = 0xF8#8 ∧ highByte .two 1023#10 = 0x0F#8 ∧
    lowByte .two 1023#10 = 0xFC#8 := by
  decide

theorem test_address_byte : addressByte 0x60#7 = 0xC0#8 ∧ addressByte 0x7F#7 = 0xFE#8 := by decide

/-! ### Small states -/

/-- A hunting core with the given run, confirmation and overrun latch. -/
def hunting (run : Nat) (confirmed overrun : Bool) : State :=
  { State.reset with idleRunLength := run, breakConfirmed := confirmed, overrunPending := overrun }

/-- A receiving core. -/
def receiving (start : BitVec 10) (count : Nat) (skip : BitVec 16) (stored : Nat) (active : Bool) : State :=
  { State.reset with
    tickEnable := false, idleRunLength := 20, breakConfirmed := true, rxIntEnable := true, cfgStartAddress := start,
    cfgChannelCount := count, addressSkipCount := skip, receivedCount := stored, rxActive := active }

/-- A core whose attempt is over. -/
def completed (skip : BitVec 16) (stored : Nat) : State :=
  { State.reset with
    tickEnable := false, idleRunLength := 20, breakConfirmed := true, frameReady := true, addressSkipCount := skip,
    receivedCount := stored }

/-- A core in the given phase of the scan, with one listed byte. -/
def scanning (phase : MpxPhase) (index : Nat) (period : Period) (cell : Nat) (v : Byte) : State :=
  { State.reset with
    mpxPhase := phase, outputChannelIndex := index, mpxPeriod := period, frame := [(cell, v)] }

/-- A core whose driver is in the given phase. -/
def driving (phase : DacPhase) (x : Sample) : State := { State.reset with dacPhase := phase, dacSample := x }

/-- A core with the given supervisor state. -/
def supervising (heartbeat : Bool) (history : Byte) (active : Bool) : State :=
  { State.reset with heartbeat := heartbeat, idleHistory := history, rxActive := active }

/-! ### Views of an answer, in the tuples of 95_test_vectors.md -/

/-- Something read from the next state, if there is one. -/
def viewNext {α : Type} (f : State → α) : Result → Option α
  | .next t => some (f t)
  | .fault _ => none
  | .refused _ => none

/-- Break detector's tuple and the deserializer trace. -/
def bd (s : State) : Bool × Nat × Bool × Bool × Bool × List DeserCommand :=
  (s.tickEnable, s.idleRunLength, s.breakConfirmed, s.rxIntEnable, s.overrunPending, s.deserTrace)

/-- Receiver's tuple and the overrun latch. -/
def fr (s : State) : Bool × BitVec 16 × Nat × Bool × Bool × Bool :=
  (s.rxIntEnable, s.addressSkipCount, s.receivedCount, s.frameReady, s.rxActive, s.overrunPending)

/-- Mainline's tuple. -/
def ra (s : State) : Bool × Nat × BitVec 16 × Nat × Bool × Bool :=
  (s.frameReady, s.receivedCount, s.addressSkipCount, s.idleRunLength, s.breakConfirmed, s.tickEnable)

/-- Generator's tuple, the requested sample and the period trace. -/
def mx (s : State) : MpxPhase × Nat × Period × Sample × List Period :=
  (s.mpxPhase, s.outputChannelIndex, s.mpxPeriod, s.dacSample, s.periodTrace)

/-- Driver's tuple and the bus trace. -/
def dac (s : State) : DacPhase × Sample × List BusCommand := (s.dacPhase, s.dacSample, s.busTrace)

/-- Supervisor's tuple. -/
def sup (s : State) : Bool × Byte × Bool := (s.heartbeat, s.idleHistory, s.rxActive)

/-- The answer refuses the Config operand. -/
def refusesConfig : Result → Bool
  | .next _ => false
  | .fault _ => false
  | .refused r => r == .configOutOfRange

/-! ### One step each -/

/-- 70_reset_and_hazards.md R230. -/
theorem test_reset_restores :
    viewNext (fun t => (bd t, mx t)) (exec .reset (scanning .emitSync 2 .long 1 255#8)) =
    some ((true, 0, false, false, false, []), (.emitFirstLevel, 1, .short, 0#10, [])) := rfl

/-- 70_reset_and_hazards.md R230, 00_scope.md R19. -/
theorem test_reset_frame :
    viewNext (fun t => (t.frameByte 1, t.cfgChannelCount)) (exec .reset (scanning .emitSync 2 .long 1 255#8)) =
    some (0#8, 16) := by
  decide

/-- V-BD3, its last event. -/
theorem test_tick_low_confirms :
    viewNext bd (exec (.tick .low) (hunting 19 false false)) = some (true, 20, true, false, false, []) := rfl

/-- V-BD8. -/
theorem test_tick_high_hands_off :
    viewNext bd (exec (.tick .high) (hunting 20 true true)) = some (false, 20, true, true, false, [.ovrClear]) := rfl

/-- V-FR2, the tenth byte. -/
theorem test_rxByte_last_discarded :
    viewNext fr (exec (.rxByte 9#8) (receiving 10#10 16 9#16 0 false)) = some (true, 10#16, 0, false, false, false) := by
  decide

/-- V-FR9. -/
theorem test_rxByte_completes_past_count :
    viewNext (fun t => (fr t, t.frameByte 8)) (exec (.rxByte 1#8) (receiving 0#10 3 8#16 8 true)) =
    some ((false, 9#16, 9, true, true, false), 1#8) := rfl

/-- V-FR4. -/
theorem test_overrun_enabled :
    viewNext fr (exec .rxErrOverrun (receiving 0#10 16 5#16 5 true)) = some (false, 5#16, 5, true, true, true) := by
  decide

/-- V-FR6, its third event. -/
theorem test_overrun_disabled :
    viewNext fr (exec .rxErrOverrun (hunting 0 false false)) = some (false, 0#16, 0, false, false, true) := by
  decide

/-- V-FR5, its first event. -/
theorem test_framing :
    viewNext fr (exec .rxErrFraming (receiving 0#10 16 5#16 5 true)) = some (true, 5#16, 5, false, false, false) := by
  decide

/-- V-FR10. -/
theorem test_parity :
    viewNext fr (exec .rxErrParity (receiving 10#10 16 12#16 2 true)) = some (true, 12#16, 2, false, false, false) := by
  decide

/-- V-RA1. -/
theorem test_rearm :
    viewNext ra (exec .rearm (completed 17#16 17)) = some (false, 0, 0#16, 0, false, true) := by
  decide

/-- V-RA4. -/
theorem test_rearm_not_ready :
    viewNext ra (exec .rearm (hunting 7 false false)) = some (false, 0, 0#16, 7, false, true) := by
  decide

/-- V-MX1. -/
theorem test_mpxTick_first_level :
    viewNext mx (exec .mpxTick (scanning .emitFirstLevel 1 .long 1 255#8)) = some (.emitSync, 2, .short, 1022#10, [.short]) := by
  decide

/-- V-MX5. -/
theorem test_mpxTick_last_level :
    viewNext mx (exec .mpxTick (scanning .emitNextLevel 16 .short 16 17#8)) = some (.emitLongSync, 1, .short, 546#10, []) := by
  decide

/-- V-DAC1. -/
theorem test_dacReq_accepted :
    viewNext dac (exec (.dacReq 1022#10) (driving .idle 0#10)) = some (.startRequested, 1022#10, [.start]) := by
  decide

/-- V-DAC3. -/
theorem test_dacReq_dropped :
    viewNext dac (exec (.dacReq 0#10) (driving .addressSent 1022#10)) = some (.addressSent, 1022#10, []) := by
  decide

/-- V-DAC2, its second completion. -/
theorem test_busDone_high_byte :
    viewNext dac (exec .busDone (driving .addressSent 1022#10)) = some (.highNibbleSent, 1022#10, [.send 0x03#8]) := by
  decide

/-- V-DAC4. -/
theorem test_busDone_idle :
    viewNext dac (exec .busDone (driving .idle 546#10)) = some (.idle, 546#10, []) := by
  decide

/-- V-SUP3. -/
theorem test_supTick_wrap :
    viewNext sup (exec (.supTick false) (supervising false 255#8 true)) = some (true, 0#8, true) := by
  decide

/-- V-SUP5. -/
theorem test_supTick_clears :
    viewNext sup (exec (.supTick true) (supervising false 3#8 true)) = some (true, 0#8, false) := by
  decide

/-- V-CF2. -/
theorem test_cfgAddr_512 :
    viewNext (fun t => t.cfgStartAddress) (exec (.cfgAddr 512#10) State.reset) = some 512#10 := by
  decide

/-- V-CF3. -/
theorem test_cfgAddr_513 :
    refusesConfig (exec (.cfgAddr 513#10) State.reset) = true := by
  decide

/-- V-CF4. -/
theorem test_cfgCnt_0 :
    viewNext (fun t => t.cfgChannelCount) (exec (.cfgCnt 0#10) State.reset) = some 0 := by
  decide

/-- V-CF5. -/
theorem test_cfgCnt_17 :
    refusesConfig (exec (.cfgCnt 17#10) State.reset) = true := by
  decide

/-- table V-ENC, level 128, and V-DAC1. -/
theorem test_levelCode :
    viewNext dac (exec (.levelCode 128#8) (driving .idle 0#10)) = some (.startRequested, 768#10, [.start]) := by
  decide

/-- table V-ENC, sync, and V-DAC1. -/
theorem test_syncCode :
    viewNext dac (exec .syncCode (driving .idle 546#10)) = some (.startRequested, 0#10, [.start]) := by
  decide

/-- V-DAC2, its first completion. -/
theorem test_dacAddrByte :
    viewNext dac (exec (.dacAddrByte 0x60#7) (driving .startRequested 1022#10)) =
    some (.addressSent, 1022#10, [.send 0xC0#8]) := by
  decide

/-- V-DAC2, its second completion. -/
theorem test_dacHighByte :
    viewNext dac (exec (.dacHighByte 3#4) (driving .addressSent 1022#10)) =
    some (.highNibbleSent, 1022#10, [.send 0x03#8]) := by
  decide

/-- V-DAC2, its third completion. -/
theorem test_dacLowByte :
    viewNext dac (exec (.dacLowByte 0xFE#8) (driving .highNibbleSent 1022#10)) =
    some (.lowByteSent, 1022#10, [.send 0xFE#8]) := by
  decide

/-- table 2.1 and V-BD1. -/
theorem test_step_runs_placed_word :
    viewNext (fun t => (t.idleRunLength, t.stimuli)) (step (State.reset.withFetchWord 16 0x1000)) = some (1, []) := by
  decide

/-- Log 30: while reception is disabled the contracts admit an overrun (V-P5) and no other line event. -/
theorem test_contract_while_disabled :
    environmentMayRaise .rxErrOverrun (hunting 0 false false) = true ∧
    environmentMayRaise .rxErrParity (hunting 0 false false) = false ∧
    environmentMayRaise (.rxByte 0x55#8) (hunting 0 false false) = false := by
  decide

/-! ### Scripts (30_encoding.md R95, R96; table 2.1) -/

theorem test_assemble_words :
    assembleWords Params.reference "DACREQ 1022\nSUPTICK IDLE # comment\nCFGADDR 0x0A" =
      some [.stim16 0x63FE#16, .stim16 0x8001#16, .stim16 0x900A#16] := by
  decide

theorem test_assemble_pseudo :
    (assemble Params.reference "BREAK 2\nMARK 1\nBYTES 0 255\nMPXSTEP") =
      some [.tick .low, .tick .low, .tick .high, .rxByte 0#8, .rxByte 255#8, .mpxTick, .busDone, .busDone, .busDone,
        .busDone, .busDone] := by
  decide

theorem test_assemble_refuses :
    assemble Params.reference "CFGADDR 513" = none ∧ assemble Params.reference "CFGCNT 17" = none ∧
    assemble Params.reference "RXBYTE 256" = none := by
  decide

/-! ### Witnesses: the hypotheses of the obligations can be met -/

/-- Obligations.EncodeOfDecodeIsTheWord: the words at both ends of a field. -/
theorem witness_EncodeOfDecodeIsTheWord :
    decode (.stim16 0x6000#16) = .ok (.dacReq 0#10) ∧ decode (.stim16 0x63FF#16) = .ok (.dacReq 1023#10) :=
  ⟨rfl, rfl⟩

/-- Obligations.StimulusDecoderFollowsOperationMap: a row with its least and its greatest word. -/
theorem witness_StimulusDecoderFollowsOperationMap :
    (⟨"RXBYTE", 16, 0x2000, 0xFF00⟩ : TableRow) ∈ stimRows ∧
    (⟨"RXBYTE", 16, 0x2000, 0xFF00⟩ : TableRow).spells 16 (0x20FF#16).toNat = true ∧
    (decode (.stim16 0x20FF#16)).toOption = some (.rxByte 255#8) := by
  decide

/-- Obligations.ReservedStimuliAreRefused: both ends of the reserved `op`s, the reserved error kind, a set must-be-zero bit. -/
theorem witness_ReservedStimuliAreRefused :
    State.reset.params.ok = true ∧
    (withStimuli [.stim16 0xB000#16] State.reset).stimuli = .stim16 0xB000#16 :: [] ∧
    (bits (0xB000#16) 12 4).toNat = 11 ∧ (bits (0xFFFF#16) 12 4).toNat = 15 ∧
    (bits (0x3003#16) 12 4).toNat < 11 ∧ (∀ r ∈ stimRows, r.spells 16 (0x1002#16).toNat = false) := by
  decide

/-- Obligations.LevelCodeIsMonotonicAndReversible: the least and the greatest level, and a core about to emit 255. -/
theorem witness_LevelCodeIsMonotonicAndReversible :
    (0#8).toNat < (255#8).toNat ∧ (scanning .emitFirstLevel 1 .long 1 255#8).mpxPhase = .emitFirstLevel ∧
    (scanning .emitFirstLevel 1 .long 1 255#8).frameByte 1 = 255#8 := by
  decide

/-- Obligations.DataBytesCarryTheWholeSample: equal bytes of equal samples. -/
theorem witness_DataBytesCarryTheWholeSample :
    highByte .two 1023#10 = highByte .two 1023#10 ∧ lowByte .two 1023#10 = lowByte .two 1023#10 := by
  decide

/-- Obligations.TickWhileDisarmedIsIgnored: a receiving core. -/
theorem witness_TickWhileDisarmedIsIgnored :
    (receiving 0#10 16 0#16 0 false).tickEnable = false := by
  decide

/-- Obligations.HighSampleBeforeConfirmationResetsRun: a run of 19. -/
theorem witness_HighSampleBeforeConfirmationResetsRun :
    (hunting 19 false false).tickEnable = true ∧ (hunting 19 false false).breakConfirmed = false := by
  decide

/-- Obligations.HighSampleAfterConfirmationHandsOff: a confirmed break, latch set and clear. -/
theorem witness_HighSampleAfterConfirmationHandsOff :
    (hunting 20 true true).tickEnable = true ∧ (hunting 20 true true).breakConfirmed = true ∧
    (hunting 20 true false).tickEnable = true ∧ (hunting 20 true false).breakConfirmed = true := by
  decide

/-- Obligations.LowSampleCountsAndConfirmsAtTwenty: the ends of both ranges. -/
theorem witness_LowSampleCountsAndConfirmsAtTwenty :
    ((hunting 18 false false).tickEnable = true ∧ (hunting 18 false false).idleRunLength < 19) ∧
    ((hunting 19 false false).tickEnable = true ∧ 19 ≤ (hunting 19 false false).idleRunLength) ∧
    (hunting 20 true false).tickEnable = true ∧ (hunting 20 true false).idleRunLength ≤ 20 := by
  decide

/-- Obligations.ShortBreakNeverConfirms: the longest short break. -/
theorem witness_ShortBreakNeverConfirms :
    (hunting 0 false false).tickEnable = true ∧ (hunting 0 false false).breakConfirmed = false ∧
    (hunting 0 false false).idleRunLength + 19 < 20 := by
  decide

/-- Obligations.SustainedBreakThenMarkHandsOff: the shortest break that confirms. -/
theorem witness_SustainedBreakThenMarkHandsOff :
    (hunting 0 false true).tickEnable = true ∧ (hunting 0 false true).breakConfirmed = false ∧
    (hunting 0 false true).idleRunLength < 20 ∧ 20 ≤ (hunting 0 false true).idleRunLength + 20 := by
  decide

/-- Obligations.OnlyALowSampleConfirms: the sample that reaches 20. -/
theorem witness_OnlyALowSampleConfirms :
    exec (.tick .low) (hunting 19 false false) = .next (hunting 20 true false) ∧
    (hunting 19 false false).breakConfirmed = false ∧ (hunting 20 true false).breakConfirmed = true :=
  ⟨rfl, rfl, rfl⟩

/-- Obligations.DisabledReceiverOnlyLatchesOverrun: a hunting core. -/
theorem witness_DisabledReceiverOnlyLatchesOverrun :
    (hunting 0 false false).rxIntEnable = false := by
  decide

/-- Obligations.ByteInSkipWindowIsCountedAndDiscarded: the last byte of the widest window, and a wrap. -/
theorem witness_ByteInSkipWindowIsCountedAndDiscarded :
    ((receiving 512#10 0 511#16 0 false).rxIntEnable = true ∧
      ((receiving 512#10 0 511#16 0 false).addressSkipCount.toNat + 1) % 2 ^ 16 = 512) ∧
    (receiving 512#10 0 511#16 0 false).cfgStartAddress.toNat = 512 ∧
    ((receiving 0#10 0 65535#16 0 false).addressSkipCount.toNat + 1) % 2 ^ 16 ≤
      (receiving 0#10 0 65535#16 0 false).cfgStartAddress.toNat := by
  decide

/-- Obligations.BytePastSkipWindowIsStored: the first stored byte, and a store at `FRAME_TOP`. -/
theorem witness_BytePastSkipWindowIsStored :
    ((receiving 512#10 0 512#16 0 false).rxIntEnable = true ∧
      (receiving 512#10 0 512#16 0 false).cfgStartAddress.toNat <
        ((receiving 512#10 0 512#16 0 false).addressSkipCount.toNat + 1) % 2 ^ 16) ∧
    (receiving 0#10 16 16#16 16 true).cfgStartAddress.toNat <
      ((receiving 0#10 16 16#16 16 true).addressSkipCount.toNat + 1) % 2 ^ 16 ∧
    (receiving 0#10 16 16#16 16 true).receivedCount = (receiving 0#10 16 16#16 16 true).params.frameTop := by
  decide

/-- Obligations.MissingFrameIndexFaults: one past `FRAME_TOP` for each access, and a buffer of one byte. -/
theorem witness_MissingFrameIndexFaults :
    ((receiving 0#10 16 17#16 17 true).rxIntEnable = true ∧
      (receiving 0#10 16 17#16 17 true).cfgStartAddress.toNat <
        ((receiving 0#10 16 17#16 17 true).addressSkipCount.toNat + 1) % 2 ^ 16 ∧
      (receiving 0#10 16 17#16 17 true).params.frameTop < (receiving 0#10 16 17#16 17 true).receivedCount) ∧
    ((scanning .emitNextLevel 17 .short 1 0#8).mpxPhase = .emitNextLevel ∧
      (scanning .emitNextLevel 17 .short 1 0#8).params.frameTop < (scanning .emitNextLevel 17 .short 1 0#8).outputChannelIndex) ∧
    (State.resetWith { Params.reference with maxCh := 0, maxOut := 0 }).mpxPhase = .emitFirstLevel ∧
    (State.resetWith { Params.reference with maxCh := 0, maxOut := 0 }).params.frameTop = 0 := by
  decide

/-- Obligations.WholeAttemptCapturesTheWindow: one skipped byte and two stored ones, and a proper part of them. -/
theorem witness_WholeAttemptCapturesTheWindow :
    (receiving 1#10 1 0#16 0 false).params.ok = true ∧ (receiving 1#10 1 0#16 0 false).rxIntEnable = true ∧
    (receiving 1#10 1 0#16 0 false).frameReady = false ∧ (receiving 1#10 1 0#16 0 false).addressSkipCount = 0 ∧
    (receiving 1#10 1 0#16 0 false).receivedCount = 0 ∧
    (receiving 1#10 1 0#16 0 false).cfgChannelCount ≤ (receiving 1#10 1 0#16 0 false).params.maxCh ∧
    [7#8, 8#8, 9#8].length =
      (receiving 1#10 1 0#16 0 false).cfgStartAddress.toNat + (receiving 1#10 1 0#16 0 false).cfgChannelCount + 1 ∧
    2 < [7#8, 8#8, 9#8].length := by
  decide

/-- Obligations.ReceiverNeverInspectsByteValues: a byte that is discarded. -/
theorem witness_ReceiverNeverInspectsByteValues :
    exec (.rxByte 9#8) (receiving 10#10 16 9#16 0 false) = .next (receiving 10#10 16 10#16 0 false) ∧
    1 ≠ (receiving 10#10 16 9#16 0 false).receivedCount :=
  ⟨rfl, by decide⟩

/-- Obligations.OverrunAbandonsTheAttempt: a receiving core. -/
theorem witness_OverrunAbandonsTheAttempt :
    (receiving 0#10 16 5#16 5 true).rxIntEnable = true := by
  decide

/-- Obligations.MalformedByteOnlyClearsTheIndicator: a receiving core. -/
theorem witness_MalformedByteOnlyClearsTheIndicator :
    (receiving 10#10 16 12#16 2 true).rxIntEnable = true := by
  decide

/-- Obligations.RearmRestartsTheHunt: a completed and a hunting core. -/
theorem witness_RearmRestartsTheHunt :
    (completed 17#16 17).frameReady = true ∧ (hunting 7 false false).frameReady = false := by
  decide

/-- Obligations.OnlyRearmRestartsAcquisition: a tick of a completed core. -/
theorem witness_OnlyRearmRestartsAcquisition :
    exec (.tick .low) (completed 17#16 17) = .next (completed 17#16 17) ∧
    (completed 17#16 17).frameReady = true ∧ Instr.tick .low ≠ .rearm ∧ Instr.tick .low ≠ .reset ∧
    exec (.tick .low) (hunting 0 false false) = .next (hunting 1 false false) ∧ (hunting 1 false false).tickEnable = true :=
  ⟨rfl, rfl, by decide, by decide, rfl, rfl⟩

/-- Obligations.OnlyRearmRestartsAcquisition: a completed core and a run of two events. -/
theorem witness_OnlyRearmRestartsAcquisition_runs :
    (completed 17#16 17).acqMode = some .complete ∧ (∀ i ∈ [Instr.tick .low, .busDone], i ≠ .rearm ∧ i ≠ .reset) ∧
    execAll [.tick .low, .busDone] (completed 17#16 17) = .next (completed 17#16 17) ∧
    (completed 17#16 17).params.ok = true ∧ (completed 17#16 17).mpxPhase = .emitFirstLevel :=
  ⟨rfl, by decide, rfl, by decide, rfl⟩

/-- Obligations.FirstLevelTick: the least frame buffer that has index 1. -/
theorem witness_FirstLevelTick :
    (scanning .emitFirstLevel 1 .long 1 255#8).mpxPhase = .emitFirstLevel ∧
    1 ≤ (State.resetWith { Params.reference with maxCh := 1, maxOut := 0 }).params.frameTop ∧
    1 ≤ (scanning .emitFirstLevel 1 .long 1 255#8).params.frameTop := by
  decide

/-- Obligations.SyncTicks: both sync phases. -/
theorem witness_SyncTicks :
    (scanning .emitSync 2 .short 1 0#8).mpxPhase = .emitSync ∧ (scanning .emitLongSync 1 .short 1 0#8).mpxPhase = .emitLongSync := by
  decide

/-- Obligations.NextLevelTick: the channels 15 and 16 of 16. -/
theorem witness_NextLevelTick :
    ((scanning .emitNextLevel 15 .short 15 1#8).mpxPhase = .emitNextLevel ∧
      15 ≤ (scanning .emitNextLevel 15 .short 15 1#8).params.frameTop ∧
      (scanning .emitNextLevel 15 .short 15 1#8).outputChannelIndex < (scanning .emitNextLevel 15 .short 15 1#8).params.maxOut) ∧
    (scanning .emitNextLevel 16 .short 16 17#8).mpxPhase = .emitNextLevel ∧
    16 ≤ (scanning .emitNextLevel 16 .short 16 17#8).params.frameTop ∧
    (scanning .emitNextLevel 16 .short 16 17#8).params.maxOut ≤ (scanning .emitNextLevel 16 .short 16 17#8).outputChannelIndex := by
  decide

/-- Obligations.PhaseOrderIsTheFourStateCycle: a tick and an event that is none. -/
theorem witness_PhaseOrderIsTheFourStateCycle :
    exec .mpxTick (scanning .emitSync 2 .short 1 1#8) = .next
      { scanning .emitNextLevel 2 .short 1 1#8 with dacPhase := .startRequested, busTrace := [.start] } ∧
    Instr.mpxTick ≠ .reset ∧ exec .busDone State.reset = .next State.reset ∧ Instr.busDone ≠ .mpxTick ∧
    Instr.busDone ≠ .reset :=
  ⟨rfl, by decide, rfl, by decide, by decide⟩

/-- Obligations.GeneratorIgnoresTheReceiver: a hunting and a receiving core. -/
theorem witness_GeneratorIgnoresTheReceiver :
    (hunting 0 false false).output = (receiving 3#10 5 1#16 0 true).output ∧
    (hunting 0 false false).params = (receiving 3#10 5 1#16 0 true).params ∧
    (∀ j, (hunting 0 false false).frameByte j = (receiving 3#10 5 1#16 0 true).frameByte j) ∧
    exec .mpxTick (hunting 0 false false) = .next
      { hunting 0 false false with
        mpxPhase := .emitSync, outputChannelIndex := 2, periodTrace := [.short], dacPhase := .startRequested,
        dacSample := 512#10, busTrace := [.start] } :=
  ⟨rfl, rfl, fun _ => rfl, rfl⟩

/-- Obligations.WholeScanSendsEveryChannelOnce: the core right after reset. -/
theorem witness_WholeScanSendsEveryChannelOnce :
    State.reset.params.ok = true ∧ State.reset.mpxPhase = .emitFirstLevel ∧ State.reset.dacPhase = .idle := by
  decide

/-- Obligations.ScanRequestsEveryChannelWhateverIsDropped: a core at the start of a scan with a busy driver. -/
theorem witness_ScanRequestsEveryChannelWhateverIsDropped :
    (driving .addressSent 1022#10).params.ok = true ∧ (driving .addressSent 1022#10).mpxPhase = .emitFirstLevel ∧
    exec .mpxTick (driving .addressSent 1022#10) = .next
      { driving .addressSent 1022#10 with mpxPhase := .emitSync, outputChannelIndex := 2, periodTrace := [.short] } :=
  ⟨by decide, rfl, rfl⟩

/-- Obligations.ScanPeriodIsInvariant: a completed core. -/
theorem witness_ScanPeriodIsInvariant :
    (completed 17#16 17).params.ok = true ∧ (completed 17#16 17).mpxPhase = .emitFirstLevel := by
  decide

/-- Obligations.IdleDriverAcceptsRequestIgnoresCompletion: an idle driver. -/
theorem witness_IdleDriverAcceptsRequestIgnoresCompletion :
    (driving .idle 546#10).dacPhase = .idle := by
  decide

/-- Obligations.BusyDriverDropsRequest: the first and the last busy phase. -/
theorem witness_BusyDriverDropsRequest :
    (driving .startRequested 0#10).dacPhase ≠ .idle ∧ (driving .stopRequested 0#10).dacPhase ≠ .idle := by
  decide

/-- Obligations.CompletionAdvancesOnePhase: each busy phase. -/
theorem witness_CompletionAdvancesOnePhase :
    (driving .startRequested 0#10).dacPhase = .startRequested ∧ (driving .addressSent 0#10).dacPhase = .addressSent ∧
    (driving .highNibbleSent 0#10).dacPhase = .highNibbleSent ∧ (driving .lowByteSent 0#10).dacPhase = .lowByteSent ∧
    (driving .stopRequested 0#10).dacPhase = .stopRequested := by
  decide

/-- Obligations.TransactionSendsTheAcceptedSample: no request, one and two in the gaps. -/
theorem witness_TransactionSendsTheAcceptedSample :
    (driving .idle 0#10).dacPhase = .idle ∧ [[], [0#10], [1#10, 2#10], [], []].length = 5 := by
  decide

/-- Obligations.StartIsEmittedOnlyFromIdle: a request to an idle driver. -/
theorem witness_StartIsEmittedOnlyFromIdle :
    exec (.dacReq 5#10) (driving .idle 0#10) = .next { driving .startRequested 5#10 with busTrace := [.start] } ∧
    Instr.dacReq 5#10 ≠ .reset ∧ BusCommand.start ∈ [BusCommand.start] ∧
    [BusCommand.start] = (driving .idle 0#10).busTrace ++ [.start] :=
  ⟨rfl, by decide, by decide, rfl⟩

/-- Obligations.TracesAreAppendOnly: a completion that sends. -/
theorem witness_TracesAreAppendOnly :
    exec .busDone (driving .lowByteSent 0#10) = .next { driving .stopRequested 0#10 with busTrace := [.stop] } ∧
    Instr.busDone ≠ .reset :=
  ⟨rfl, by decide⟩

/-- Obligations.SupervisorTick: a history of 3 and one of 2. -/
theorem witness_SupervisorTick :
    (true = true ∧ 2 < (supervising false 3#8 true).idleHistory.toNat) ∧
    ¬2 < (supervising false 2#8 true).idleHistory.toNat := by
  decide

/-- Obligations.IndicatorClearsAfterThreePeriods: an empty history. -/
theorem witness_IndicatorClearsAfterThreePeriods :
    (supervising false 0#8 true).idleHistory = 0 := by
  decide

/-- Obligations.SupervisorSetsNothing: a stored byte that sets the indicator. -/
theorem witness_SupervisorSetsNothing :
    exec (.rxByte 0#8) (receiving 0#10 16 0#16 0 false) = .next (receiving 0#10 16 1#16 1 true) ∧
    (receiving 0#10 16 0#16 0 false).rxActive = false ∧ (receiving 0#10 16 1#16 1 true).rxActive = true :=
  ⟨rfl, rfl, rfl⟩

/-- Obligations.SupervisorSetsNothing: two cores alike to the supervisor. -/
theorem witness_SupervisorSetsNothing_reads :
    (hunting 3 false true).supervisor = (completed 9#16 9).supervisor ∧
    (hunting 3 false true).rxActive = (completed 9#16 9).rxActive ∧
    exec (.supTick true) (hunting 3 false true) = .next { hunting 3 false true with heartbeat := true, idleHistory := 1 } ∧
    exec (.supTick true) (completed 9#16 9) = .next { completed 9#16 9 with heartbeat := true, idleHistory := 1 } :=
  ⟨rfl, rfl, rfl, rfl⟩

/-- Obligations.HeartbeatTogglesOnlyOnSupervisorTick: a supervisor period and another event. -/
theorem witness_HeartbeatTogglesOnlyOnSupervisorTick :
    exec (.supTick false) (supervising false 0#8 true) = .next (supervising true 1#8 true) ∧
    Instr.supTick false ≠ .reset ∧ exec .busDone State.reset = .next State.reset ∧ (∀ r, Instr.busDone ≠ .supTick r) :=
  ⟨rfl, by decide, rfl, by decide⟩

/-- Obligations.ConfigWritesAreRangeChecked: the operands on both sides of each limit. -/
theorem witness_ConfigWritesAreRangeChecked :
    (512#10).toNat ≤ 512 ∧ 512 < (513#10).toNat ∧ (16#10).toNat ≤ State.reset.params.maxCh ∧
    State.reset.params.maxCh < (17#10).toNat := by
  decide

/-- Obligations.ConfigIsReadOnlyToTheCore: a Config write, and an event that is none. -/
theorem witness_ConfigIsReadOnlyToTheCore :
    exec (.cfgAddr 9#10) State.reset = .next { State.reset with cfgStartAddress := 9#10 } ∧
    ({ State.reset with cfgStartAddress := 9#10 } : State).config ≠ State.reset.config ∧
    exec .busDone State.reset = .next State.reset ∧ (∀ b, Instr.busDone ≠ .rxByte b) ∧ (∀ c, Instr.busDone ≠ .cfgAddr c) ∧
    (∀ c, Instr.busDone ≠ .cfgCnt c) ∧ Instr.busDone ≠ .reset :=
  ⟨rfl, by decide, rfl, fun _ => nofun, fun _ => nofun, fun _ => nofun, by decide⟩

/-- Obligations.HandedOverSampleIsRequested: an idle and a busy driver. -/
theorem witness_HandedOverSampleIsRequested :
    (driving .idle 0#10).dacPhase = .idle ∧ (driving .lowByteSent 0#10).dacPhase ≠ .idle := by
  decide

/-- Obligations.BusByteIsSentWhenDue: the byte of each phase, and one that is not due. -/
theorem witness_BusByteIsSentWhenDue :
    ((driving .startRequested 0#10).dacPhase = .startRequested ∧ 0x60#7 = (driving .startRequested 0#10).params.dacAddr) ∧
    highByte (driving .addressSent 1022#10).params.sampleShift (driving .addressSent 1022#10).dacSample = 0#4 ++ 3#4 ∧
    lowByte (driving .highNibbleSent 1022#10).params.sampleShift (driving .highNibbleSent 1022#10).dacSample = 0xFE#8 ∧
    0x61#7 ≠ (driving .startRequested 0#10).params.dacAddr := by
  decide

/-- Obligations.BadParametersAreRefused: each constraint broken by one. -/
theorem witness_BadParametersAreRefused :
    ({ Params.reference with maxOut := 1 } : Params).maxOut < 2 ∧
    512 < ({ Params.reference with maxCh := 513 } : Params).maxCh ∧
    ({ Params.reference with frameInit := List.replicate 18 0 } : Params).frameInit.length ≠
      max Params.reference.maxCh Params.reference.maxOut + 1 := by
  decide

/-- Obligations.StepRunsTheDecodedInstruction: a schedule of one word, an empty one, and a table word. -/
theorem witness_StepRunsTheDecodedInstruction :
    State.reset.params.ok = true ∧
    (withStimuli [.stim16 0x5000#16] State.reset).stimuli = .stim16 0x5000#16 :: [] ∧
    decode (.stim16 0x5000#16) = .ok .mpxTick ∧ State.reset.stimuli = [] ∧ decodeTableWord 8 0xC0 = some (.dacAddrByte 0x60#7) :=
  ⟨by decide, rfl, rfl, rfl, by decide⟩

/-- Obligations.ScriptReplayRunsTheOperations: a script of two operations. -/
theorem witness_ScriptReplayRunsTheOperations :
    (withStimuli ([Instr.tick .low, .cfgAddr 513#10].map encode) State.reset).params.ok = true ∧
    (withStimuli ([Instr.tick .low, .cfgAddr 513#10].map encode) State.reset).stimuli =
      [Instr.tick .low, .cfgAddr 513#10].map encode := by
  decide

/-- Obligations.AcquisitionCyclesThroughThreeModes: one change into each of the three modes. -/
theorem witness_AcquisitionCyclesThroughThreeModes :
    ((hunting 20 true false).acqMode = some .hunting ∧
      exec (.tick .high) (hunting 20 true false) = .next
        { hunting 20 true false with tickEnable := false, rxIntEnable := true, deserTrace := [.ovrClear] }) ∧
    ((receiving 0#10 16 5#16 5 true).acqMode = some .receiving ∧
      exec .rxErrOverrun (receiving 0#10 16 5#16 5 true) = .next
        { receiving 0#10 16 5#16 5 true with overrunPending := true, rxIntEnable := false, frameReady := true }) ∧
    (completed 9#16 9).acqMode = some .complete ∧ exec .rearm (completed 9#16 9) = .next (hunting 0 false false) :=
  ⟨⟨rfl, rfl⟩, ⟨rfl, rfl⟩, rfl, rfl⟩

/-- Obligations.EachAgentWritesOnlyItsOwnState: one event of each agent. -/
theorem witness_EachAgentWritesOnlyItsOwnState :
    exec (.tick .low) (hunting 0 false false) = .next (hunting 1 false false) ∧
    exec (.rxByte 0#8) (receiving 0#10 16 0#16 0 false) = .next (receiving 0#10 16 1#16 1 true) ∧
    exec .rearm (completed 9#16 9) = .next (hunting 0 false false) ∧
    exec .busDone (driving .stopRequested 0#10) = .next (driving .idle 0#10) ∧
    exec (.supTick false) (supervising false 0#8 true) = .next (supervising true 1#8 true) ∧
    exec (.cfgAddr 9#10) State.reset = .next { State.reset with cfgStartAddress := 9#10 } ∧
    exec (.cfgCnt 9#10) State.reset = .next { State.reset with cfgChannelCount := 9 } :=
  ⟨rfl, rfl, rfl, rfl, rfl, rfl, rfl⟩

/-- Obligations.OnlyAStoreChangesAFrameByte: a store and an event that is none. -/
theorem witness_OnlyAStoreChangesAFrameByte :
    exec (.rxByte 0#8) (receiving 0#10 16 0#16 0 false) = .next (receiving 0#10 16 1#16 1 true) ∧
    1 ≠ (receiving 0#10 16 0#16 0 false).receivedCount ∧ Instr.rxByte 0#8 ≠ .reset ∧
    exec .busDone State.reset = .next State.reset ∧ (∀ b, Instr.busDone ≠ .rxByte b) :=
  ⟨rfl, by decide, by decide, rfl, fun _ => nofun⟩

/-- Obligations.MaskedEventsAreLost: a masked tick and a masked overrun. -/
theorem witness_MaskedEventsAreLost :
    sourceEnabled (.tick .low) (completed 9#16 9) = false ∧ Instr.tick .low ≠ .rxErrOverrun ∧
    sourceEnabled .rxErrOverrun (hunting 0 false false) = false := by
  decide

/-- Obligations.IndependentEventsCommute: a received byte with a request, and a tick of each side. -/
theorem witness_IndependentEventsCommute :
    (acquires (.rxByte 0#8) = true ∧ emits (.dacReq 5#10) = true ∧ Instr.dacReq 5#10 ≠ .mpxTick) ∧
    acquires (.tick .low) = true ∧ emits .mpxTick = true ∧ (∀ b, Instr.tick .low ≠ .rxByte b) :=
  ⟨by decide, by decide, by decide, fun _ => nofun⟩

/-- Obligations.ResetSatisfiesTheInvariants: the reference set. -/
theorem witness_ResetSatisfiesTheInvariants : Params.reference.ok = true := by decide

/-- The hypothesis of Obligations.EveryStepKeepsTheInvariants, InvariantStatesCompleteEveryEvent and
NumbersFitTheirRegisterWidths: a receiving core in mid-frame, its driver busy. -/
theorem witness_Inv :
    Inv (withStimuli [.stim16 0x7000#16] { receiving 3#10 5 4#16 1 true with
      frame := [(0, 7#8)], dacPhase := .startRequested, busTrace := [.start] }) := by
  refine ⟨by decide, ?_, ⟨by decide, by decide, by decide, 0, rfl⟩, ⟨[], rfl⟩, ⟨by decide, by decide⟩⟩
  constructor <;> decide

/-- Obligations.EveryStepKeepsTheInvariants: the step from that core. -/
theorem witness_EveryStepKeepsTheInvariants :
    (viewNext (fun t => (dac t, t.stimuli)) (step (withStimuli [.stim16 0x7000#16] { receiving 3#10 5 4#16 1 true with
      frame := [(0, 7#8)], dacPhase := .startRequested, busTrace := [.start] }))) =
      some ((.addressSent, 0#10, [.start, .send 0xC0#8]), []) := by
  decide

end Sys2Proof.Tests
end

