-- ==== Sys2Proof/Proofs/Effect.lean ====
section
/-!
SUPPORT. The inversion of `exec`: everything one operation can do, as one relation with a constructor for each branch of
the transition rules. The proofs about the state go through its named cases.
-/

namespace Sys2Proof.Machine

/-! ### What the remaining operations can do -/

theorem execTick_next {l : LineLevel} {s t : State} (h : execTick l s = .next t) :
    (s.tickEnable = false ∧ t = s) ∨ (s.tickEnable = true ∧ l = .low ∧ t = countLow s) ∨
    (s.tickEnable = true ∧ l = .high ∧ s.breakConfirmed = false ∧ t = loseRun s) ∨
    (s.tickEnable = true ∧ l = .high ∧ s.breakConfirmed = true ∧ t = handOff s) := by
  obtain rfl := Host.Outcome.next.inj h
  cases he : s.tickEnable with
  | false => exact .inl ⟨rfl, rfl⟩
  | true =>
    cases l with
    | low => exact .inr (.inl ⟨rfl, rfl, rfl⟩)
    | high =>
      cases hc : s.breakConfirmed with
      | false => exact .inr (.inr (.inl ⟨rfl, rfl, rfl, by simp [sampleLine, hc]⟩))
      | true => exact .inr (.inr (.inr ⟨rfl, rfl, rfl, by simp [sampleLine, hc]⟩))

theorem execRearm_next {s t : State} (h : execRearm s = .next t) :
    (s.frameReady = false ∧ t = s) ∨ (s.frameReady = true ∧ t = rearmAcquisition s) := by
  obtain rfl := Host.Outcome.next.inj h
  cases s.frameReady with
  | false => exact .inl ⟨rfl, rfl⟩
  | true => exact .inr ⟨rfl, rfl⟩

/-! ### The format rows (logs 5 and 6) -/

/-- DAC_ADDR_BYTE is the completion that sends the address byte, or nothing. -/
theorem exec_dacAddrByte_cases (a : BitVec 7) (s : State) :
    exec (.dacAddrByte a) s = exec .busDone s ∨ exec (.dacAddrByte a) s = .next s := by
  by_cases h : s.dacPhase = .startRequested ∧ s.dueAddressByte = addressByte a
  · exact .inl (by simp [exec, execDacAddrByte, execBusDone, busCompletion, h])
  · exact .inr (by simp only [exec, execDacAddrByte, h, if_false])

/-- DAC_HIGH_BYTE is the completion that sends the high byte, or nothing. -/
theorem exec_dacHighByte_cases (b : BitVec 4) (s : State) :
    exec (.dacHighByte b) s = exec .busDone s ∨ exec (.dacHighByte b) s = .next s := by
  by_cases h : s.dacPhase = .addressSent ∧ s.dueHighByte = 0#4 ++ b
  · exact .inl (by simp [exec, execDacHighByte, execBusDone, busCompletion, h])
  · exact .inr (by simp only [exec, execDacHighByte, h, if_false])

/-- DAC_LOW_BYTE is the completion that sends the low byte, or nothing. -/
theorem exec_dacLowByte_cases (b : Byte) (s : State) :
    exec (.dacLowByte b) s = exec .busDone s ∨ exec (.dacLowByte b) s = .next s := by
  by_cases h : s.dacPhase = .highNibbleSent ∧ s.dueLowByte = b
  · exact .inl (by simp [exec, execDacLowByte, execBusDone, busCompletion, h])
  · exact .inr (by simp only [exec, execDacLowByte, h, if_false])

/-! ### The relation -/

/-- The sample an operation hands to the driver: DACREQ (44_dac_driver.md R170) and, by log 5, the two sample codes. -/
def requestOf : Instr → Option Sample
  | .dacReq x => some x
  | .levelCode v => some (levelSample v)
  | .syncCode => some syncSample
  | _ => none

/-- The operations that can complete a bus command: BUSDONE (44_dac_driver.md R172 to R177) and, by log 6, the three
bus bytes. -/
def completesCommand : Instr → Bool
  | .busDone => true
  | .dacAddrByte _ => true
  | .dacHighByte _ => true
  | .dacLowByte _ => true
  | _ => false

/-- The operations that report a malformed byte (41_frame_receiver.md R126, R127). -/
def reportsMalformedByte : Instr → Bool
  | .rxErrFraming => true
  | .rxErrParity => true
  | _ => false

/-- Everything an operation can do to a state, one constructor for each branch of its rule, with the branch's guard
(but for the bus bytes, whose guard `completion` and `byteNotDue` leave open). -/
inductive Effect (s : State) : Instr → State → Prop where
  | reset : Effect s .reset (withStimuli s.stimuli (State.resetWith s.params))
  | tickMasked (l : LineLevel) (hm : s.tickEnable = false) : Effect s (.tick l) s
  | countLow (he : s.tickEnable = true) : Effect s (.tick .low) (countLow s)
  | loseRun (he : s.tickEnable = true) (hc : s.breakConfirmed = false) : Effect s (.tick .high) (loseRun s)
  | handOff (he : s.tickEnable = true) (hc : s.breakConfirmed = true) : Effect s (.tick .high) (handOff s)
  | byteMasked (b : Byte) (hm : s.rxIntEnable = false) : Effect s (.rxByte b) s
  | byteSkipped (b : Byte) (he : s.rxIntEnable = true)
      (hw : (s.addressSkipCount + 1).toNat ≤ s.cfgStartAddress.toNat) : Effect s (.rxByte b) (countByte s)
  | byteStored (b : Byte) (he : s.rxIntEnable = true)
      (hw : s.cfgStartAddress.toNat < (s.addressSkipCount + 1).toNat) (hi : s.receivedCount ≤ s.params.frameTop)
      (hc : s.receivedCount < s.cfgChannelCount) : Effect s (.rxByte b) (stored b (countByte s))
  | byteCompletes (b : Byte) (he : s.rxIntEnable = true)
      (hw : s.cfgStartAddress.toNat < (s.addressSkipCount + 1).toNat) (hi : s.receivedCount ≤ s.params.frameTop)
      (hc : s.cfgChannelCount ≤ s.receivedCount) : Effect s (.rxByte b) (finishFrame (stored b (countByte s)))
  | overrunLatched (hm : s.rxIntEnable = false) : Effect s .rxErrOverrun (latchOverrun s)
  | overrunAbandons (he : s.rxIntEnable = true) : Effect s .rxErrOverrun (abandonAttempt (latchOverrun s))
  | malformedMasked {i : Instr} (hi : reportsMalformedByte i = true) (hm : s.rxIntEnable = false) : Effect s i s
  | malformed {i : Instr} (hi : reportsMalformedByte i = true) (he : s.rxIntEnable = true) :
      Effect s i (clearActivity s)
  | rearmNotReady (hn : s.frameReady = false) : Effect s .rearm s
  | rearm (hr : s.frameReady = true) : Effect s .rearm (rearmAcquisition s)
  | firstLevel (hp : s.mpxPhase = .emitFirstLevel) (hi : 1 ≤ s.params.frameTop) :
      Effect s .mpxTick (enterMpxPhase .emitSync (selectChannel 2
        (dacRequest (levelSample (s.frameByte 1)) (programPeriod .short s))))
  | sync (hp : s.mpxPhase = .emitSync) : Effect s .mpxTick (enterMpxPhase .emitNextLevel (dacRequest syncSample s))
  | nextLevel (hp : s.mpxPhase = .emitNextLevel) (hi : s.outputChannelIndex ≤ s.params.frameTop)
      (hc : s.outputChannelIndex < s.params.maxOut) :
      Effect s .mpxTick (enterMpxPhase .emitSync (selectChannel (s.outputChannelIndex + 1)
        (dacRequest (levelSample (s.frameByte s.outputChannelIndex)) s)))
  | lastLevel (hp : s.mpxPhase = .emitNextLevel) (hi : s.outputChannelIndex ≤ s.params.frameTop)
      (hc : s.params.maxOut ≤ s.outputChannelIndex) :
      Effect s .mpxTick (enterMpxPhase .emitLongSync (selectChannel 1
        (dacRequest (levelSample (s.frameByte s.outputChannelIndex)) s)))
  | longSync (hp : s.mpxPhase = .emitLongSync) :
      Effect s .mpxTick (enterMpxPhase .emitFirstLevel (dacRequest syncSample (programPeriod .long s)))
  | request {i : Instr} {x : Sample} (hi : requestOf i = some x) : Effect s i (dacRequest x s)
  | completion {i : Instr} (hi : completesCommand i = true) : Effect s i (busCompletion s)
  | byteNotDue {i : Instr} (hi : completesCommand i = true) : Effect s i s
  | declaresIdle {r : Bool} (hr : r = true) (hh : supIdleLimit < s.idleHistory.toNat) :
      Effect s (.supTick r) (declareIdle (toggleHeartbeat s))
  | countsPeriod {r : Bool} (hh : r = false ∨ s.idleHistory.toNat ≤ supIdleLimit) :
      Effect s (.supTick r) (countPeriod (toggleHeartbeat s))
  | cfgAddr (a : BitVec 10) (ha : a.toNat ≤ startMax) : Effect s (.cfgAddr a) { s with cfgStartAddress := a }
  | cfgCnt (n : BitVec 10) (hn : n.toNat ≤ s.params.maxCh) :
      Effect s (.cfgCnt n) { s with cfgChannelCount := n.toNat }

namespace Effect

variable {s t : State}

theorem of_tick {l : LineLevel} (h : execTick l s = .next t) : Effect s (.tick l) t := by
  rcases execTick_next h with ⟨hm, rfl⟩ | ⟨he, rfl, rfl⟩ | ⟨he, rfl, hc, rfl⟩ | ⟨he, rfl, hc, rfl⟩
  · exact .tickMasked l hm
  · exact .countLow he
  · exact .loseRun he hc
  · exact .handOff he hc

theorem of_rxByte {b : Byte} (h : execRxByte b s = .next t) : Effect s (.rxByte b) t := by
  rcases execRxByte_next h with ⟨hm, rfl⟩ | ⟨he, hw, rfl⟩ | ⟨he, hw, hi, hc, rfl⟩ | ⟨he, hw, hi, hc, rfl⟩
  · exact .byteMasked b hm
  · exact .byteSkipped b he hw
  · exact .byteStored b he hw hi hc
  · exact .byteCompletes b he hw hi hc

theorem of_overrun (s : State) : Effect s .rxErrOverrun (reactToLineError .overrun s) := by
  rcases reactToLineError_cases .overrun s with ⟨-, he, e⟩ | ⟨-, hm, e⟩ | ⟨hk, -⟩ | ⟨hk, -⟩
  · exact e ▸ .overrunAbandons he
  · exact e ▸ .overrunLatched hm
  · exact absurd rfl hk
  · exact absurd rfl hk

theorem of_malformed {i : Instr} {k : ErrorKind} (hi : reportsMalformedByte i = true) (hk : k ≠ .overrun) (s : State) :
    Effect s i (reactToLineError k s) := by
  rcases reactToLineError_cases k s with ⟨rfl, -⟩ | ⟨rfl, -⟩ | ⟨-, he, e⟩ | ⟨-, hm, e⟩
  · exact absurd rfl hk
  · exact absurd rfl hk
  · exact e ▸ .malformed hi he
  · rw [e]
    exact .malformedMasked hi hm

theorem of_rearm (h : execRearm s = .next t) : Effect s .rearm t := by
  rcases execRearm_next h with ⟨hn, rfl⟩ | ⟨hr, rfl⟩
  · exact .rearmNotReady hn
  · exact .rearm hr

theorem of_mpxTick (h : execMpxTick s = .next t) : Effect s .mpxTick t := by
  rcases execMpxTick_cases h with ⟨hp, hi, rfl⟩ | ⟨hp, rfl⟩ | ⟨hp, hi, hc, rfl⟩ | ⟨hp, hi, hc, rfl⟩ | ⟨hp, rfl⟩
  · exact .firstLevel hp hi
  · exact .sync hp
  · exact .nextLevel hp hi hc
  · exact .lastLevel hp hi hc
  · exact .longSync hp

theorem of_supTick {r : Bool} (h : execSupTick r s = .next t) : Effect s (.supTick r) t := by
  rcases execSupTick_cases r s with ⟨hr, hh, e⟩ | ⟨hh, e⟩
  · exact Host.Outcome.next.inj (e.symm.trans h) ▸ .declaresIdle hr hh
  · exact Host.Outcome.next.inj (e.symm.trans h) ▸ .countsPeriod hh

/-- A bus byte that does what BUSDONE does, or nothing, completes a command or leaves the state. -/
theorem of_busByte {i : Instr} (hi : completesCommand i = true) (h : exec i s = .next t)
    (hc : exec i s = exec .busDone s ∨ exec i s = .next s) : Effect s i t := by
  rcases hc with e | e
  · exact Host.Outcome.next.inj (e.symm.trans h) ▸ .completion hi
  · exact Host.Outcome.next.inj (e.symm.trans h) ▸ .byteNotDue hi

/-- Whatever an operation answers is one of its effects. -/
theorem of_exec {i : Instr} (h : exec i s = .next t) : Effect s i t := by
  cases i with
  | reset => exact Host.Outcome.next.inj h ▸ .reset
  | tick l => exact of_tick h
  | rxByte b => exact of_rxByte h
  | rxErrOverrun => exact Host.Outcome.next.inj h ▸ of_overrun s
  | rxErrFraming => exact Host.Outcome.next.inj h ▸ of_malformed rfl (by decide) s
  | rxErrParity => exact Host.Outcome.next.inj h ▸ of_malformed rfl (by decide) s
  | rearm => exact of_rearm h
  | mpxTick => exact of_mpxTick h
  | dacReq x => exact Host.Outcome.next.inj h ▸ .request rfl
  | busDone => exact Host.Outcome.next.inj h ▸ .completion rfl
  | supTick r => exact of_supTick h
  | cfgAddr a =>
    obtain ⟨ha, rfl⟩ := execCfgAddr_next h
    exact .cfgAddr a ha
  | cfgCnt n =>
    obtain ⟨hn, rfl⟩ := execCfgCnt_next h
    exact .cfgCnt n hn
  | levelCode v => exact Host.Outcome.next.inj h ▸ .request rfl
  | syncCode => exact Host.Outcome.next.inj h ▸ .request rfl
  | dacAddrByte a => exact of_busByte rfl h (exec_dacAddrByte_cases a s)
  | dacHighByte b => exact of_busByte rfl h (exec_dacHighByte_cases b s)
  | dacLowByte b => exact of_busByte rfl h (exec_dacLowByte_cases b s)

theorem eq_of_reset (h : Effect s .reset t) : t = withStimuli s.stimuli (State.resetWith s.params) := by
  cases h with
  | reset => rfl
  | malformedMasked hi | malformed hi | request hi | completion hi | byteNotDue hi => cases hi

/-- No operation writes the parameters (log 3). -/
theorem params_eq {i : Instr} (h : Effect s i t) : t.params = s.params := by
  cases h <;> simp [State.resetWith]

end Effect

/-- Settles O48: a sample code is a DACREQ of its sample, and a bus byte is the completion that is due, or nothing. -/
theorem formatRowsAddNoBehaviour : Obligations.FormatRowsAddNoBehaviour := fun s =>
  ⟨fun v => ⟨levelSample v, rfl⟩, ⟨syncSample, rfl⟩, fun a => exec_dacAddrByte_cases a s,
    fun b => exec_dacHighByte_cases b s, fun b => exec_dacLowByte_cases b s⟩

end Sys2Proof.Machine
end

