-- ==== Sys2Proof/Proofs/AcquisitionMode.lean ====
section
/-!
SUPPORT. The three acquisition states of 10_state.md R43: which bits each stands for, and which operations change it.
-/

namespace Sys2Proof.Machine

/-- `tick_enable`, `rx_int_enable` and `frame_ready` in each acquisition state (10_state.md R43). -/
def AcqMode.bits : AcqMode → Bool × Bool × Bool
  | .hunting => (true, false, false)
  | .receiving => (false, true, false)
  | .complete => (false, false, true)

theorem State.acqMode_eq_some_iff {s : State} {m : AcqMode} :
    s.acqMode = some m ↔ (s.tickEnable, s.rxIntEnable, s.frameReady) = m.bits := by
  unfold State.acqMode
  cases s.tickEnable <;> cases s.rxIntEnable <;> cases s.frameReady <;> cases m <;> simp [AcqMode.bits]

/-- The acquisition state depends on its three bits alone. -/
theorem State.acqMode_congr {s t : State} (ht : t.tickEnable = s.tickEnable) (hr : t.rxIntEnable = s.rxIntEnable)
    (hf : t.frameReady = s.frameReady) : t.acqMode = s.acqMode := by
  simp only [State.acqMode, ht, hr, hf]

/-- In a one-hot state an enabled tick source means Hunting. -/
theorem State.acqMode_of_tickEnable {s : State} {m : AcqMode} (hm : s.acqMode = some m) (h : s.tickEnable = true) :
    m = .hunting ∧ s.rxIntEnable = false ∧ s.frameReady = false := by
  rw [State.acqMode_eq_some_iff] at hm
  cases m <;> simp_all [AcqMode.bits]

/-- In a one-hot state enabled reception means Receiving. -/
theorem State.acqMode_of_rxIntEnable {s : State} {m : AcqMode} (hm : s.acqMode = some m) (h : s.rxIntEnable = true) :
    m = .receiving ∧ s.tickEnable = false ∧ s.frameReady = false := by
  rw [State.acqMode_eq_some_iff] at hm
  cases m <;> simp_all [AcqMode.bits]

/-- In a one-hot state the frame-ready flag means Complete. -/
theorem State.acqMode_of_frameReady {s : State} {m : AcqMode} (hm : s.acqMode = some m) (h : s.frameReady = true) :
    m = .complete ∧ s.tickEnable = false ∧ s.rxIntEnable = false := by
  rw [State.acqMode_eq_some_iff] at hm
  cases m <;> simp_all [AcqMode.bits]

/-- The changes of the acquisition state by an operation: reset, none, or one of the three transitions of
10_state.md R43. -/
def ModeChange (i : Instr) (m n : AcqMode) : Prop :=
  (i = .reset ∧ n = .hunting) ∨ (i ≠ .reset ∧ n = m) ∨
  (m = .hunting ∧ n = .receiving ∧ i = .tick .high) ∨
  (m = .receiving ∧ n = .complete ∧ ((∃ b, i = .rxByte b) ∨ i = .rxErrOverrun)) ∨
  (m = .complete ∧ n = .hunting ∧ i = .rearm)

theorem Effect.acqMode {i : Instr} {s t : State} {m : AcqMode} (h : Effect s i t) (hm : s.acqMode = some m) :
    ∃ n, t.acqMode = some n ∧ ModeChange i m n := by
  by_cases hr : i = .reset
  · subst hr
    obtain rfl := h.eq_of_reset
    exact ⟨.hunting, rfl, .inl ⟨rfl, rfl⟩⟩
  · cases h with
    | reset => exact absurd rfl hr
    | handOff he =>
      obtain ⟨rfl, -, hf⟩ := State.acqMode_of_tickEnable hm he
      exact ⟨.receiving, by simp [State.acqMode, hf], .inr (.inr (.inl ⟨rfl, rfl, rfl⟩))⟩
    | byteCompletes b he =>
      obtain ⟨rfl, ht, -⟩ := State.acqMode_of_rxIntEnable hm he
      exact ⟨.complete, by simp [State.acqMode, ht], .inr (.inr (.inr (.inl ⟨rfl, rfl, .inl ⟨b, rfl⟩⟩)))⟩
    | overrunAbandons he =>
      obtain ⟨rfl, ht, -⟩ := State.acqMode_of_rxIntEnable hm he
      exact ⟨.complete, by simp [State.acqMode, ht], .inr (.inr (.inr (.inl ⟨rfl, rfl, .inr rfl⟩)))⟩
    | rearm hf =>
      obtain ⟨rfl, -, hx⟩ := State.acqMode_of_frameReady hm hf
      exact ⟨.hunting, by simp [State.acqMode, hx], .inr (.inr (.inr (.inr ⟨rfl, rfl, rfl⟩)))⟩
    | _ =>
      refine ⟨m, Eq.trans (State.acqMode_congr ?_ ?_ ?_) hm, .inr (.inl ⟨hr, rfl⟩)⟩ <;> simp

/-- Settles O56, by the operations that write one of the three bits. -/
theorem acquisitionCyclesThroughThreeModes : Obligations.AcquisitionCyclesThroughThreeModes :=
  fun _ _ _ _ hm h => (Effect.of_exec h).acqMode hm

end Sys2Proof.Machine
end

