-- ==== Sys2Proof/Proofs/Driver.lean ====
section
/-!
SUPPORT. What an operation does to the DAC Transaction Driver's state and to the three output traces.
-/

namespace Sys2Proof.Machine

/-- The state the DAC Transaction Driver writes (10_state.md R42). -/
structure DriverPart where
  dacPhase : DacPhase
  dacSample : Sample
  busTrace : List BusCommand

/-- The driver's part of a state. -/
def State.driver (s : State) : DriverPart where
  dacPhase := s.dacPhase
  dacSample := s.dacSample
  busTrace := s.busTrace

/-- A request starts a transaction in `Idle` and is dropped otherwise (44_dac_driver.md R170, R171). -/
theorem dacRequest_driver_cases (x : Sample) (s : State) :
    (dacRequest x s).driver = s.driver ∨
    (s.dacPhase = .idle ∧ (dacRequest x s).driver = ⟨.startRequested, x, s.busTrace ++ [.start]⟩) := by
  rcases dacRequest_cases x s with ⟨hd, e⟩ | ⟨-, e⟩
  · exact .inr ⟨hd, by rw [e, State.driver]⟩
  · exact .inl (by rw [e])

/-- The operations that request a sample: MPXTICK, DACREQ and, by log 5, the two sample codes. -/
def RaisesRequest (i : Instr) : Prop :=
  i = .mpxTick ∨ (∃ x, i = .dacReq x) ∨ (∃ v, i = .levelCode v) ∨ i = .syncCode

theorem raisesRequest_of_requestOf {i : Instr} {x : Sample} (h : requestOf i = some x) : RaisesRequest i := by
  cases i with
  | dacReq y => exact .inr (.inl ⟨y, rfl⟩)
  | levelCode v => exact .inr (.inr (.inl ⟨v, rfl⟩))
  | syncCode => exact .inr (.inr (.inr rfl))
  | _ => cases h

/-- What an operation but reset may do to the driver: nothing, accept a request in `Idle`, or one completion. -/
def DriverMove (i : Instr) (s t : State) : Prop :=
  t.driver = s.driver ∨
  (s.dacPhase = .idle ∧ RaisesRequest i ∧ ∃ x, t.driver = ⟨.startRequested, x, s.busTrace ++ [.start]⟩) ∨
  t.driver = (busCompletion s).driver

/-- A request moves the driver, whatever the operation has written elsewhere before and after it. -/
theorem driverMove_of_request {i : Instr} {s t u : State} {x : Sample} (hi : RaisesRequest i)
    (hu : u.driver = s.driver) (ht : t.driver = (dacRequest x u).driver) : DriverMove i s t := by
  obtain ⟨hd, -, hb⟩ := DriverPart.mk.inj hu
  rcases dacRequest_driver_cases x u with e | ⟨hidle, e⟩
  · exact .inl (ht.trans (e.trans hu))
  · exact .inr (.inl ⟨hd ▸ hidle, hi, x, by rw [ht, e, hb]⟩)

theorem Effect.driverMove {i : Instr} {s t : State} (h : Effect s i t) (hr : i ≠ .reset) : DriverMove i s t := by
  cases h with
  | reset => exact absurd rfl hr
  | firstLevel => exact driverMove_of_request (u := programPeriod .short s) (.inl rfl) rfl rfl
  | longSync => exact driverMove_of_request (u := programPeriod .long s) (.inl rfl) rfl rfl
  | sync | nextLevel | lastLevel => exact driverMove_of_request (u := s) (.inl rfl) rfl rfl
  | request hi => exact driverMove_of_request (u := s) (raisesRequest_of_requestOf hi) rfl rfl
  | completion => exact .inr (.inr rfl)
  | _ => exact .inl rfl

/-- A completion appends at most one command, and that is never START (44_dac_driver.md R172 to R177). -/
theorem busCompletion_busTrace (s : State) :
    ∃ sent, (busCompletion s).busTrace = s.busTrace ++ sent ∧ BusCommand.start ∉ sent := by
  rcases busCompletion_cases s with ⟨-, e⟩ | ⟨-, e⟩ | ⟨-, e⟩ | ⟨-, e⟩ | ⟨-, e⟩ | ⟨-, e⟩ <;> rw [e]
  · exact ⟨[], (List.append_nil _).symm, by simp⟩
  · exact ⟨[.send s.dueAddressByte], rfl, by simp⟩
  · exact ⟨[.send s.dueHighByte], rfl, by simp⟩
  · exact ⟨[.send s.dueLowByte], rfl, by simp⟩
  · exact ⟨[.stop], rfl, by simp⟩
  · exact ⟨[], (List.append_nil _).symm, by simp⟩

/-- What an operation but reset appends to the bus trace: START alone, by a request accepted in `Idle`, or commands
other than START. -/
theorem Effect.busTrace_cases {i : Instr} {s t : State} (h : Effect s i t) (hr : i ≠ .reset) :
    (t.busTrace = s.busTrace ++ [.start] ∧ s.dacPhase = .idle ∧ t.dacPhase = .startRequested ∧ RaisesRequest i) ∨
    ∃ sent, t.busTrace = s.busTrace ++ sent ∧ BusCommand.start ∉ sent := by
  rcases h.driverMove hr with e | ⟨hd, hi, x, e⟩ | e <;> obtain ⟨hp, -, hb⟩ := DriverPart.mk.inj e
  · exact .inr ⟨[], hb.trans (List.append_nil _).symm, by simp⟩
  · exact .inl ⟨hb, hd, hp, hi⟩
  · obtain ⟨sent, hs, hn⟩ := busCompletion_busTrace s
    exact .inr ⟨sent, hb.trans hs, hn⟩

/-- Settles O37: only a request accepted in `Idle` appends START. -/
theorem startIsEmittedOnlyFromIdle : Obligations.StartIsEmittedOnlyFromIdle := by
  intro i s t new h hr hnew hstart
  rcases (Effect.of_exec h).busTrace_cases hr with ⟨-, hd, ht, hi⟩ | ⟨sent, hs, hn⟩
  · exact ⟨hd, ht, hi⟩
  · have : new = sent := List.append_cancel_left (hnew.symm.trans hs)
    exact absurd (this ▸ hstart) hn

theorem Effect.busTrace_extends {i : Instr} {s t : State} (h : Effect s i t) (hr : i ≠ .reset) :
    s.busTrace <+: t.busTrace := by
  rcases h.busTrace_cases hr with ⟨e, -⟩ | ⟨sent, e, -⟩
  · exact ⟨_, e.symm⟩
  · exact ⟨sent, e.symm⟩

/-- The period trace grows at the two ends of a scan only (43_mpx_generator.md R151, R155). -/
theorem Effect.periodTrace_extends {i : Instr} {s t : State} (h : Effect s i t) (hr : i ≠ .reset) :
    s.periodTrace <+: t.periodTrace := by
  cases h with
  | reset => exact absurd rfl hr
  | firstLevel => exact ⟨[.short], by simp⟩
  | longSync => exact ⟨[.long], by simp⟩
  | _ => simp

/-- The deserializer trace grows at the hand-off only (40_break_detector.md R112). -/
theorem Effect.deserTrace_extends {i : Instr} {s t : State} (h : Effect s i t) (hr : i ≠ .reset) :
    s.deserTrace <+: t.deserTrace := by
  cases h with
  | reset => exact absurd rfl hr
  | handOff => exact ⟨[.ovrClear], rfl⟩
  | _ => simp

/-- Settles O38, one trace at a time. -/
theorem tracesAreAppendOnly : Obligations.TracesAreAppendOnly := fun _ _ _ h hr =>
  have he := Effect.of_exec h
  ⟨he.busTrace_extends hr, he.periodTrace_extends hr, he.deserTrace_extends hr⟩

end Sys2Proof.Machine
end

