-- ==== Sys2Proof/Proofs/Invariant.lean ====
section
/-!
SUPPORT. The invariant of the core holds right after reset and is kept by every operation. Each of its four parts speaks
of few fields: a part is proved again only where an operation writes one of them, and carried over everywhere else.
-/

namespace Sys2Proof.Machine

theorem Params.ok_iff {p : Params} :
    p.ok = true ↔ p.maxCh ≤ maxChLimit ∧ maxOutLeast ≤ p.maxOut ∧ p.frameInit.length = p.frameTop + 1 := by
  simp [Params.ok, and_assoc]

/-! ### Acquisition -/

/-- The acquisition part of the invariant speaks of the parameters, the acquisition pipeline's state and Config. -/
theorem AcquisitionInv.congr {s t : State} (hs : AcquisitionInv s) (hp : t.params = s.params := by simp)
    (hq : t.acquisition = s.acquisition := by simp [State.acquisition])
    (hg : t.config = s.config := by simp [State.config]) : AcquisitionInv t := by
  obtain ⟨ht, hi, hb, hx, -, hk, hr, -, hf, -⟩ := AcquisitionPart.mk.inj hq
  obtain ⟨ha, hc⟩ := ConfigPart.mk.inj hg
  exact {
    oneHot := by rw [State.acqMode_congr ht hx hf]; exact hs.oneHot
    idleRange := by rw [hi]; exact hs.idleRange
    confirmedRun := by rw [hb, hi]; exact hs.confirmedRun
    receivingConfirmed := by rw [ht, hf, hb]; exact hs.receivingConfirmed
    receivedRange := by rw [hr, hp]; exact hs.receivedRange
    storeIndex := by rw [hx, hr, hp]; exact hs.storeIndex
    huntingCursor := by rw [ht, hr, hk]; exact hs.huntingCursor
    skipCountsStores := by rw [hr, hk]; exact hs.skipCountsStores
    skipBound := by rw [hk, hr]; exact hs.skipBound
    startLegal := by rw [ha]; exact hs.startLegal
    countLegal := by rw [hc, hp]; exact hs.countLegal }

theorem AcquisitionInv.resetWith (p : Params) : AcquisitionInv (State.resetWith p) := by
  constructor <;> simp [State.resetWith, State.acqMode]

/-- Reception is enabled only with the tick source disabled (10_state.md R43). -/
theorem AcquisitionInv.tickEnable_of_rxIntEnable {s : State} (hs : AcquisitionInv s) (h : s.rxIntEnable = true) :
    s.tickEnable = false := by
  obtain ⟨m, hm⟩ := Option.isSome_iff_exists.mp hs.oneHot
  exact (State.acqMode_of_rxIntEnable hm h).2.1

/-- The skip counter does not wrap: it is at most `START_MAX + MAX_CH + 1` (10_state.md R25). -/
theorem AcquisitionInv.toNat_addressSkipCount_succ {s : State} (hs : AcquisitionInv s) (hp : s.params.ok = true) :
    (s.addressSkipCount + 1).toNat = s.addressSkipCount.toNat + 1 := by
  have hmax : s.params.maxCh ≤ 512 := (Params.ok_iff.mp hp).1
  have hbound : s.addressSkipCount.toNat ≤ 512 + s.receivedCount := hs.skipBound
  have hreceived := hs.receivedRange
  rw [BitVec.toNat_add]
  exact Nat.mod_eq_of_lt (by simp; omega)

/-- One more LOW sample keeps the run within the threshold (40_break_detector.md R113, R116). -/
theorem countIdleSample_le {n : Nat} (h : n ≤ breakThreshold) : countIdleSample n ≤ breakThreshold := by
  unfold countIdleSample
  split <;> omega

theorem countIdleSample_threshold : countIdleSample breakThreshold = breakThreshold := rfl

theorem Effect.acquisitionInv {i : Instr} {s t : State} (h : Effect s i t) (hp : s.params.ok = true)
    (hs : AcquisitionInv s) : AcquisitionInv t := by
  have hone : t.acqMode.isSome = true := by
    obtain ⟨m, hm⟩ := Option.isSome_iff_exists.mp hs.oneHot
    obtain ⟨n, hn, -⟩ := h.acqMode hm
    simp [hn]
  have hskip := hs.toNat_addressSkipCount_succ hp
  have hstores := hs.skipCountsStores
  have hbound := hs.skipBound
  have hstart := hs.startLegal
  have hcount := hs.countLegal
  cases h with
  | reset => exact (AcquisitionInv.resetWith s.params).congr
  | countLow he =>
    exact { hs with
      oneHot := hone
      idleRange := countIdleSample_le hs.idleRange
      confirmedRun := fun hc => by
        rcases Bool.or_eq_true_iff.mp hc with hb | hb
        · exact (congrArg countIdleSample (hs.confirmedRun hb)).trans countIdleSample_threshold
        · exact of_decide_eq_true hb
      receivingConfirmed := fun ht => absurd (he.symm.trans ht) (by decide) }
  | loseRun he hc =>
    exact { hs with
      oneHot := hone
      idleRange := Nat.zero_le _
      confirmedRun := fun hb => absurd (hc.symm.trans hb) (by decide) }
  | handOff he hc =>
    exact { hs with
      oneHot := hone
      receivingConfirmed := fun _ _ => hc
      storeIndex := fun _ => (hs.huntingCursor he).1 ▸ Nat.zero_le _
      huntingCursor := nofun }
  | byteSkipped b he hw =>
    have ht := hs.tickEnable_of_rxIntEnable he
    exact { hs with
      oneHot := hone
      huntingCursor := fun h => absurd (ht.symm.trans h) (by decide)
      skipCountsStores := by simp; omega
      skipBound := by simp; omega }
  | byteStored b he hw hi hc =>
    have ht := hs.tickEnable_of_rxIntEnable he
    exact { hs with
      oneHot := hone
      receivedRange := by simp; omega
      storeIndex := fun _ => by simp; omega
      huntingCursor := fun h => absurd (ht.symm.trans h) (by decide)
      skipCountsStores := by simp; omega
      skipBound := by simp; omega }
  | byteCompletes b he hw hi hc =>
    have ht := hs.tickEnable_of_rxIntEnable he
    have hindex := hs.storeIndex he
    exact { hs with
      oneHot := hone
      receivingConfirmed := nofun
      receivedRange := by simp; omega
      storeIndex := nofun
      huntingCursor := fun h => absurd (ht.symm.trans h) (by decide)
      skipCountsStores := by simp; omega
      skipBound := by simp; omega }
  | overrunLatched => exact { hs with }
  | overrunAbandons he =>
    exact { hs with oneHot := hone, receivingConfirmed := nofun, storeIndex := nofun }
  | rearm hf =>
    exact { hs with
      oneHot := hone
      idleRange := Nat.zero_le _
      confirmedRun := nofun
      receivingConfirmed := nofun
      receivedRange := Nat.zero_le _
      storeIndex := fun _ => Nat.zero_le _
      huntingCursor := fun _ => ⟨rfl, rfl⟩
      skipCountsStores := Nat.zero_le _
      skipBound := Nat.zero_le _ }
  | cfgAddr a ha => exact { hs with startLegal := ha }
  | cfgCnt n hn => exact { hs with countLegal := hn }
  | _ => exact hs.congr

/-! ### MPX Generator -/

theorem GeneratorInv.congr {s t : State} (hs : GeneratorInv s) (hp : t.params = s.params := by simp)
    (hm : t.mpxPhase = s.mpxPhase := by simp) (hi : t.outputChannelIndex = s.outputChannelIndex := by simp)
    (hq : t.mpxPeriod = s.mpxPeriod := by simp) (ht : t.periodTrace = s.periodTrace := by simp) : GeneratorInv t where
  indexRange := by rw [hi, hp]; exact hs.indexRange
  indexAtEnds := by rw [hm, hi]; exact hs.indexAtEnds
  periodWithinScan := by rw [hm, hq]; exact hs.periodWithinScan
  periodTrace := by rw [ht, hm]; exact hs.periodTrace

theorem GeneratorInv.resetWith {p : Params} (hp : p.ok = true) : GeneratorInv (State.resetWith p) where
  indexRange := ⟨Nat.le_refl 1, Nat.le_of_succ_le (Params.ok_iff.mp hp).2.1⟩
  indexAtEnds := fun _ => rfl
  periodWithinScan := fun h => absurd rfl h
  periodTrace := ⟨0, rfl⟩

theorem Effect.generatorInv {i : Instr} {s t : State} (h : Effect s i t) (hp : s.params.ok = true)
    (hs : GeneratorInv s) : GeneratorInv t := by
  have hout : 2 ≤ s.params.maxOut := (Params.ok_iff.mp hp).2.1
  obtain ⟨hlow, hhigh⟩ := hs.indexRange
  obtain ⟨scans, htrace⟩ := hs.periodTrace
  cases h with
  | reset => exact (GeneratorInv.resetWith hp).congr
  | firstLevel hm =>
    exact {
      indexRange := by simpa using hout
      indexAtEnds := by simp
      periodWithinScan := by simp
      periodTrace := ⟨scans, by simp [htrace, hm]⟩ }
  | sync hm =>
    exact {
      indexRange := by simpa using ⟨hlow, hhigh⟩
      indexAtEnds := by simp
      periodWithinScan := by simpa using hs.periodWithinScan (by simp [hm])
      periodTrace := ⟨scans, by simp [htrace, hm]⟩ }
  | nextLevel hm _ hc =>
    exact {
      indexRange := by simpa using hc
      indexAtEnds := by simp
      periodWithinScan := by simpa using hs.periodWithinScan (by simp [hm])
      periodTrace := ⟨scans, by simp [htrace, hm]⟩ }
  | lastLevel hm =>
    exact {
      indexRange := by simp; omega
      indexAtEnds := by simp
      periodWithinScan := by simpa using hs.periodWithinScan (by simp [hm])
      periodTrace := ⟨scans, by simp [htrace, hm]⟩ }
  | longSync hm =>
    exact {
      indexRange := by simpa using ⟨hlow, hhigh⟩
      indexAtEnds := by simpa using hs.indexAtEnds (.inr hm)
      periodWithinScan := by simp
      periodTrace := ⟨scans + 1, by simp [htrace, hm, List.replicate_succ']⟩ }
  | _ => exact hs.congr

/-! ### DAC Transaction Driver -/

theorem BusTraceInv.congr {s t : State} (hs : BusTraceInv s) (hp : t.params = s.params) (hd : t.driver = s.driver) :
    BusTraceInv t := by
  obtain ⟨hphase, hsample, htrace⟩ := DriverPart.mk.inj hd
  unfold BusTraceInv
  rw [hp, hphase, hsample, htrace]
  exact hs

/-- Each completion sends the next command of the transaction, and the last one closes it (30_encoding.md R84). -/
theorem BusTraceInv.busCompletion {s : State} (hs : BusTraceInv s) : BusTraceInv (busCompletion s) := by
  obtain ⟨sent, htrace⟩ := hs
  rcases busCompletion_cases s with ⟨hd, e⟩ | ⟨hd, e⟩ | ⟨hd, e⟩ | ⟨hd, e⟩ | ⟨hd, e⟩ | ⟨hd, e⟩ <;>
    rw [hd] at htrace <;> rw [e]
  · exact ⟨sent, hd ▸ htrace⟩
  · exact ⟨sent, by simp [htrace, transaction, DacPhase.commandsAsked, DacPhase.code, State.dueAddressByte]⟩
  · exact ⟨sent, by simp [htrace, transaction, DacPhase.commandsAsked, DacPhase.code, State.dueHighByte]⟩
  · exact ⟨sent, by simp [htrace, transaction, DacPhase.commandsAsked, DacPhase.code, State.dueLowByte]⟩
  · exact ⟨sent, by simp [htrace, transaction, DacPhase.commandsAsked, DacPhase.code]⟩
  · exact ⟨sent ++ [s.dacSample], by simp [htrace, transaction, DacPhase.commandsAsked, DacPhase.code]⟩

theorem Effect.busTraceInv {i : Instr} {s t : State} (h : Effect s i t) (hs : BusTraceInv s) : BusTraceInv t := by
  by_cases hr : i = .reset
  · subst hr
    obtain rfl := h.eq_of_reset
    exact ⟨[], rfl⟩
  · have hp := h.params_eq
    rcases h.driverMove hr with e | ⟨hd, -, x, e⟩ | e
    · exact hs.congr hp e
    · obtain ⟨sent, htrace⟩ := hs
      obtain ⟨hphase, hsample, hbus⟩ := DriverPart.mk.inj e
      refine ⟨sent, ?_⟩
      rw [hbus, hphase, hsample, hp, htrace, hd]
      simp [transaction, DacPhase.commandsAsked, DacPhase.code]
    · exact hs.busCompletion.congr (by simp [hp]) e

/-! ### Frame buffer -/

theorem FrameInv.congr {s t : State} (hs : FrameInv s) (hp : t.params = s.params := by simp)
    (hf : t.frame = s.frame := by simp) : FrameInv t where
  canonical := by rw [hp, hf]; exact hs.canonical
  inRange := by rw [hp, hf]; exact hs.inRange

theorem FrameInv.stored {s : State} (hs : FrameInv s) (hi : s.receivedCount ≤ s.params.frameTop) (b : Byte) :
    FrameInv (stored b s) where
  canonical := Memory.wf_write _ _ _ _ hs.canonical
  inRange := Memory.within_write _ _ _ _ _ hi hs.inRange

theorem Effect.frameInv {i : Instr} {s t : State} (h : Effect s i t) (hs : FrameInv s) : FrameInv t := by
  cases h with
  | reset => exact ⟨rfl, rfl⟩
  | byteStored b _ _ hi | byteCompletes b _ _ hi =>
    exact ((hs.congr (t := countByte s)).stored hi b).congr
  | _ => exact hs.congr

/-! ### The whole invariant -/

theorem Inv.resetWith {p : Params} (hp : p.ok = true) : Inv (State.resetWith p) where
  paramsOk := hp
  acquisition := .resetWith p
  generator := .resetWith hp
  bus := ⟨[], rfl⟩
  buffer := ⟨rfl, rfl⟩

/-- Every operation keeps the invariant. -/
theorem Effect.inv {i : Instr} {s t : State} (h : Effect s i t) (hs : Inv s) : Inv t where
  paramsOk := h.params_eq ▸ hs.paramsOk
  acquisition := h.acquisitionInv hs.paramsOk hs.acquisition
  generator := h.generatorInv hs.paramsOk hs.generator
  bus := h.busTraceInv hs.bus
  buffer := h.frameInv hs.buffer

/-- The invariant does not speak of the schedule. -/
theorem Inv.withStimuli {s : State} (hs : Inv s) (rest : List CodeWord) : Inv (withStimuli rest s) where
  paramsOk := hs.paramsOk
  acquisition := hs.acquisition.congr
  generator := hs.generator.congr
  bus := hs.bus
  buffer := hs.buffer.congr

/-- A step that answers a next state waits, or runs one operation on the state without its code word. -/
theorem step_next {s t : State} (h : step s = .next t) :
    t = s ∨ ∃ i rest, exec i (withStimuli rest s) = .next t := by
  rcases step_cases s with ⟨-, e⟩ | ⟨-, -, e⟩ | ⟨-, c, rest, -, e⟩
  · cases e.symm.trans h
  · exact .inl (Host.Outcome.next.inj (e.symm.trans h)).symm
  · have hrun : runCodeWord c (Machine.withStimuli rest s) = .next t := e.symm.trans h
    unfold runCodeWord at hrun
    split at hrun
    · exact .inr ⟨_, rest, hrun⟩
    · cases hrun

/-- Settles O50: the step lemma of `Inv`, from the effects of the operations. -/
theorem everyStepKeepsTheInvariants : Obligations.EveryStepKeepsTheInvariants := by
  intro s t hs h
  rcases step_next h with rfl | ⟨i, rest, hi⟩
  · exact hs
  · exact (Effect.of_exec hi).inv (hs.withStimuli rest)

/-- Settles O49. -/
theorem resetSatisfiesTheInvariants : Obligations.ResetSatisfiesTheInvariants :=
  ⟨fun _ hp => .resetWith hp, .resetWith (by decide)⟩

/-- Settles O52, from the ranges in `Inv`. -/
theorem numbersFitTheirRegisterWidths : Obligations.NumbersFitTheirRegisterWidths := by
  intro s hs
  have hidle : s.idleRunLength ≤ 20 := hs.acquisition.idleRange
  have hreceived := hs.acquisition.receivedRange
  have hindex := hs.generator.indexRange.2
  have hcount := hs.acquisition.countLegal
  have fits {n m : Nat} (h : n < m) : n < 2 ^ Nat.clog 2 m := h.trans_le (Nat.le_pow_clog (by decide) m)
  exact ⟨by omega, fits (by omega), fits (by omega), fits (by omega)⟩

end Sys2Proof.Machine
end

