-- ==== Sys2Proof/Proofs/Agents.lean ====
section
/-!
SUPPORT. Which fields each agent's operation writes (10_state.md R42): the state after it is the state before it with
those fields replaced, and a bit that the agent may only set, or only clear, changes in no other way.
-/

namespace Sys2Proof.Machine

variable {s t : State}

/-- The Break Detector (40_break_detector.md R110 to R113). -/
theorem execTick_writes {l : LineLevel} (h : execTick l s = .next t) :
    t = { s with idleRunLength := t.idleRunLength, breakConfirmed := t.breakConfirmed, tickEnable := t.tickEnable,
                 rxIntEnable := t.rxIntEnable, overrunPending := t.overrunPending, deserTrace := t.deserTrace } ∧
    (t.tickEnable = true → s.tickEnable = true) ∧ (s.rxIntEnable = true → t.rxIntEnable = true) ∧
    (t.overrunPending = true → s.overrunPending = true) := by
  rcases execTick_next h with ⟨-, rfl⟩ | ⟨-, -, rfl⟩ | ⟨-, -, -, rfl⟩ | ⟨-, -, -, rfl⟩
  · exact ⟨rfl, id, id, id⟩
  · exact ⟨rfl, id, id, id⟩
  · exact ⟨rfl, id, id, id⟩
  · exact ⟨rfl, nofun, fun _ => rfl, nofun⟩

/-- What the Frame Receiver may do to a state: it writes its own fields, only sets the frame-ready flag and the overrun
latch, and only clears `rx_int_enable`. -/
def ReceiverWrites (s t : State) : Prop :=
  t = { s with addressSkipCount := t.addressSkipCount, receivedCount := t.receivedCount, frame := t.frame,
               frameReady := t.frameReady, rxIntEnable := t.rxIntEnable, rxActive := t.rxActive,
               overrunPending := t.overrunPending } ∧
  (s.frameReady = true → t.frameReady = true) ∧ (t.rxIntEnable = true → s.rxIntEnable = true) ∧
  (s.overrunPending = true → t.overrunPending = true)

/-- A received byte (41_frame_receiver.md R120 to R123). -/
theorem execRxByte_writes {b : Byte} (h : execRxByte b s = .next t) : ReceiverWrites s t := by
  rcases execRxByte_next h with ⟨-, rfl⟩ | ⟨-, -, rfl⟩ | ⟨-, -, -, -, rfl⟩ | ⟨-, -, -, -, rfl⟩
  · exact ⟨rfl, id, id, id⟩
  · exact ⟨rfl, id, id, id⟩
  · exact ⟨rfl, id, id, id⟩
  · exact ⟨rfl, fun _ => rfl, nofun, id⟩

/-- A line error (41_frame_receiver.md R124 to R127). -/
theorem reactToLineError_writes (k : ErrorKind) (s : State) : ReceiverWrites s (reactToLineError k s) := by
  rcases reactToLineError_cases k s with ⟨-, -, e⟩ | ⟨-, -, e⟩ | ⟨-, -, e⟩ | ⟨-, -, e⟩ <;> rw [e]
  · exact ⟨rfl, fun _ => rfl, nofun, fun _ => rfl⟩
  · exact ⟨rfl, id, id, fun _ => rfl⟩
  · exact ⟨rfl, id, id, id⟩
  · exact ⟨rfl, id, id, id⟩

/-- The MPX Generator, and through `DacRequest` the driver (43_mpx_generator.md R151 to R155). -/
theorem execMpxTick_writes (h : execMpxTick s = .next t) :
    t = { s with mpxPhase := t.mpxPhase, outputChannelIndex := t.outputChannelIndex, mpxPeriod := t.mpxPeriod,
                 periodTrace := t.periodTrace, dacPhase := t.dacPhase, dacSample := t.dacSample,
                 busTrace := t.busTrace } := by
  rcases execMpxTick_cases h with ⟨-, -, rfl⟩ | ⟨-, rfl⟩ | ⟨-, -, -, rfl⟩ | ⟨-, -, -, rfl⟩ | ⟨-, rfl⟩ <;>
    (apply State.ext <;> simp)

/-- A request writes the driver's state only (44_dac_driver.md R170, R171). -/
theorem dacRequest_writes (x : Sample) (s : State) :
    dacRequest x s = { s with dacPhase := (dacRequest x s).dacPhase, dacSample := (dacRequest x s).dacSample,
                              busTrace := (dacRequest x s).busTrace } := by
  apply State.ext <;> simp

/-- A completion writes the driver's state only (44_dac_driver.md R172 to R177). -/
theorem busCompletion_writes (s : State) :
    busCompletion s = { s with dacPhase := (busCompletion s).dacPhase, dacSample := (busCompletion s).dacSample,
                               busTrace := (busCompletion s).busTrace } := by
  apply State.ext <;> simp

/-- The Link Activity Supervisor (45_link_supervisor.md R190). -/
theorem execSupTick_writes {r : Bool} (h : execSupTick r s = .next t) :
    t = { s with heartbeat := t.heartbeat, idleHistory := t.idleHistory, rxActive := t.rxActive } ∧
    (t.rxActive = true → s.rxActive = true) := by
  rcases execSupTick_cases r s with ⟨-, -, e⟩ | ⟨-, e⟩ <;> obtain rfl := Host.Outcome.next.inj (e.symm.trans h)
  · exact ⟨rfl, nofun⟩
  · exact ⟨rfl, id⟩

/-- Settles O57, agent by agent. -/
theorem eachAgentWritesOnlyItsOwnState : Obligations.EachAgentWritesOnlyItsOwnState := by
  intro i s t h
  refine ⟨?tick, ?receiver, ?rearm, ?mpx, ?driver, ?supervisor, ?address, ?count⟩
  case tick =>
    rintro ⟨l, rfl⟩
    exact execTick_writes h
  case receiver =>
    rintro (⟨b, rfl⟩ | rfl | rfl | rfl)
    · exact execRxByte_writes h
    · exact Host.Outcome.next.inj h ▸ reactToLineError_writes .overrun s
    · exact Host.Outcome.next.inj h ▸ reactToLineError_writes .framing s
    · exact Host.Outcome.next.inj h ▸ reactToLineError_writes .parity s
  case rearm =>
    rintro rfl
    rcases execRearm_next h with ⟨-, rfl⟩ | ⟨-, rfl⟩
    · exact .inl rfl
    · exact .inr rfl
  case mpx =>
    rintro rfl
    exact execMpxTick_writes h
  case driver =>
    rintro (⟨x, rfl⟩ | rfl) <;> obtain rfl := Host.Outcome.next.inj h
    · exact dacRequest_writes x s
    · exact busCompletion_writes s
  case supervisor =>
    rintro ⟨r, rfl⟩
    exact execSupTick_writes h
  case address =>
    rintro ⟨a, rfl⟩
    obtain ⟨-, rfl⟩ := execCfgAddr_next h
    rfl
  case count =>
    rintro ⟨n, rfl⟩
    obtain ⟨-, rfl⟩ := execCfgCnt_next h
    rfl

end Sys2Proof.Machine
end

