-- ==== Sys2Proof/Proofs/FrameBuffer.lean ====
section
/-!
SUPPORT. Access to the frame buffer (20_memory.md): which operations reach it, that the invariants keep every index in
range (R62), that an index above `FRAME_TOP` is the model's fault, and what a store leaves unchanged (R65).
-/

namespace Sys2Proof.Machine

variable {s t : State}

/-! ### Where the buffer is accessed -/

/-- A received byte is always handled when the store index exists; while disabled there is no store at all. -/
theorem execRxByte_completes (b : Byte) (hi : s.rxIntEnable = true → s.receivedCount ≤ s.params.frameTop) :
    ∃ t, execRxByte b s = .next t := by
  rcases execRxByte_cases b s with ⟨-, e⟩ | ⟨-, -, e⟩ | ⟨he, -, e⟩
  · exact ⟨_, e⟩
  · exact ⟨_, e⟩
  · rcases storeByte_cases b (countByte s) with ⟨-, -, e'⟩ | ⟨-, -, e'⟩ | ⟨hgt, -⟩
    · exact ⟨_, e.trans e'⟩
    · exact ⟨_, e.trans e'⟩
    · exact absurd (hi he) (Nat.not_le.mpr hgt)

/-- A tick of the generator is always handled when both indices it may read exist: the literal 1 (43_mpx_generator.md
R151) and `output_channel_index` (R153). -/
theorem execMpxTick_completes (hfirst : 1 ≤ s.params.frameTop) (hi : s.outputChannelIndex ≤ s.params.frameTop) :
    ∃ t, execMpxTick s = .next t := by
  unfold execMpxTick
  cases s.mpxPhase with
  | emitFirstLevel => exact ⟨_, withLevel_of_le hfirst⟩
  | emitSync => exact ⟨_, rfl⟩
  | emitNextLevel => exact ⟨_, withLevel_of_le hi⟩
  | emitLongSync => exact ⟨_, rfl⟩

/-! ### An index above `FRAME_TOP` (log 8) -/

/-- A byte past the skip window whose store index does not exist is the model's fault. -/
theorem execRxByte_fault (b : Byte) (he : s.rxIntEnable = true)
    (hw : s.cfgStartAddress.toNat < (s.addressSkipCount + 1).toNat) (hi : s.params.frameTop < s.receivedCount) :
    execRxByte b s = .fault (.frameIndexOutOfRange s.receivedCount) := by
  rcases execRxByte_cases b s with ⟨hm, -⟩ | ⟨-, hskip, -⟩ | ⟨-, -, e⟩
  · exact absurd (he.symm.trans hm) (by decide)
  · exact absurd hskip (Nat.not_le.mpr hw)
  · rcases storeByte_cases b (countByte s) with ⟨hle, -⟩ | ⟨hle, -⟩ | ⟨-, e'⟩
    · exact absurd hle (Nat.not_le.mpr hi)
    · exact absurd hle (Nat.not_le.mpr hi)
    · exact e.trans e'

/-- Settles O18, access by access. -/
theorem missingFrameIndexFaults : Obligations.MissingFrameIndexFaults := by
  refine ⟨fun s b he hw hi => ?store, fun s hp hi => ?nextLevel, fun s hp htop => ?firstLevel⟩
  case store =>
    have hskip : (s.addressSkipCount + 1).toNat = (s.addressSkipCount.toNat + 1) % 2 ^ 16 := BitVec.toNat_add _ _
    exact execRxByte_fault b he (hskip ▸ hw) hi
  case nextLevel =>
    have e : exec .mpxTick s = emitNextLevel s := by simp only [exec, execMpxTick, hp]
    exact e.trans (withLevel_of_gt hi)
  case firstLevel =>
    have e : exec .mpxTick s = emitFirstLevel s := by simp only [exec, execMpxTick, hp]
    exact e.trans (withLevel_of_gt (by omega))

/-! ### What the configuration port answers -/

/-- CFGADDR writes a well-formed operand and refuses any other (46_config_port.md R195). -/
theorem execCfgAddr_cases (a : BitVec 10) (s : State) :
    (startAddressLegal a = true ∧ execCfgAddr a s = .next { s with cfgStartAddress := a }) ∨
    (startAddressLegal a = false ∧ execCfgAddr a s = .refused .configOutOfRange) := by
  by_cases ha : a.toNat ≤ startMax
  · exact .inl ⟨decide_eq_true ha, if_pos ha⟩
  · exact .inr ⟨decide_eq_false ha, if_neg ha⟩

/-- CFGCNT writes a well-formed operand and refuses any other (46_config_port.md R196). -/
theorem execCfgCnt_cases (n : BitVec 10) (s : State) :
    (channelCountLegal s.params n = true ∧ execCfgCnt n s = .next { s with cfgChannelCount := n.toNat }) ∨
    (channelCountLegal s.params n = false ∧ execCfgCnt n s = .refused .configOutOfRange) := by
  by_cases hn : n.toNat ≤ s.params.maxCh
  · exact .inl ⟨decide_eq_true hn, if_pos hn⟩
  · exact .inr ⟨decide_eq_false hn, if_neg hn⟩

/-! ### The invariants keep every index in range (20_memory.md R62) -/

/-- The next store index exists while the receiver is enabled. -/
theorem Inv.storeIndex_le_frameTop (hs : Inv s) (he : s.rxIntEnable = true) : s.receivedCount ≤ s.params.frameTop :=
  (hs.acquisition.storeIndex he).trans (Nat.le_max_left _ _)

/-- The channel the generator reads next exists. -/
theorem Inv.outputChannelIndex_le_frameTop (hs : Inv s) : s.outputChannelIndex ≤ s.params.frameTop :=
  hs.generator.indexRange.2.trans (Nat.le_max_right _ _)

/-- The literal channel 1 exists. -/
theorem Inv.one_le_frameTop (hs : Inv s) : 1 ≤ s.params.frameTop :=
  hs.generator.indexRange.1.trans hs.outputChannelIndex_le_frameTop

/-- Settles O51: only the two operations that access the frame buffer can fault, and the invariants keep their indices
in range; only the configuration port refuses. -/
theorem invariantStatesCompleteEveryEvent : Obligations.InvariantStatesCompleteEveryEvent := by
  intro i s hs
  cases i with
  | rxByte b => exact .inl (execRxByte_completes b hs.storeIndex_le_frameTop)
  | mpxTick => exact .inl (execMpxTick_completes hs.one_le_frameTop hs.outputChannelIndex_le_frameTop)
  | cfgAddr a =>
    rcases execCfgAddr_cases a s with ⟨-, e⟩ | ⟨ha, e⟩
    · exact .inl ⟨_, e⟩
    · exact .inr ⟨e, ha, .inl ⟨a, rfl⟩⟩
  | cfgCnt n =>
    rcases execCfgCnt_cases n s with ⟨-, e⟩ | ⟨hn, e⟩
    · exact .inl ⟨_, e⟩
    · exact .inr ⟨e, hn, .inr ⟨n, rfl⟩⟩
  | _ => exact .inl ⟨_, rfl⟩

/-! ### What a store leaves unchanged (20_memory.md R65) -/

/-- Only RXBYTE and RESET write the frame buffer. -/
theorem Effect.frame_eq {i : Instr} (h : Effect s i t) (hr : i ≠ .reset) (hb : ∀ b, i ≠ .rxByte b) :
    t.frame = s.frame := by
  cases h with
  | reset => exact absurd rfl hr
  | byteStored b | byteCompletes b => exact absurd rfl (hb b)
  | _ => simp

/-- RXBYTE writes at most the byte at `received_count`. -/
theorem execRxByte_frameByte {b : Byte} (h : execRxByte b s = .next t) {j : Nat} (hj : j ≠ s.receivedCount) :
    t.frameByte j = s.frameByte j := by
  have hstored : (stored b (countByte s)).frameByte j = s.frameByte j :=
    (stored_frameByte b (countByte s) j).trans (if_neg hj)
  rcases execRxByte_next h with ⟨-, rfl⟩ | ⟨-, -, rfl⟩ | ⟨-, -, -, -, rfl⟩ | ⟨-, -, -, -, rfl⟩
  · rfl
  · rfl
  · exact hstored
  · exact hstored

/-- Settles O58: a byte is written by RXBYTE alone, and at the store index alone. -/
theorem onlyAStoreChangesAFrameByte : Obligations.OnlyAStoreChangesAFrameByte := by
  intro i s t h hr
  have hother (hb : ∀ b, i ≠ .rxByte b) (j : Nat) : t.frameByte j = s.frameByte j :=
    have heffect := Effect.of_exec h
    frameByte_congr heffect.params_eq (heffect.frame_eq hr hb) j
  refine ⟨hother, fun j hj => ?_⟩
  by_cases hb : ∃ b, i = .rxByte b
  · obtain ⟨b, rfl⟩ := hb
    exact execRxByte_frameByte h hj
  · exact hother (not_exists.mp hb) j

end Sys2Proof.Machine
end

