-- ==== Sys2Proof/Proofs/Encoding.lean ====
section
/-!
SUPPORT. The decoder, one equation for each `op` of the operation map (30_encoding.md R93), and its agreement with the
encoder and with the opcode table's match and mask pairs. Where bits must be zero, the rest of the word is the operand:
that one fact about slices carries every round trip.
-/

namespace Sys2Proof

/-! ### Slices of a word -/

/-- The two parts of a word give the word back. -/
theorem bits_append_bits {m n : Nat} (v : BitVec (m + n)) : bits v n m ++ bits v 0 n = v := by
  rw [BitVec.extractLsb'_append_extractLsb'_eq_extractLsb' (Nat.zero_add n).symm, BitVec.extractLsb'_eq_self]

/-- A word whose high part is known is that part followed by its low part. -/
theorem append_bits_of_high {m n : Nat} {v : BitVec (m + n)} {c : BitVec m} (h : bits v n m = c) :
    c ++ bits v 0 n = v := by
  rw [← h, bits_append_bits]

/-- A word whose low part is known is its high part followed by that part. -/
theorem bits_append_of_low {m n : Nat} {v : BitVec (m + n)} {c : BitVec n} (h : bits v 0 n = c) :
    bits v n m ++ c = v := by
  rw [← h, bits_append_bits]

/-- A slice of a slice. -/
theorem bits_bits {n lo width lo' width' : Nat} (v : BitVec n) (h : lo' + width' ≤ width) :
    bits (bits v lo width) lo' width' = bits v (lo + lo') width' := by
  ext i hi
  have hin : lo' + i < width := by omega
  simp [hin, Nat.add_assoc]

/-- Every stimulus word is an `op` and an `arg` (30_encoding.md R92). -/
theorem exists_stimWord (w : StimWord) : ∃ op arg, CodeWord.stim16 w = stimWord op arg :=
  ⟨bits w 12 4, bits w 0 12, congrArg _ (bits_append_bits (m := 4) (n := 12) w).symm⟩

@[simp] theorem bitOf_flagOf (b : BitVec 1) : bitOf (flagOf b) = b := by
  revert b
  decide

@[simp] theorem toBit_ofBit (b : BitVec 1) : (LineLevel.ofBit b).toBit = b := by
  revert b
  decide

/-! ### The operation map, one equation for each `op` (30_encoding.md R93, R94) -/

section OperationMap

variable (arg : BitVec 12)

theorem decode_op0 : decode (stimWord 0x0#4 arg) = whenZero 0x0#4 arg .reset := by
  simp [decode, decodeStim, stimWord]

theorem decode_op1 :
    decode (stimWord 0x1#4 arg) = whenZero 0x1#4 (bits arg 1 11) (.tick (LineLevel.ofBit (bits arg 0 1))) := by
  simp [decode, decodeStim, stimWord, bits_stim_field]

theorem decode_op2 : decode (stimWord 0x2#4 arg) = whenZero 0x2#4 (bits arg 8 4) (.rxByte (bits arg 0 8)) := by
  simp [decode, decodeStim, stimWord, bits_stim_field]

theorem decode_op3 :
    decode (stimWord 0x3#4 arg) =
      if bits arg 2 10 = 0 then decodeRxErr (bits arg 0 2) else .error (.mustBeZero 0x3#4) := by
  simp [decode, decodeStim, stimWord, bits_stim_field]

theorem decode_op4 : decode (stimWord 0x4#4 arg) = whenZero 0x4#4 arg .rearm := by
  simp [decode, decodeStim, stimWord]

theorem decode_op5 : decode (stimWord 0x5#4 arg) = whenZero 0x5#4 arg .mpxTick := by
  simp [decode, decodeStim, stimWord]

theorem decode_op6 : decode (stimWord 0x6#4 arg) = whenZero 0x6#4 (bits arg 10 2) (.dacReq (bits arg 0 10)) := by
  simp [decode, decodeStim, stimWord, bits_stim_field]

theorem decode_op7 : decode (stimWord 0x7#4 arg) = whenZero 0x7#4 arg .busDone := by
  simp [decode, decodeStim, stimWord]

theorem decode_op8 :
    decode (stimWord 0x8#4 arg) = whenZero 0x8#4 (bits arg 1 11) (.supTick (flagOf (bits arg 0 1))) := by
  simp [decode, decodeStim, stimWord, bits_stim_field]

theorem decode_op9 : decode (stimWord 0x9#4 arg) = whenZero 0x9#4 (bits arg 10 2) (.cfgAddr (bits arg 0 10)) := by
  simp [decode, decodeStim, stimWord, bits_stim_field]

theorem decode_opA : decode (stimWord 0xA#4 arg) = whenZero 0xA#4 (bits arg 10 2) (.cfgCnt (bits arg 0 10)) := by
  simp [decode, decodeStim, stimWord, bits_stim_field]

end OperationMap

/-- `op` 0xB to 0xF is reserved, whatever the rest of the word (30_encoding.md R94). -/
theorem decodeStim_reservedOp {w : StimWord} (h : 11 ≤ (bits w 12 4).toNat) :
    decodeStim w = .error (.reservedOp (bits w 12 4)) := by
  unfold decodeStim
  dsimp only
  split
  case h_12 => rfl
  all_goals omega

/-- The `op`s of the map, and the reserved ones. -/
theorem op_cases (op : BitVec 4) :
    op = 0x0#4 ∨ op = 0x1#4 ∨ op = 0x2#4 ∨ op = 0x3#4 ∨ op = 0x4#4 ∨ op = 0x5#4 ∨ op = 0x6#4 ∨ op = 0x7#4 ∨
    op = 0x8#4 ∨ op = 0x9#4 ∨ op = 0xA#4 ∨ 11 ≤ op.toNat := by
  revert op
  decide

/-! ### Level codes and bus bytes (30_encoding.md R81, R85, R86) -/

/-- A level code decodes to its level. -/
theorem decodeSample_levelCode (v : Byte) : decodeSample (1#1 ++ v ++ 0#1) = .ok (.levelCode v) := by
  have hlow : bits (1#1 ++ v ++ 0#1 : Sample) 0 1 = 0#1 := bits_append_low _ _
  have hhigh : bits (1#1 ++ v ++ 0#1 : Sample) 1 9 = 1#1 ++ v := bits_append_high _ _
  have htop : bits (1#1 ++ v ++ 0#1 : Sample) 9 1 = 1#1 := by
    rw [← bits_bits (lo := 1) (width := 9) (lo' := 8) _ le_rfl, hhigh]
    exact bits_append_high 1#1 v
  have hlevel : bits (1#1 ++ v ++ 0#1 : Sample) 1 8 = v := by
    rw [← bits_bits (lo := 1) (width := 9) (lo' := 0) _ (by decide), hhigh]
    exact bits_append_low 1#1 v
  have hne : (1#1 ++ v ++ 0#1 : Sample) ≠ 0 := by
    intro h
    rw [h] at htop
    exact absurd htop (by decide)
  rw [decodeSample, if_neg hne, if_pos ⟨htop, hlow⟩, hlevel]

/-- A sample with bit 9 set and bit 0 clear is the level code of the bits between. -/
theorem levelCode_of_bits {s : Sample} (htop : bits s 9 1 = 1#1) (hlow : bits s 0 1 = 0#1) :
    1#1 ++ bits s 1 8 ++ 0#1 = s := by
  have hhigh : 1#1 ++ bits s 1 8 = bits s 1 9 := by
    rw [← bits_bits (lo := 1) (width := 9) (lo' := 0) s (by decide)]
    exact append_bits_of_high (m := 1) (n := 8) ((bits_bits (width := 9) s le_rfl).trans htop)
  rw [hhigh]
  exact bits_append_of_low (m := 9) (n := 1) hlow

/-- An address with the write bit 0 below it decodes to the address. -/
theorem decodeBusByte_address (a : BitVec 7) : decodeBusByte .address (a ++ 0#1) = .ok (.dacAddrByte a) := by
  have haddress : bits (a ++ 0#1 : Byte) 1 7 = a := bits_append_high _ _
  rw [decodeBusByte, if_pos (bits_append_low a 0#1), haddress]

/-- A nibble below a zero nibble decodes to the nibble. -/
theorem decodeBusByte_high (h : BitVec 4) : decodeBusByte .high (0#4 ++ h) = .ok (.dacHighByte h) := by
  have hnibble : bits (0#4 ++ h : Byte) 0 4 = h := bits_append_low _ _
  rw [decodeBusByte, if_pos (bits_append_high 0#4 h), hnibble]

/-! ### Round trips -/

/-- An operand below bits that are zero is what the checked operation reads. -/
theorem whenZero_operand {m k : Nat} (op : BitVec 4) (x : BitVec k) (f : BitVec k → Instr) :
    whenZero op (bits (0#m ++ x) k m) (f (bits (0#m ++ x) 0 k)) = .ok (f x) := by
  rw [bits_append_high, bits_append_low]
  exact whenZero_zero op (f x)

/-- A checked operation reads an operand below bits that are zero. -/
theorem exists_operand_of_whenZero {m k : Nat} {op : BitVec 4} {arg : BitVec (m + k)} {f : BitVec k → Instr}
    {i : Instr} (h : whenZero op (bits arg k m) (f (bits arg 0 k)) = .ok i) : ∃ x, arg = 0#m ++ x ∧ i = f x := by
  obtain ⟨hz, hi⟩ := whenZero_ok h
  exact ⟨bits arg 0 k, (append_bits_of_high hz).symm, hi⟩

/-- Settles O2, one row at a time: the operand is the low part of the encoding, and the part above it is zero. -/
theorem decodeOfEncodeIsTheInstruction : Obligations.DecodeOfEncodeIsTheInstruction := by
  intro i
  cases i with
  | reset | rearm | mpxTick | busDone | rxErrOverrun | rxErrFraming | rxErrParity | syncCode | dacLowByte _ => rfl
  | tick l =>
    calc decode (encode (.tick l))
      _ = .ok (.tick (LineLevel.ofBit l.toBit)) :=
        (decode_op1 _).trans (whenZero_operand (m := 11) _ l.toBit fun b => .tick (LineLevel.ofBit b))
      _ = .ok (.tick l) := by rw [ofBit_toBit]
  | rxByte b => exact (decode_op2 _).trans (whenZero_operand (m := 4) _ b .rxByte)
  | dacReq x => exact (decode_op6 _).trans (whenZero_operand (m := 2) _ x .dacReq)
  | supTick r =>
    calc decode (encode (.supTick r))
      _ = .ok (.supTick (flagOf (bitOf r))) :=
        (decode_op8 _).trans (whenZero_operand (m := 11) _ (bitOf r) fun b => .supTick (flagOf b))
      _ = .ok (.supTick r) := by rw [flagOf_bitOf]
  | cfgAddr a => exact (decode_op9 _).trans (whenZero_operand (m := 2) _ a .cfgAddr)
  | cfgCnt n => exact (decode_opA _).trans (whenZero_operand (m := 2) _ n .cfgCnt)
  | levelCode v => exact decodeSample_levelCode v
  | dacAddrByte a => exact decodeBusByte_address a
  | dacHighByte h => exact decodeBusByte_high h

theorem encode_of_decodeRxErr {kind : BitVec 2} {i : Instr} (h : decodeRxErr kind = .ok i) :
    encode i = stimWord 0x3#4 (0#10 ++ kind) := by
  unfold decodeRxErr at h
  split_ifs at h with hk hk hk <;> obtain rfl := Except.ok.inj h <;> subst hk <;> rfl

theorem encode_of_decode_stimWord {op : BitVec 4} {arg : BitVec 12} {i : Instr}
    (h : decode (stimWord op arg) = .ok i) : encode i = stimWord op arg := by
  rcases op_cases op with rfl | rfl | rfl | rfl | rfl | rfl | rfl | rfl | rfl | rfl | rfl | hop
  · obtain ⟨rfl, rfl⟩ := whenZero_ok ((decode_op0 arg).symm.trans h)
    rfl
  · obtain ⟨b, rfl, rfl⟩ := exists_operand_of_whenZero (m := 11) (k := 1)
      (f := fun b => .tick (LineLevel.ofBit b)) ((decode_op1 arg).symm.trans h)
    rw [encode, toBit_ofBit]
  · obtain ⟨b, rfl, rfl⟩ := exists_operand_of_whenZero (m := 4) (k := 8) ((decode_op2 arg).symm.trans h)
    rfl
  · rw [decode_op3] at h
    split_ifs at h with hz
    exact (encode_of_decodeRxErr h).trans (congrArg _ (append_bits_of_high (m := 10) (n := 2) hz))
  · obtain ⟨rfl, rfl⟩ := whenZero_ok ((decode_op4 arg).symm.trans h)
    rfl
  · obtain ⟨rfl, rfl⟩ := whenZero_ok ((decode_op5 arg).symm.trans h)
    rfl
  · obtain ⟨x, rfl, rfl⟩ := exists_operand_of_whenZero (m := 2) (k := 10) ((decode_op6 arg).symm.trans h)
    rfl
  · obtain ⟨rfl, rfl⟩ := whenZero_ok ((decode_op7 arg).symm.trans h)
    rfl
  · obtain ⟨b, rfl, rfl⟩ := exists_operand_of_whenZero (m := 11) (k := 1)
      (f := fun b => .supTick (flagOf b)) ((decode_op8 arg).symm.trans h)
    rw [encode, bitOf_flagOf]
  · obtain ⟨a, rfl, rfl⟩ := exists_operand_of_whenZero (m := 2) (k := 10) ((decode_op9 arg).symm.trans h)
    rfl
  · obtain ⟨n, rfl, rfl⟩ := exists_operand_of_whenZero (m := 2) (k := 10) ((decode_opA arg).symm.trans h)
    rfl
  · have hw : 11 ≤ (bits (op ++ arg : StimWord) 12 4).toNat := by rwa [bits_stim_op]
    cases (decodeStim_reservedOp hw).symm.trans h

theorem encode_of_decodeSample {s : Sample} {i : Instr} (h : decodeSample s = .ok i) : encode i = .sample10 s := by
  unfold decodeSample at h
  split_ifs at h with hs hbits
  · obtain rfl := Except.ok.inj h
    rw [hs]
    rfl
  · obtain rfl := Except.ok.inj h
    obtain ⟨htop, hlow⟩ := hbits
    exact congrArg _ (levelCode_of_bits htop hlow)

theorem encode_of_decodeBusByte {slot : ByteSlot} {w : Byte} {i : Instr} (h : decodeBusByte slot w = .ok i) :
    encode i = .busByte8 slot w := by
  cases slot with
  | address =>
    rw [decodeBusByte] at h
    split_ifs at h with hb
    obtain rfl := Except.ok.inj h
    exact congrArg _ (bits_append_of_low (m := 7) (n := 1) hb)
  | high =>
    rw [decodeBusByte] at h
    split_ifs at h with hn
    obtain rfl := Except.ok.inj h
    exact congrArg _ (append_bits_of_high (m := 4) (n := 4) hn)
  | low =>
    obtain rfl := Except.ok.inj h
    rfl

/-- Settles O3, one format at a time. -/
theorem encodeOfDecodeIsTheWord : Obligations.EncodeOfDecodeIsTheWord := by
  intro c i h
  cases c with
  | stim16 w =>
    obtain ⟨op, arg, e⟩ := exists_stimWord w
    rw [e] at h ⊢
    exact encode_of_decode_stimWord h
  | sample10 s => exact encode_of_decodeSample h
  | busByte8 slot w => exact encode_of_decodeBusByte h

/-- The decoder and the encoder are inverse to each other. -/
theorem decode_eq_ok_iff {c : CodeWord} {i : Instr} : decode c = .ok i ↔ encode i = c :=
  ⟨encodeOfDecodeIsTheWord c i, fun h => h ▸ decodeOfEncodeIsTheInstruction i⟩

/-! ### The opcode table's match and mask pairs -/

/-- Zeros above an operand do not change it as a number. -/
theorem toNat_zero_append {m n : Nat} (x : BitVec n) : (0#m ++ x).toNat = x.toNat := by
  rw [toNat_append_add, BitVec.toNat_zero, Nat.mul_zero, Nat.zero_add]

/-- A stimulus word as a number. -/
theorem stimWord_eq_ofNat (op : BitVec 4) {arg : BitVec 12} {n : Nat} (h : arg.toNat = n) :
    stimWord op arg = .stim16 (BitVec.ofNat 16 (2 ^ 12 * op.toNat + n)) := by
  rw [← h, ← toNat_append_add op arg, BitVec.ofNat_toNat, BitVec.setWidth_eq]
  rfl

/-- A mask over the bits from `k` upward splits a stimulus word into what it reads and what it leaves. -/
theorem land_mask_add_mod (w : StimWord) {k : Nat} (hk : k ≤ 16) :
    (w.toNat &&& (2 ^ 16 - 2 ^ k)) + w.toNat % 2 ^ k = w.toNat := by
  have hpow : 2 ^ 16 = 2 ^ k * 2 ^ (16 - k) := by rw [← Nat.pow_add, Nat.add_sub_cancel' hk]
  have hmask : 2 ^ 16 - 2 ^ k = 2 ^ k * (2 ^ (16 - k) - 1) := by rw [hpow, Nat.mul_sub_one]
  have hhigh : w.toNat / 2 ^ k < 2 ^ (16 - k) := Nat.div_lt_of_lt_mul (hpow ▸ w.isLt)
  have hread : w.toNat &&& (2 ^ 16 - 2 ^ k) = 2 ^ k * (w.toNat / 2 ^ k) := by
    calc w.toNat &&& (2 ^ 16 - 2 ^ k)
      _ = (2 ^ k * (w.toNat / 2 ^ k) + w.toNat % 2 ^ k) &&& (2 ^ k * (2 ^ (16 - k) - 1)) := by
        rw [Nat.div_add_mod, hmask]
      _ = 2 ^ k * (w.toNat / 2 ^ k) := by
        rw [land_fixed _ _ _ _ (Nat.mod_lt _ (Nat.two_pow_pos k)), Nat.and_two_pow_sub_one_eq_mod,
          Nat.mod_eq_of_lt hhigh]
  rw [hread, Nat.div_add_mod]

/-- A row of the operation map fixes the bits above its operand of `k` bits: its words are those of one operation
(30_encoding.md R93). -/
theorem stimRow_operand {r : TableRow} (hr : r ∈ stimRows) :
    ∃ (k : Nat) (f : BitVec k → Instr), k ≤ 16 ∧ r.mask = 2 ^ 16 - 2 ^ k ∧
      ∀ x, (f x).mnemonic = r.mnemonic ∧ encode (f x) = .stim16 (BitVec.ofNat 16 (r.matchBits + x.toNat)) := by
  simp only [stimRows, List.mem_cons, List.not_mem_nil, or_false] at hr
  rcases hr with rfl | rfl | rfl | rfl | rfl | rfl | rfl | rfl | rfl | rfl | rfl | rfl | rfl
  · exact ⟨0, fun _ => .reset, by decide⟩
  · exact ⟨1, fun b => .tick (.ofBit b), by decide⟩
  · exact ⟨8, .rxByte, by decide, rfl, fun x => ⟨rfl, stimWord_eq_ofNat _ (toNat_zero_append (m := 4) x)⟩⟩
  · exact ⟨0, fun _ => .rxErrOverrun, by decide⟩
  · exact ⟨0, fun _ => .rxErrFraming, by decide⟩
  · exact ⟨0, fun _ => .rxErrParity, by decide⟩
  · exact ⟨0, fun _ => .rearm, by decide⟩
  · exact ⟨0, fun _ => .mpxTick, by decide⟩
  · exact ⟨10, .dacReq, by decide, rfl, fun x => ⟨rfl, stimWord_eq_ofNat _ (toNat_zero_append (m := 2) x)⟩⟩
  · exact ⟨0, fun _ => .busDone, by decide⟩
  · exact ⟨1, fun b => .supTick (flagOf b), by decide⟩
  · exact ⟨10, .cfgAddr, by decide, rfl, fun x => ⟨rfl, stimWord_eq_ofNat _ (toNat_zero_append (m := 2) x)⟩⟩
  · exact ⟨10, .cfgCnt, by decide, rfl, fun x => ⟨rfl, stimWord_eq_ofNat _ (toNat_zero_append (m := 2) x)⟩⟩

/-- A word that a row of the operation map spells is the encoding of an operation of that row. -/
theorem exists_encode_of_spells {r : TableRow} {w : StimWord} (hr : r ∈ stimRows) (hs : r.spells 16 w.toNat = true) :
    ∃ i, encode i = .stim16 w ∧ i.mnemonic = r.mnemonic := by
  obtain ⟨k, f, hk, hmask, hf⟩ := stimRow_operand hr
  have hmatch : w.toNat &&& (2 ^ 16 - 2 ^ k) = r.matchBits := by
    simp only [TableRow.spells, hmask, Bool.and_eq_true, beq_iff_eq] at hs
    exact hs.2
  obtain ⟨hname, hword⟩ := hf (BitVec.ofNat k w.toNat)
  refine ⟨_, ?_, hname⟩
  rw [hword, BitVec.toNat_ofNat, ← hmatch, land_mask_add_mod w hk, BitVec.ofNat_toNat, BitVec.setWidth_eq]

/-- Every operation's encoding is spelled by the operation's own row. -/
theorem spelledByOwnRow_eq_true (i : Instr) : spelledByOwnRow i = true := by
  cases i with
  | reset => exact Laws.RowSpelling.reset
  | tick l => exact Laws.RowSpelling.tick l
  | rxByte b => exact Laws.RowSpelling.rxByte b
  | rxErrOverrun => exact Laws.RowSpelling.rxErrOverrun
  | rxErrFraming => exact Laws.RowSpelling.rxErrFraming
  | rxErrParity => exact Laws.RowSpelling.rxErrParity
  | rearm => exact Laws.RowSpelling.rearm
  | mpxTick => exact Laws.RowSpelling.mpxTick
  | dacReq x => exact Laws.RowSpelling.dacReq x
  | busDone => exact Laws.RowSpelling.busDone
  | supTick r => exact Laws.RowSpelling.supTick r
  | cfgAddr a => exact Laws.RowSpelling.cfgAddr a
  | cfgCnt n => exact Laws.RowSpelling.cfgCnt n
  | levelCode v => exact Laws.RowSpelling.levelCode v
  | syncCode => exact Laws.RowSpelling.syncCode
  | dacAddrByte a => exact Laws.RowSpelling.dacAddrByte a
  | dacHighByte h => exact Laws.RowSpelling.dacHighByte h
  | dacLowByte l => exact Laws.RowSpelling.dacLowByte l

/-- A mnemonic of the operation map names one row of the table. -/
theorem find_mnemonic_of_mem {r : TableRow} (hr : r ∈ stimRows) :
    tableRows.find? (fun r' => r'.mnemonic == r.mnemonic) = some r := by
  revert r
  decide

/-- The row of an operation spells the operation's encoding. -/
theorem spells_encode {r : TableRow} {i : Instr} (hr : r ∈ stimRows) (hi : i.mnemonic = r.mnemonic) :
    r.spells (encode i).nbits (encode i).toNat = true := by
  have h := spelledByOwnRow_eq_true i
  simpa only [spelledByOwnRow, hi, find_mnemonic_of_mem hr] using h

/-- An operation that is encoded in a stimulus word has its row in the operation map. -/
theorem exists_stimRow {w : StimWord} {i : Instr} (h : encode i = .stim16 w) :
    ∃ r ∈ stimRows, r.mnemonic = i.mnemonic := by
  cases i with
  | levelCode _ | syncCode | dacAddrByte _ | dacHighByte _ | dacLowByte _ => cases h
  | _ => simp [stimRows, Instr.mnemonic]

/-- Settles O4: a row spells the encodings of its own operations and no other word. -/
theorem stimulusDecoderFollowsOperationMap : Obligations.StimulusDecoderFollowsOperationMap := by
  refine ⟨fun w r hr => ⟨fun hs => ?_, ?_⟩, fun w i h => exists_stimRow (decode_eq_ok_iff.mp h)⟩
  · obtain ⟨i, hi, hname⟩ := exists_encode_of_spells hr hs
    exact ⟨i, decode_eq_ok_iff.mpr hi, hname⟩
  · rintro ⟨i, hi, hname⟩
    have hs := spells_encode hr hname
    rwa [decode_eq_ok_iff.mp hi] at hs

/-- Settles O1: each word is the encoding of its operation. -/
theorem writtenOutWordsDecode : Obligations.WrittenOutWordsDecode := by
  unfold Obligations.WrittenOutWordsDecode
  simp only [decode_eq_ok_iff]
  decide

end Sys2Proof
end

