-- ==== Sys2Proof/Proofs/DataFormats.lean ====
section
/-!
SUPPORT. The bytes of a transaction as numbers, and what the format rows do as steps (logs 5 and 6).
-/

namespace Sys2Proof.Machine

/-! ### The bytes of a transaction (30_encoding.md R85 to R87) -/

/-- The address byte determines the address. -/
theorem addressByte_inj {a b : BitVec 7} : addressByte a = addressByte b ↔ a = b := by
  refine ⟨fun h => ?_, congrArg addressByte⟩
  calc a
    _ = bits (addressByte a) 1 7 := (bits_append_high a 0#1).symm
    _ = bits (addressByte b) 1 7 := by rw [h]
    _ = b := bits_append_high b 0#1

/-- The shift drops no bit of the sample: it fits the 12 bits of the word. -/
theorem sampleWord_toNat (k : SampleShift) (x : Sample) : (sampleWord k x).toNat = x.toNat * 2 ^ k.amount := by
  have hx := x.isLt
  have hfits : x.toNat * 2 ^ k.amount < 2 ^ 12 := by
    cases k <;> simp only [SampleShift.amount] <;> omega
  rw [sampleWord, BitVec.toNat_shiftLeft, BitVec.toNat_setWidth_of_le (by decide), Nat.shiftLeft_eq,
    Nat.mod_eq_of_lt hfits]

/-- The first data byte holds the four high bits of the word, below a zero nibble. -/
theorem highByte_toNat_eq_nibble (k : SampleShift) (x : Sample) :
    (highByte k x).toNat = (bits (sampleWord k x) 8 4).toNat :=
  toNat_zero_append (m := 4) _

theorem highByte_toNat (k : SampleShift) (x : Sample) : (highByte k x).toNat = x.toNat * 2 ^ k.amount / 256 := by
  have hw := (sampleWord k x).isLt
  rw [highByte_toNat_eq_nibble, BitVec.extractLsb'_toNat, Nat.shiftRight_eq_div_pow, ← sampleWord_toNat]
  omega

theorem lowByte_toNat (k : SampleShift) (x : Sample) : (lowByte k x).toNat = x.toNat * 2 ^ k.amount % 256 := by
  rw [lowByte, BitVec.extractLsb'_toNat, sampleWord_toNat, Nat.shiftRight_zero]

/-- Equal bytes carry equal samples: they are quotient and remainder of the shifted sample. -/
theorem sample_eq_of_bytes {k : SampleShift} {x y : Sample} (hhigh : highByte k x = highByte k y)
    (hlow : lowByte k x = lowByte k y) : x = y := by
  have hdiv : x.toNat * 2 ^ k.amount / 256 = y.toNat * 2 ^ k.amount / 256 := by
    rw [← highByte_toNat, hhigh, highByte_toNat]
  have hmod : x.toNat * 2 ^ k.amount % 256 = y.toNat * 2 ^ k.amount % 256 := by
    rw [← lowByte_toNat, hlow, lowByte_toNat]
  have hshifted : x.toNat * 2 ^ k.amount = y.toNat * 2 ^ k.amount := by omega
  exact BitVec.eq_of_toNat_eq (Nat.eq_of_mul_eq_mul_right (Nat.two_pow_pos _) hshifted)

/-- Settles O7. -/
theorem dataBytesCarryTheWholeSample : Obligations.DataBytesCarryTheWholeSample := fun k x =>
  ⟨highByte_toNat k x, lowByte_toNat k x, (highByte_toNat_eq_nibble k x).trans_lt (BitVec.isLt _),
    fun _ => sample_eq_of_bytes⟩

/-! ### The format rows as steps (logs 5 and 6) -/

/-- Settles O46: each of the two rows is `DacRequest` of its sample. -/
theorem handedOverSampleIsRequested : Obligations.HandedOverSampleIsRequested := by
  intro s
  have hlevel (v : Byte) : exec (.levelCode v) s = .next (dacRequest (levelSample v) s) := rfl
  have hsync : exec .syncCode s = .next (dacRequest syncSample s) := rfl
  refine ⟨fun hidle => ⟨fun v => ?_, ?_⟩, fun hbusy => ⟨fun v => ?_, ?_⟩⟩
  · rw [hlevel, dacRequest_idle _ hidle]
    rfl
  · rw [hsync, dacRequest_idle _ hidle]
    rfl
  · rw [hlevel, dacRequest_busy _ hbusy]
  · rw [hsync, dacRequest_busy _ hbusy]

/-- Settles O47: where a byte is due it is the byte that the driver's own send puts on the bus. -/
theorem busByteIsSentWhenDue : Obligations.BusByteIsSentWhenDue := by
  intro s
  refine ⟨fun a => ?_, fun h => ?_, fun l => ?_⟩ <;>
    refine congrArg Host.Outcome.next (if_ctx_congr ?_ ?_ fun _ => rfl)
  · exact and_congr_right' (addressByte_inj.trans eq_comm)
  · rintro ⟨-, rfl⟩
    rfl
  · exact Iff.rfl
  · rintro ⟨-, hdue⟩
    rw [← hdue]
    rfl
  · exact Iff.rfl
  · rintro ⟨-, hdue⟩
    rw [← hdue]
    rfl

end Sys2Proof.Machine
end

