-- ==== Sys2Proof/Proofs/Schedule.lean ====
section
/-!
SUPPORT. Steps along a schedule (30_encoding.md R92): what one step runs, and that no operation looks at the schedule,
so that a replayed script is its operations run in order.
-/

namespace Sys2Proof.Machine

variable {s : State}

/-! ### One step -/

theorem runCodeWord_of_decode {c : CodeWord} {i : Instr} (h : decode c = .ok i) (s : State) :
    runCodeWord c s = exec i s := by
  rw [runCodeWord, h]

theorem runCodeWord_of_error {c : CodeWord} {why : DecodeError} (h : decode c = .error why) (s : State) :
    runCodeWord c s = .refused (.invalidStimulus why) := by
  rw [runCodeWord, h]

/-- With legal parameters and no word pending a step waits. -/
theorem step_nil (hp : s.params.ok = true) (hs : s.stimuli = []) : step s = .next s := by
  rcases step_cases s with ⟨hbad, -⟩ | ⟨-, -, e⟩ | ⟨-, c, rest, hc, -⟩
  · cases hbad.symm.trans hp
  · exact e
  · cases hc.symm.trans hs

/-- With legal parameters a step runs the first word of the schedule. -/
theorem step_cons {c : CodeWord} {rest : List CodeWord} (hp : s.params.ok = true) (hs : s.stimuli = c :: rest) :
    step s = runCodeWord c (withStimuli rest s) := by
  rcases step_cases s with ⟨hbad, -⟩ | ⟨-, hnil, -⟩ | ⟨-, c', rest', hc, e⟩
  · cases hbad.symm.trans hp
  · cases hnil.symm.trans hs
  · obtain ⟨rfl, rfl⟩ := List.cons.inj (hc.symm.trans hs)
    exact e

/-- A step whose word spells no row is refused by the decoder's reason (30_encoding.md R94). -/
theorem step_invalidStimulus {c : CodeWord} {rest : List CodeWord} {why : DecodeError} (hp : s.params.ok = true)
    (hs : s.stimuli = c :: rest) (h : decode c = .error why) : step s = .refused (.invalidStimulus why) :=
  (step_cons hp hs).trans (runCodeWord_of_error h _)

/-- A step whose word decodes runs the operation. -/
theorem step_of_decode {c : CodeWord} {rest : List CodeWord} {i : Instr} (hp : s.params.ok = true)
    (hs : s.stimuli = c :: rest) (h : decode c = .ok i) : step s = exec i (withStimuli rest s) :=
  (step_cons hp hs).trans (runCodeWord_of_decode h _)

theorem decode_of_decodeTableWord {nbits w : Nat} {i : Instr} (h : decodeTableWord nbits w = some i) :
    decode (tableCodeWord nbits w) = .ok i := by
  unfold decodeTableWord at h
  cases e : decode (tableCodeWord nbits w) with
  | ok j =>
    rw [e] at h
    exact congrArg _ (Option.some.inj h)
  | error why =>
    rw [e] at h
    cases h

/-- Settles O53. -/
theorem stepRunsTheDecodedInstruction : Obligations.StepRunsTheDecodedInstruction := by
  refine ⟨fun s c rest i hp hs h => step_of_decode hp hs h, fun s hp hs => step_nil hp hs, ?_⟩
  intro s nbits w i hp h
  exact step_of_decode (s := s.withFetchWord nbits w) (rest := s.stimuli) hp rfl (decode_of_decodeTableWord h)

/-- A stimulus word that no row of the operation map spells does not decode (30_encoding.md R93). -/
theorem decode_error_of_no_row {w : StimWord} (h : ∀ r ∈ stimRows, r.spells 16 w.toNat = false) :
    ∃ why, decode (.stim16 w) = .error why := by
  obtain ⟨hrow, hknown⟩ := stimulusDecoderFollowsOperationMap
  cases hd : decode (.stim16 w) with
  | error why => exact ⟨why, rfl⟩
  | ok i =>
    obtain ⟨r, hr, hname⟩ := hknown w i hd
    cases (h r hr).symm.trans ((hrow w r hr).mpr ⟨i, hd, hname.symm⟩)

/-- Settles O5, from the decoder's answers on reserved words. -/
theorem reservedStimuliAreRefused : Obligations.ReservedStimuliAreRefused := by
  intro s w rest hp hs
  refine ⟨fun hop => step_invalidStimulus hp hs (decodeStim_reservedOp hop), ?_, fun hrows => ?_⟩
  · rintro rfl
    exact step_invalidStimulus hp hs rfl
  · obtain ⟨why, hd⟩ := decode_error_of_no_row hrows
    exact ⟨why, step_invalidStimulus hp hs hd⟩

/-! ### No operation looks at the schedule -/

/-- An answer with the schedule of its next state replaced. -/
def reschedule (rest : List CodeWord) : Result → Result
  | .next t => .next (withStimuli rest t)
  | .fault f => .fault f
  | .refused r => .refused r

section Independence

variable (rest : List CodeWord) (s : State)

theorem dacRequest_withStimuli (x : Sample) :
    dacRequest x (withStimuli rest s) = withStimuli rest (dacRequest x s) := by
  rw [dacRequest, dacRequest, withStimuli_dacPhase]
  cases s.dacPhase <;> rfl

theorem busCompletion_withStimuli : busCompletion (withStimuli rest s) = withStimuli rest (busCompletion s) := by
  rw [busCompletion, busCompletion, withStimuli_dacPhase]
  cases s.dacPhase <;> rfl

theorem reactToLineError_withStimuli (k : ErrorKind) :
    reactToLineError k (withStimuli rest s) = withStimuli rest (reactToLineError k s) := by
  rw [reactToLineError, reactToLineError, apply_ite (withStimuli rest)]
  cases k <;> rfl

theorem sampleLine_withStimuli (l : LineLevel) :
    sampleLine l (withStimuli rest s) = withStimuli rest (sampleLine l s) := by
  cases l with
  | low => rfl
  | high =>
    rw [sampleLine, sampleLine, apply_ite (withStimuli rest)]
    rfl

theorem completeFrame_withStimuli : completeFrame (withStimuli rest s) = withStimuli rest (completeFrame s) := by
  rw [completeFrame, completeFrame, apply_ite (withStimuli rest)]
  rfl

theorem frameWrite_withStimuli (i : Nat) (b : Byte) :
    frameWrite (withStimuli rest s) i b = (frameWrite s i b).map (withStimuli rest) := by
  rw [frameWrite, frameWrite, apply_ite (Option.map (withStimuli rest))]
  rfl

theorem storeByte_withStimuli (b : Byte) : storeByte b (withStimuli rest s) = reschedule rest (storeByte b s) := by
  rw [storeByte, storeByte, frameWrite_withStimuli, withStimuli_receivedCount]
  cases frameWrite s s.receivedCount b with
  | none => rfl
  | some t => exact congrArg _ (completeFrame_withStimuli rest (advanceCursor t))

theorem placeByte_withStimuli (b : Byte) : placeByte b (withStimuli rest s) = reschedule rest (placeByte b s) := by
  rw [placeByte, placeByte, apply_ite (reschedule rest), ← storeByte_withStimuli]
  rfl

theorem execRxByte_withStimuli (b : Byte) : execRxByte b (withStimuli rest s) = reschedule rest (execRxByte b s) := by
  rw [execRxByte, execRxByte, apply_ite (reschedule rest), ← placeByte_withStimuli]
  rfl

theorem withLevel_withStimuli {k k' : Sample → State} (hk : ∀ x, k' x = withStimuli rest (k x)) (i : Nat) :
    withLevel i (withStimuli rest s) k' = reschedule rest (withLevel i s k) := by
  by_cases hi : i ≤ s.params.frameTop
  · rw [withLevel_of_le hi, withLevel_of_le (s := withStimuli rest s) hi]
    exact congrArg _ (hk _)
  · have hi' := Nat.lt_of_not_le hi
    rw [withLevel_of_gt hi', withLevel_of_gt (s := withStimuli rest s) hi']
    rfl

theorem execMpxTick_withStimuli : execMpxTick (withStimuli rest s) = reschedule rest (execMpxTick s) := by
  rw [execMpxTick, execMpxTick, withStimuli_mpxPhase]
  cases s.mpxPhase with
  | emitFirstLevel =>
    refine withLevel_withStimuli rest s (fun x => ?_) 1
    exact congrArg (enterMpxPhase .emitSync <| selectChannel 2 ·)
      (dacRequest_withStimuli rest (programPeriod .short s) x)
  | emitSync =>
    exact congrArg (Host.Outcome.next <| enterMpxPhase .emitNextLevel ·) (dacRequest_withStimuli rest s syncSample)
  | emitNextLevel =>
    refine withLevel_withStimuli rest s (fun x => ?_) s.outputChannelIndex
    rw [dacRequest_withStimuli, apply_ite (withStimuli rest)]
    rfl
  | emitLongSync =>
    exact congrArg (Host.Outcome.next <| enterMpxPhase .emitFirstLevel ·)
      (dacRequest_withStimuli rest (programPeriod .long s) syncSample)

theorem execCfgAddr_withStimuli (a : BitVec 10) :
    execCfgAddr a (withStimuli rest s) = reschedule rest (execCfgAddr a s) := by
  rw [execCfgAddr, execCfgAddr, apply_ite (reschedule rest)]
  rfl

theorem execCfgCnt_withStimuli (n : BitVec 10) :
    execCfgCnt n (withStimuli rest s) = reschedule rest (execCfgCnt n s) := by
  rw [execCfgCnt, execCfgCnt, apply_ite (reschedule rest)]
  rfl

/-- A choice between two states depends on the schedule only through the states. -/
theorem next_eq_reschedule_ite {c : Prop} [Decidable c] {t u v : State}
    (h : (if c then withStimuli rest t else withStimuli rest u) = v) :
    (.next v : Result) = reschedule rest (.next (if c then t else u)) :=
  congrArg _ (h.symm.trans (apply_ite _ c t u).symm)

/-- Two schedules lead an operation to the same answer but for the schedule itself (log 1): no test of an operation
reads the schedule, and each branch leaves it as it is. -/
theorem exec_withStimuli (i : Instr) : exec i (withStimuli rest s) = reschedule rest (exec i s) := by
  have hnext {t u : State} (h : t = withStimuli rest u) : (.next t : Result) = reschedule rest (.next u) :=
    congrArg _ h
  cases i with
  | reset => rfl
  | tick l => exact next_eq_reschedule_ite rest (congrArg (ite _ · _) (sampleLine_withStimuli rest s l).symm)
  | rxByte b => exact execRxByte_withStimuli rest s b
  | rxErrOverrun => exact hnext (reactToLineError_withStimuli rest s .overrun)
  | rxErrFraming => exact hnext (reactToLineError_withStimuli rest s .framing)
  | rxErrParity => exact hnext (reactToLineError_withStimuli rest s .parity)
  | mpxTick => exact execMpxTick_withStimuli rest s
  | dacReq x => exact hnext (dacRequest_withStimuli rest s x)
  | busDone => exact hnext (busCompletion_withStimuli rest s)
  | levelCode v => exact hnext (dacRequest_withStimuli rest s (levelSample v))
  | syncCode => exact hnext (dacRequest_withStimuli rest s syncSample)
  | cfgAddr a => exact execCfgAddr_withStimuli rest s a
  | cfgCnt n => exact execCfgCnt_withStimuli rest s n
  | rearm | supTick _ | dacAddrByte _ | dacHighByte _ | dacLowByte _ => exact next_eq_reschedule_ite rest rfl

end Independence

/-- A script's steps are its operations, each run on the state that its predecessors left. -/
theorem run_encoded (is : List Instr) : ∀ s : State, s.params.ok = true →
    Host.Core.run core is.length (withStimuli (is.map encode) s) = execAll is (withStimuli [] s) := by
  induction is with
  | nil => exact fun s _ => rfl
  | cons i is ih =>
    intro s hp
    have hstep : core.step (withStimuli ((i :: is).map encode) s) = reschedule (is.map encode) (exec i s) :=
      (step_of_decode (s := withStimuli ((i :: is).map encode) s) hp rfl (decodeOfEncodeIsTheInstruction i)).trans
        (exec_withStimuli _ s i)
    simp only [List.length_cons, Host.Core.run, hstep, execAll, exec_withStimuli]
    cases hexec : exec i s with
    | next t => exact ih t ((Effect.of_exec hexec).params_eq ▸ hp)
    | fault f => rfl
    | refused r => rfl

/-- Settles O55. -/
theorem scriptReplayRunsTheOperations : Obligations.ScriptReplayRunsTheOperations := by
  intro is s hp hs
  have hrun := run_encoded is s hp
  rwa [← hs] at hrun

end Sys2Proof.Machine
end

