-- ==== Sys2Proof/Proofs/Runs.lean ====
section
/-!
SUPPORT. Running a list of operations: the state one operation leaves is the state the next one meets.
-/

namespace Sys2Proof.Machine

theorem execAll_cons_of_next {i : Instr} {s t : State} (h : exec i s = .next t) (is : List Instr) :
    execAll (i :: is) s = execAll is t := by
  rw [execAll, h]

theorem execAll_singleton (i : Instr) (s : State) : execAll [i] s = exec i s := by
  rw [execAll]
  cases exec i s <;> rfl

theorem execAll_append_of_next {is : List Instr} {t : State} (js : List Instr) :
    ∀ {s : State}, execAll is s = .next t → execAll (is ++ js) s = execAll js t := by
  induction is with
  | nil =>
    intro s h
    rw [← Host.Outcome.next.inj h, List.nil_append]
  | cons i is ih =>
    intro s h
    cases hexec : exec i s with
    | next u =>
      rw [execAll_cons_of_next hexec] at h
      rw [List.cons_append, execAll_cons_of_next hexec, ih h]
    | fault f => rw [execAll, hexec] at h; cases h
    | refused r => rw [execAll, hexec] at h; cases h

end Sys2Proof.Machine
end

