-- ==== Sys2Proof/Proofs/BreakDetector.lean ====
section
/-!
SUPPORT. The Break Detector (40_break_detector.md R110 to R116): one sample by its cases, and a break of any length by
induction on its LOW samples.
-/

namespace Sys2Proof.Machine

variable {s t : State}

/-! ### One sample -/

theorem encode_tickLow : encode (.tick .low) = .stim16 0x1000#16 := rfl

theorem encode_tickHigh : encode (.tick .high) = .stim16 0x1001#16 := rfl

theorem exec_tick_of_disarmed (hm : s.tickEnable = false) (l : LineLevel) : exec (.tick l) s = .next s := by
  simp [exec, execTick, hm]

theorem exec_tickLow (he : s.tickEnable = true) : exec (.tick .low) s = .next (countLow s) := by
  simp [exec, execTick, sampleLine, he]

theorem exec_tickHigh_of_unconfirmed (he : s.tickEnable = true) (hc : s.breakConfirmed = false) :
    exec (.tick .high) s = .next (loseRun s) := by
  simp [exec, execTick, sampleLine, he, hc]

theorem exec_tickHigh_of_confirmed (he : s.tickEnable = true) (hc : s.breakConfirmed = true) :
    exec (.tick .high) s = .next (handOff s) := by
  simp [exec, execTick, sampleLine, he, hc]

/-- Below the threshold's predecessor a LOW sample only lengthens the run (R113). -/
theorem countLow_of_lt (hr : s.idleRunLength < 19) :
    countLow s = { s with idleRunLength := s.idleRunLength + 1 } := by
  have hrun : countIdleSample s.idleRunLength = s.idleRunLength + 1 := if_pos (Nat.lt_succ_of_lt hr)
  have hbelow : thresholdReached (s.idleRunLength + 1) = false := decide_eq_false (Nat.ne_of_lt (Nat.succ_lt_succ hr))
  simp [countLow, hrun, hbelow]

/-- The sample that reaches the threshold confirms, and the run saturates there (R113, R116). -/
theorem countLow_of_ge (hlow : 19 ≤ s.idleRunLength) (hhigh : s.idleRunLength ≤ 20) :
    countLow s = { s with idleRunLength := 20, breakConfirmed := true } := by
  have hrun : countIdleSample s.idleRunLength = 20 := by
    obtain h | h : s.idleRunLength = 19 ∨ s.idleRunLength = 20 := by omega
    · rw [h]; rfl
    · rw [h]; rfl
  have hreached : thresholdReached 20 = true := rfl
  simp [countLow, hrun, hreached]

/-- Settles O8. -/
theorem tickWhileDisarmedIsIgnored : Obligations.TickWhileDisarmedIsIgnored :=
  ⟨encode_tickLow, encode_tickHigh, fun _ level hm => exec_tick_of_disarmed hm level⟩

/-- Settles O9. -/
theorem highSampleBeforeConfirmationResetsRun : Obligations.HighSampleBeforeConfirmationResetsRun :=
  ⟨encode_tickHigh, fun _ he hc => exec_tickHigh_of_unconfirmed he hc⟩

/-- Settles O10. -/
theorem highSampleAfterConfirmationHandsOff : Obligations.HighSampleAfterConfirmationHandsOff :=
  ⟨encode_tickHigh, fun _ he hc => exec_tickHigh_of_confirmed he hc⟩

/-- Settles O11. -/
theorem lowSampleCountsAndConfirmsAtTwenty : Obligations.LowSampleCountsAndConfirmsAtTwenty :=
  ⟨encode_tickLow, fun _ he hr => (exec_tickLow he).trans (congrArg _ (countLow_of_lt hr)),
    fun _ he hlow hhigh => (exec_tickLow he).trans (congrArg _ (countLow_of_ge hlow hhigh))⟩

/-! ### Who confirms a break -/

/-- No effect but the count of a LOW sample sets `break_confirmed`: RESET and a rearm clear it, the others keep it. -/
theorem Effect.eq_countLow_of_confirms {i : Instr} (h : Effect s i t) (hs : s.breakConfirmed = false)
    (ht : t.breakConfirmed = true) : i = .tick .low ∧ s.tickEnable = true ∧ t = Machine.countLow s := by
  cases h with
  | countLow he => exact ⟨rfl, he, rfl⟩
  | reset | rearm => cases ht
  | _ => simp [hs] at ht

/-- Settles O14: the operation counted a LOW sample, and that count confirms only by reaching the threshold. -/
theorem onlyALowSampleConfirms : Obligations.OnlyALowSampleConfirms := by
  intro i s t h hs ht
  obtain ⟨hi, he, rfl⟩ := (Effect.of_exec h).eq_countLow_of_confirms hs ht
  have hreached : thresholdReached (countIdleSample s.idleRunLength) = true := by simpa [hs] using ht
  exact ⟨hi, he, of_decide_eq_true hreached⟩

/-! ### A break of any length -/

theorem execAll_breakRun_succ (he : s.tickEnable = true) (n : Nat) :
    execAll (breakRun (n + 1)) s = execAll (breakRun n) (countLow s) :=
  execAll_cons_of_next (exec_tickLow he) (breakRun n)

/-- A break that stays below the threshold only lengthens the run (R113, R115). -/
theorem execAll_breakRun_of_lt {n : Nat} (he : s.tickEnable = true) (hr : s.idleRunLength + n < 20) :
    execAll (breakRun n) s = .next { s with idleRunLength := s.idleRunLength + n } := by
  induction n generalizing s with
  | zero => rfl
  | succ n ih =>
    have hfirst := countLow_of_lt (s := s) (by omega)
    have hrest := ih (s := countLow s) he (by simp only [hfirst]; omega)
    rw [execAll_breakRun_succ he, hrest, hfirst, Nat.add_assoc, Nat.add_comm 1 n]

/-- A confirmed break is not changed by further LOW samples (R116). -/
theorem execAll_breakRun_of_confirmed (he : s.tickEnable = true) (hr : s.idleRunLength = 20)
    (hc : s.breakConfirmed = true) (n : Nat) : execAll (breakRun n) s = .next s := by
  have hfix : countLow s = s := by
    rw [countLow_of_ge (by omega) (by omega), ← hr, ← hc]
  induction n with
  | zero => rfl
  | succ n ih => rw [execAll_breakRun_succ he, hfix, ih]

/-- A break that reaches the threshold is confirmed there and stays so, however long it goes on (R113, R116). -/
theorem execAll_breakRun_of_ge {n : Nat} (he : s.tickEnable = true) (hr : s.idleRunLength < 20)
    (hn : 20 ≤ s.idleRunLength + n) :
    execAll (breakRun n) s = .next { s with idleRunLength := 20, breakConfirmed := true } := by
  induction n generalizing s with
  | zero => omega
  | succ n ih =>
    rw [execAll_breakRun_succ he]
    obtain hbelow | hlast : s.idleRunLength < 19 ∨ s.idleRunLength = 19 := by omega
    · have hfirst := countLow_of_lt hbelow
      rw [ih (s := countLow s) he (by simp only [hfirst]; omega) (by simp only [hfirst]; omega), hfirst]
    · rw [countLow_of_ge (by omega) (by omega)]
      exact execAll_breakRun_of_confirmed (s := { s with idleRunLength := 20, breakConfirmed := true }) he rfl rfl n

/-- Settles O12: the LOW samples only lengthen the run, and the HIGH sample then loses it. -/
theorem shortBreakNeverConfirms : Obligations.ShortBreakNeverConfirms := by
  intro s n he hc hr
  rw [execAll_append_of_next _ (execAll_breakRun_of_lt he hr), execAll_singleton]
  exact exec_tickHigh_of_unconfirmed he hc

/-- Settles O13: the LOW samples confirm the break, and the HIGH sample then hands off. -/
theorem sustainedBreakThenMarkHandsOff : Obligations.SustainedBreakThenMarkHandsOff := by
  intro s n he _ hr hn
  rw [execAll_append_of_next _ (execAll_breakRun_of_ge he hr hn), execAll_singleton]
  exact exec_tickHigh_of_confirmed he rfl

end Sys2Proof.Machine
end

