-- ==== Sys2Proof/Proofs/FrameReceiver.lean ====
section
/-!
SUPPORT. The Frame Receiver (41_frame_receiver.md R120 to R132): one byte by the cases of its window, the line errors,
and a whole attempt by induction on its bytes.
-/

namespace Sys2Proof.Machine

variable {s t : State}

/-! ### One byte -/

theorem encode_rxByte (b : Byte) : encode (.rxByte b) = .stim16 (0x20#8 ++ b) :=
  congrArg CodeWord.stim16 (BitVec.append_assoc (x₁ := 0x2#4) (x₂ := 0#4) (x₃ := b)).symm

/-- The count of received bytes is taken mod 2^16 (R121). -/
theorem toNat_addressSkipCount_add_one (s : State) :
    (s.addressSkipCount + 1).toNat = (s.addressSkipCount.toNat + 1) % 2 ^ 16 :=
  BitVec.toNat_add _ _

theorem exec_rxByte_of_disabled (hm : s.rxIntEnable = false) (b : Byte) : exec (.rxByte b) s = .next s := by
  simp [exec, execRxByte, hm]

/-- Inside the skip window a byte is counted only (R121). -/
theorem exec_rxByte_of_skipped (he : s.rxIntEnable = true)
    (hw : (s.addressSkipCount + 1).toNat ≤ s.cfgStartAddress.toNat) (b : Byte) :
    exec (.rxByte b) s = .next (countByte s) := by
  rcases execRxByte_cases b s with ⟨hm, -⟩ | ⟨-, -, e⟩ | ⟨-, hpast, -⟩
  · exact absurd (he.symm.trans hm) (by decide)
  · exact e
  · exact absurd hw (Nat.not_le.mpr hpast)

/-- Past the skip window a byte is counted and stored (R121, R122). -/
theorem exec_rxByte_of_past (he : s.rxIntEnable = true)
    (hw : s.cfgStartAddress.toNat < (s.addressSkipCount + 1).toNat) (b : Byte) :
    exec (.rxByte b) s = storeByte b (countByte s) := by
  rcases execRxByte_cases b s with ⟨hm, -⟩ | ⟨-, hskip, -⟩ | ⟨-, -, e⟩
  · exact absurd (he.symm.trans hm) (by decide)
  · exact absurd hskip (Nat.not_le.mpr hw)
  · exact e

/-- A store at an index that exists ends with the completion test (R123). -/
theorem storeByte_of_le (hi : s.receivedCount ≤ s.params.frameTop) (b : Byte) :
    storeByte b s = .next (completeFrame (stored b s)) := by
  simp only [storeByte, frameWrite_of_le hi]
  rfl

/-- What the completion test leaves in an enabled receiver: reception goes on until the frame is ready (R123). -/
theorem completeFrame_of_enabled (he : s.rxIntEnable = true) :
    completeFrame s = { s with
      rxIntEnable := decide (s.receivedCount < s.cfgChannelCount + 1),
      frameReady := s.frameReady || decide (s.cfgChannelCount + 1 ≤ s.receivedCount) } := by
  rcases completeFrame_cases s with ⟨hc, e⟩ | ⟨hc, e⟩
  · simp [e, finishFrame, hc, Nat.not_lt.mpr hc]
  · simp [e, hc, Nat.not_le.mpr hc, ← he]

/-- Settles O16. -/
theorem byteInSkipWindowIsCountedAndDiscarded : Obligations.ByteInSkipWindowIsCountedAndDiscarded :=
  ⟨encode_rxByte, fun s b he hw => exec_rxByte_of_skipped he (toNat_addressSkipCount_add_one s ▸ hw) b⟩

/-- Settles O17: the byte is counted, stored, and followed by the completion test. -/
theorem bytePastSkipWindowIsStored : Obligations.BytePastSkipWindowIsStored := by
  intro s b he hw hi
  have hexec : exec (.rxByte b) s = .next (completeFrame (stored b (countByte s))) :=
    (exec_rxByte_of_past he (toNat_addressSkipCount_add_one s ▸ hw) b).trans (storeByte_of_le (s := countByte s) hi b)
  have hbyte (j : Nat) : (completeFrame (stored b (countByte s))).frameByte j =
      if j = s.receivedCount then b else s.frameByte j :=
    (frameByte_congr (completeFrame_params _) (completeFrame_frame _) j).trans (stored_frameByte b (countByte s) j)
  refine ⟨_, hexec, hbyte, ?_⟩
  rw [completeFrame_of_enabled (s := stored b (countByte s)) he]
  rfl

/-- Settles O20: no guard of RXBYTE reads its byte, so the other byte falls into the same case, and O17 says what either
store leaves. -/
theorem receiverNeverInspectsByteValues : Obligations.ReceiverNeverInspectsByteValues := by
  intro s t b c h
  rcases execRxByte_cases b s with ⟨hm, e⟩ | ⟨he, hskip, e⟩ | ⟨he, hpast, -⟩
  · obtain rfl := Host.Outcome.next.inj (e.symm.trans h)
    exact ⟨_, exec_rxByte_of_disabled hm c, rfl, fun _ _ => rfl⟩
  · obtain rfl := Host.Outcome.next.inj (e.symm.trans h)
    exact ⟨_, exec_rxByte_of_skipped he hskip c, rfl, fun _ _ => rfl⟩
  · have hi : s.receivedCount ≤ s.params.frameTop := by
      by_contra hgt
      cases (execRxByte_fault b he hpast (Nat.lt_of_not_le hgt)).symm.trans h
    have hw := toNat_addressSkipCount_add_one s ▸ hpast
    obtain ⟨t', ht', -, het⟩ := bytePastSkipWindowIsStored s b he hw hi
    obtain ⟨u, hu, -, heu⟩ := bytePastSkipWindowIsStored s c he hw hi
    obtain rfl := Host.Outcome.next.inj (h.symm.trans ht')
    exact ⟨u, hu, by rw [het]; exact heu, fun j hj =>
      (execRxByte_frameByte hu hj).trans (execRxByte_frameByte h hj).symm⟩

/-! ### Line errors -/

theorem encode_rxErrOverrun : encode .rxErrOverrun = .stim16 0x3000#16 := rfl

theorem encode_rxErrFraming : encode .rxErrFraming = .stim16 0x3001#16 := rfl

theorem encode_rxErrParity : encode .rxErrParity = .stim16 0x3002#16 := rfl

/-- A disabled receiver at most latches the error (R124). -/
theorem reactToLineError_of_disabled (hm : s.rxIntEnable = false) (k : ErrorKind) :
    reactToLineError k s = latchLineError k s := by
  simp [reactToLineError, hm]

/-- An enabled receiver latches the error, then reacts to it (R124). -/
theorem reactToLineError_of_enabled (he : s.rxIntEnable = true) (k : ErrorKind) :
    reactToLineError k s = lineErrorReaction k (latchLineError k s) := by
  simp [reactToLineError, he]

/-- Settles O15. -/
theorem disabledReceiverOnlyLatchesOverrun : Obligations.DisabledReceiverOnlyLatchesOverrun := by
  intro s hm
  have hlatch (k : ErrorKind) : (.next (reactToLineError k s) : Result) = .next (latchLineError k s) :=
    congrArg _ (reactToLineError_of_disabled hm k)
  exact ⟨exec_rxByte_of_disabled hm, hlatch .framing, hlatch .parity, hlatch .overrun⟩

/-- Settles O21. -/
theorem overrunAbandonsTheAttempt : Obligations.OverrunAbandonsTheAttempt :=
  ⟨encode_rxErrOverrun, fun _ he => congrArg Host.Outcome.next (reactToLineError_of_enabled he .overrun)⟩

/-- Settles O22: the two kinds of malformed byte have the same reaction. -/
theorem malformedByteOnlyClearsTheIndicator : Obligations.MalformedByteOnlyClearsTheIndicator :=
  ⟨encode_rxErrFraming, encode_rxErrParity, fun _ he =>
    ⟨congrArg Host.Outcome.next (reactToLineError_of_enabled he .framing),
      congrArg Host.Outcome.next (reactToLineError_of_enabled he .parity)⟩⟩

/-! ### A whole attempt -/

/-- The state `t` of an attempt that began in `s`, after the given bytes: so many are counted, those past the start
address stand in the frame buffer in order, and reception is on until one more than the channel count is stored
(R128, R129). -/
structure Captured (s : State) (bytes : List Byte) (t : State) : Prop where
  params : t.params = s.params
  output : t.output = s.output
  supervisor : t.supervisor = s.supervisor
  config : t.config = s.config
  counted : t.addressSkipCount.toNat = bytes.length
  received : t.receivedCount = bytes.length - s.cfgStartAddress.toNat
  frame (i : Nat) : t.frameByte i = bytes[s.cfgStartAddress.toNat + i]?.getD (s.frameByte i)
  active : s.cfgStartAddress.toNat < bytes.length → t.rxActive = true
  enabled : t.rxIntEnable = decide (bytes.length ≤ s.cfgStartAddress.toNat + s.cfgChannelCount)
  ready : t.frameReady = decide (s.cfgStartAddress.toNat + s.cfgChannelCount < bytes.length)

namespace Captured

variable {bytes : List Byte}

theorem of_fresh (he : s.rxIntEnable = true) (hf : s.frameReady = false) (hk : s.addressSkipCount = 0)
    (hr : s.receivedCount = 0) : Captured s [] s where
  params := rfl
  output := rfl
  supervisor := rfl
  config := rfl
  counted := by simp [hk]
  received := by simp [hr]
  frame := by simp
  active := by simp
  enabled := by simp [he]
  ready := by simp [hf]

/-- A byte inside the skip window leaves every frame byte as it is. -/
theorem skip (h : Captured s bytes t) (hw : bytes.length < s.cfgStartAddress.toNat) (b : Byte) :
    ∃ u, exec (.rxByte b) t = .next u ∧ Captured s (bytes ++ [b]) u := by
  obtain ⟨hstart, -⟩ := ConfigPart.mk.inj h.config
  have hlen := s.cfgStartAddress.isLt
  have henabled : t.rxIntEnable = true := by simp [h.enabled]; omega
  have hskip : (t.addressSkipCount + 1).toNat = bytes.length + 1 := by
    rw [toNat_addressSkipCount_add_one, h.counted]; omega
  exact ⟨_, exec_rxByte_of_skipped henabled (by rw [hskip, hstart]; omega) b, { h with
    counted := by simpa using hskip
    received := by simp [h.received]; omega
    frame := fun i => by
      have hbefore : bytes[s.cfgStartAddress.toNat + i]? = none := by simp; omega
      have hafter : (bytes ++ [b])[s.cfgStartAddress.toNat + i]? = none := by simp; omega
      rw [hafter, ← hbefore]
      exact h.frame i
    active := by simp; omega
    enabled := by simp [h.enabled]; omega
    ready := by simp [h.ready]; omega }⟩

/-- A byte past the skip window stands right after those stored before it. -/
theorem store (h : Captured s bytes t) (hp : s.params.ok = true) (hc : s.cfgChannelCount ≤ s.params.maxCh)
    (hw : s.cfgStartAddress.toNat ≤ bytes.length)
    (hn : bytes.length ≤ s.cfgStartAddress.toNat + s.cfgChannelCount) (b : Byte) :
    ∃ u, exec (.rxByte b) t = .next u ∧ Captured s (bytes ++ [b]) u := by
  obtain ⟨hstart, hcount⟩ := ConfigPart.mk.inj h.config
  have hlen := s.cfgStartAddress.isLt
  have hmax : s.params.maxCh ≤ 512 := (Params.ok_iff.mp hp).1
  have hreceived := h.received
  have henabled : t.rxIntEnable = true := by simp [h.enabled, hn]
  have hnotReady : t.frameReady = false := by simp [h.ready, hn]
  have hskip : (t.addressSkipCount.toNat + 1) % 2 ^ 16 = bytes.length + 1 := by rw [h.counted]; omega
  have hindex : t.receivedCount ≤ t.params.frameTop := by
    rw [h.params]
    exact le_trans (by omega) (Nat.le_max_left _ _)
  obtain ⟨u, hexec, hbyte, hu⟩ := bytePastSkipWindowIsStored t b henabled (by rw [hskip, hstart]; omega) hindex
  exact ⟨u, hexec, {
    params := by rw [hu]; exact h.params
    output := by rw [hu]; exact h.output
    supervisor := by rw [hu]; exact h.supervisor
    config := by rw [hu]; exact h.config
    counted := by
      rw [hu, List.length_append, List.length_singleton]
      exact (toNat_addressSkipCount_add_one t).trans hskip
    received := by rw [hu]; simp; omega
    frame := fun i => by
      rw [hbyte, h.frame]
      rcases lt_trichotomy (s.cfgStartAddress.toNat + i) bytes.length with hlt | heq | hgt
      · rw [if_neg (by omega), List.getElem?_append_left hlt]
      · rw [if_pos (by omega), heq, List.getElem?_concat_length]; rfl
      · rw [if_neg (by omega), List.getElem?_eq_none hgt.le, List.getElem?_eq_none (by simp; omega)]
    active := fun _ => by rw [hu]
    enabled := by rw [hu]; simp; omega
    ready := by rw [hu]; simp [hnotReady]; omega }⟩

/-- Until the frame is ready every byte is handled, and the next state is that of one more byte. -/
theorem concat (h : Captured s bytes t) (hp : s.params.ok = true) (hc : s.cfgChannelCount ≤ s.params.maxCh)
    (hn : bytes.length ≤ s.cfgStartAddress.toNat + s.cfgChannelCount) (b : Byte) :
    ∃ u, exec (.rxByte b) t = .next u ∧ Captured s (bytes ++ [b]) u := by
  rcases Nat.lt_or_ge bytes.length s.cfgStartAddress.toNat with hw | hw
  · exact h.skip hw b
  · exact h.store hp hc hw hn b

/-- An attempt from a fresh receiver, up to the byte that completes it. -/
theorem of_execAll (hp : s.params.ok = true) (hc : s.cfgChannelCount ≤ s.params.maxCh) (h : Captured s [] s)
    (hn : bytes.length ≤ s.cfgStartAddress.toNat + s.cfgChannelCount + 1) :
    ∃ t, execAll (bytesRun bytes) s = .next t ∧ Captured s bytes t := by
  induction bytes using List.reverseRecOn with
  | nil => exact ⟨s, rfl, h⟩
  | append_singleton bytes b ih =>
    rw [List.length_append, List.length_singleton] at hn
    obtain ⟨t, hrun, ht⟩ := ih (by omega)
    obtain ⟨u, hexec, hu⟩ := ht.concat hp hc (by omega) b
    refine ⟨u, ?_, hu⟩
    rw [bytesRun, List.map_append]
    exact (execAll_append_of_next _ hrun).trans ((execAll_singleton _ t).trans hexec)

end Captured

/-- Settles O19, by what an attempt has captured after all of its bytes and after fewer. -/
theorem wholeAttemptCapturesTheWindow : Obligations.WholeAttemptCapturesTheWindow := by
  intro s bytes hp he hf hk hr hc hlen
  have hfresh := Captured.of_fresh he hf hk hr
  refine ⟨?whole, fun k hlt => ?shorter⟩
  case whole =>
    obtain ⟨t, hrun, ht⟩ := Captured.of_execAll hp hc hfresh hlen.le
    refine ⟨t, hrun, ?_, ?_, ht.active (by omega), ?_, ht.counted, fun i hi => ?_, fun i hi => ?_,
      ht.output, ht.supervisor, ht.config⟩
    · rw [ht.ready]; exact decide_eq_true (by omega)
    · rw [ht.enabled]; exact decide_eq_false (by omega)
    · rw [ht.received]; omega
    · rw [ht.frame, List.getElem?_eq_getElem (by omega)]; rfl
    · rw [ht.frame, List.getElem?_eq_none (by omega)]; rfl
  case shorter =>
    have htake : (bytes.take k).length = k := List.length_take_of_le hlt.le
    obtain ⟨t, hrun, ht⟩ := Captured.of_execAll (bytes := bytes.take k) hp hc hfresh (by omega)
    refine ⟨t, hrun, ?_, ?_⟩
    · rw [ht.ready]; exact decide_eq_false (by omega)
    · rw [ht.enabled]; exact decide_eq_true (by omega)

end Sys2Proof.Machine
end

