-- ==== Sys2Proof/Proofs/Scan.lean ====
section
/-!
SUPPORT. The MPX Generator tick by tick (43_mpx_generator.md R151 to R155), and the requests of a whole scan (R157) by
induction on the channels still to come.
-/

namespace Sys2Proof.Machine

variable {s t : State}

/-! ### One tick -/

theorem exec_mpxTick_firstLevel (hp : s.mpxPhase = .emitFirstLevel) (hi : 1 ≤ s.params.frameTop) :
    exec .mpxTick s = .next (enterMpxPhase .emitSync (selectChannel 2
      (dacRequest (levelSample (s.frameByte 1)) (programPeriod .short s)))) := by
  simp only [exec, execMpxTick, hp]
  exact withLevel_of_le hi

theorem exec_mpxTick_sync (hp : s.mpxPhase = .emitSync) :
    exec .mpxTick s = .next (enterMpxPhase .emitNextLevel (dacRequest syncSample s)) := by
  simp only [exec, execMpxTick, hp, emitSync]

theorem exec_mpxTick_nextLevel (hp : s.mpxPhase = .emitNextLevel) (hi : s.outputChannelIndex ≤ s.params.frameTop)
    (hc : s.outputChannelIndex < s.params.maxOut) :
    exec .mpxTick s = .next (enterMpxPhase .emitSync (selectChannel (s.outputChannelIndex + 1)
      (dacRequest (levelSample (s.frameByte s.outputChannelIndex)) s))) := by
  simp only [exec, execMpxTick, hp, emitNextLevel, withLevel_of_le hi, channelsRemain, hc, decide_true, if_true]

theorem exec_mpxTick_lastLevel (hp : s.mpxPhase = .emitNextLevel) (hi : s.outputChannelIndex ≤ s.params.frameTop)
    (hc : s.params.maxOut ≤ s.outputChannelIndex) :
    exec .mpxTick s = .next (enterMpxPhase .emitLongSync (selectChannel 1
      (dacRequest (levelSample (s.frameByte s.outputChannelIndex)) s))) := by
  simp only [exec, execMpxTick, hp, emitNextLevel, withLevel_of_le hi, channelsRemain, Nat.not_lt.mpr hc,
    decide_false, Bool.false_eq_true, if_false]

theorem exec_mpxTick_longSync (hp : s.mpxPhase = .emitLongSync) :
    exec .mpxTick s = .next (enterMpxPhase .emitFirstLevel (dacRequest syncSample (programPeriod .long s))) := by
  simp only [exec, execMpxTick, hp, emitLongSync]

/-- The generator only reads the frame buffer. -/
theorem frameByte_of_mpxTick (h : exec .mpxTick s = .next t) (j : Nat) : t.frameByte j = s.frameByte j :=
  (onlyAStoreChangesAFrameByte .mpxTick s t h nofun).1 nofun j

/-! ### One channel: its level, then a sync -/

/-- The generator's next tick emits the level of channel `i`. -/
def LevelDue (i : Nat) (s : State) : Prop :=
  (s.mpxPhase = .emitFirstLevel ∧ i = 1) ∨ (s.mpxPhase = .emitNextLevel ∧ s.outputChannelIndex = i)

/-- The generator's next tick emits the sync that follows the level of channel `i`: the short one, with the next channel
selected, or the long one after the last channel. -/
def SyncDue (i : Nat) (s : State) : Prop :=
  (s.mpxPhase = .emitSync ∧ s.outputChannelIndex = i + 1) ∨
  (s.mpxPhase = .emitLongSync ∧ i = s.params.maxOut)

theorem nextRequest_of_levelDue {i : Nat} (h : LevelDue i s) : s.nextRequest = levelSample (s.frameByte i) := by
  rcases h with ⟨hp, rfl⟩ | ⟨hp, rfl⟩ <;> simp only [State.nextRequest, hp]

theorem nextRequest_of_syncDue {i : Nat} (h : SyncDue i s) : s.nextRequest = syncSample := by
  rcases h with ⟨hp, -⟩ | ⟨hp, -⟩ <;> simp only [State.nextRequest, hp]

/-- Every channel's level is followed by a sync (R151, R153, R154). -/
theorem exists_mpxTick_of_levelDue {i : Nat} (hi : i ≤ s.params.maxOut) (h : LevelDue i s) :
    ∃ t, exec .mpxTick s = .next t ∧ SyncDue i t := by
  have htop : s.params.maxOut ≤ s.params.frameTop := Nat.le_max_right _ _
  rcases h with ⟨hp, rfl⟩ | ⟨hp, rfl⟩
  · exact ⟨_, exec_mpxTick_firstLevel hp (hi.trans htop), .inl ⟨rfl, rfl⟩⟩
  · rcases Nat.lt_or_ge s.outputChannelIndex s.params.maxOut with hc | hc
    · exact ⟨_, exec_mpxTick_nextLevel hp (hi.trans htop) hc, .inl ⟨rfl, rfl⟩⟩
    · exact ⟨_, exec_mpxTick_lastLevel hp (hi.trans htop) hc, .inr ⟨rfl, by simpa using hi.antisymm hc⟩⟩

/-- A sync is followed by the next channel's level, as long as there is one (R152, R155). -/
theorem exists_mpxTick_of_syncDue {i : Nat} (h : SyncDue i s) :
    ∃ t, exec .mpxTick s = .next t ∧ (i < s.params.maxOut → LevelDue (i + 1) t) := by
  rcases h with ⟨hp, hi⟩ | ⟨hp, hi⟩
  · exact ⟨_, exec_mpxTick_sync hp, fun _ => .inr ⟨rfl, by simpa using hi⟩⟩
  · exact ⟨_, exec_mpxTick_longSync hp, fun hlt => absurd hi hlt.ne⟩

/-! ### A whole scan -/

theorem requestsOf_succ_of_next (h : exec .mpxTick s = .next t) (n : Nat) :
    requestsOf (n + 1) s = (requestsOf n t).map (s.nextRequest :: ·) := by
  rw [requestsOf, h]

/-- The two samples of the channel after the first `k` (R157). -/
def channelSamples (s : State) (k : Nat) : List Sample := [levelSample (s.frameByte (k + 1)), syncSample]

theorem scanSamples_eq (s : State) :
    scanSamples s = (List.range' 0 s.params.maxOut).flatMap (channelSamples s) := by
  rw [← List.range_eq_range']
  rfl

theorem channelSamples_congr (h : ∀ j, t.frameByte j = s.frameByte j) : channelSamples t = channelSamples s := by
  funext k
  simp only [channelSamples, h]

/-- A scan depends on the parameters and the frame bytes alone. -/
theorem scanSamples_congr (hp : t.params = s.params) (h : ∀ j, t.frameByte j = s.frameByte j) :
    scanSamples t = scanSamples s := by
  rw [scanSamples_eq, scanSamples_eq, hp, channelSamples_congr h]

/-- Two ticks request a channel's samples and lead to the next channel. -/
theorem requestsOf_channel {k : Nat} (hk : k < s.params.maxOut) (h : LevelDue (k + 1) s) :
    ∃ u, (∀ n, requestsOf (n + 2) s = (requestsOf n u).map (channelSamples s k ++ ·)) ∧
      u.params = s.params ∧ (∀ j, u.frameByte j = s.frameByte j) ∧
      (k + 1 < s.params.maxOut → LevelDue (k + 2) u) := by
  obtain ⟨t, hlevel, hsync⟩ := exists_mpxTick_of_levelDue hk h
  obtain ⟨u, hu, hnext⟩ := exists_mpxTick_of_syncDue hsync
  have htparams := (Effect.of_exec hlevel).params_eq
  refine ⟨u, fun n => ?_, (Effect.of_exec hu).params_eq.trans htparams, fun j =>
    (frameByte_of_mpxTick hu j).trans (frameByte_of_mpxTick hlevel j), htparams ▸ hnext⟩
  rw [requestsOf_succ_of_next hlevel, requestsOf_succ_of_next hu, Option.map_map, nextRequest_of_levelDue h,
    nextRequest_of_syncDue hsync]
  rfl

/-- The last `n` channels of a scan, `k` of them emitted before. -/
theorem requestsOf_remaining {k n : Nat} (hn : k + n = s.params.maxOut)
    (hdue : k < s.params.maxOut → LevelDue (k + 1) s) :
    requestsOf (2 * n) s = some ((List.range' k n).flatMap (channelSamples s)) := by
  induction n generalizing k s with
  | zero => rfl
  | succ n ih =>
    have hk : k < s.params.maxOut := by omega
    obtain ⟨u, hrequests, hparams, hframe, hnext⟩ := requestsOf_channel hk (hdue hk)
    have hrest := ih (k := k + 1) (s := u) (by rw [hparams]; omega) (hparams ▸ hnext)
    rw [Nat.mul_succ, hrequests, hrest, channelSamples_congr hframe, List.range'_succ, List.flatMap_cons,
      Option.map_some]

/-- From its start a scan requests every channel's samples in order, whatever the driver drops (R157, R160). -/
theorem requestsOf_scan (hp : s.mpxPhase = .emitFirstLevel) :
    requestsOf (2 * s.params.maxOut) s = some (scanSamples s) := by
  rw [scanSamples_eq]
  exact requestsOf_remaining (Nat.zero_add _) fun _ => .inl ⟨hp, rfl⟩

end Sys2Proof.Machine
end

