-- ==== Sys2Proof/Proofs/Mainline.lean ====
section
/-!
SUPPORT. The Mainline Reframe Loop (42_mainline_rearm.md R140 to R145): the two cases of REARM, and that without it a
Complete core stays Complete with its frame buffer as it is (R143).
-/

namespace Sys2Proof.Machine

variable {s t : State}

/-! ### REARM -/

theorem encode_rearm : encode .rearm = .stim16 0x4000#16 := rfl

theorem exec_rearm_of_ready (hr : s.frameReady = true) : exec .rearm s = .next (rearmAcquisition s) := by
  simp [exec, execRearm, hr]

theorem exec_rearm_of_notReady (hn : s.frameReady = false) : exec .rearm s = .next s := by
  simp [exec, execRearm, hn]

/-- Settles O23. -/
theorem rearmRestartsTheHunt : Obligations.RearmRestartsTheHunt :=
  ⟨encode_rearm, fun _ hr => exec_rearm_of_ready hr, fun _ hn => exec_rearm_of_notReady hn⟩

/-! ### One operation other than REARM and RESET -/

/-- The operations that do not restart frame acquisition. -/
def NoRestart (i : Instr) : Prop := i ≠ .rearm ∧ i ≠ .reset

/-- The hand-off clears `tick_enable`, a completed or abandoned attempt sets `frame_ready`; the other effects write
neither. -/
theorem Effect.no_restart {i : Instr} (h : Effect s i t) (hi : NoRestart i) :
    (t.tickEnable = true → s.tickEnable = true) ∧ (s.frameReady = true → t.frameReady = true) := by
  obtain ⟨hrearm, hreset⟩ := hi
  cases h with
  | reset => exact absurd rfl hreset
  | rearm => exact absurd rfl hrearm
  | handOff => exact ⟨nofun, id⟩
  | byteCompletes | overrunAbandons => exact ⟨id, fun _ => rfl⟩
  | _ => simp

/-- The one transition out of Complete is REARM's (10_state.md R43). -/
theorem ModeChange.complete_of_noRestart {i : Instr} {n : AcqMode} (h : ModeChange i .complete n) (hi : NoRestart i) :
    n = .complete := by
  obtain ⟨hrearm, hreset⟩ := hi
  rcases h with ⟨e, -⟩ | ⟨-, e⟩ | ⟨e, -⟩ | ⟨e, -⟩ | ⟨-, -, e⟩
  · exact absurd e hreset
  · exact e
  · cases e
  · cases e
  · exact absurd e hrearm

/-- A Complete core has reception off (10_state.md R43). -/
theorem State.rxIntEnable_of_complete (h : s.acqMode = some .complete) : s.rxIntEnable = false :=
  congrArg (fun bits : Bool × Bool × Bool => bits.2.1) (State.acqMode_eq_some_iff.mp h)

/-- With reception off every byte is lost, so no operation but RESET changes the frame buffer. -/
theorem frameByte_of_receptionOff {i : Instr} (h : exec i s = .next t) (hr : i ≠ .reset) (hm : s.rxIntEnable = false)
    (j : Nat) : t.frameByte j = s.frameByte j := by
  by_cases hb : ∃ b, i = .rxByte b
  · obtain ⟨b, rfl⟩ := hb
    obtain rfl := Host.Outcome.next.inj ((exec_rxByte_of_disabled hm b).symm.trans h)
    rfl
  · exact (onlyAStoreChangesAFrameByte i s t h hr).1 (not_exists.mp hb) j

/-! ### Any run without REARM and RESET -/

theorem exists_of_execAll_cons {i : Instr} {is : List Instr} (h : execAll (i :: is) s = .next t) :
    ∃ u, exec i s = .next u ∧ execAll is u = .next t := by
  rw [execAll] at h
  cases hexec : exec i s with
  | next u => exact ⟨u, rfl, by rwa [hexec] at h⟩
  | fault f => rw [hexec] at h; cases h
  | refused r => rw [hexec] at h; cases h

/-- A property that every operation of a kind keeps is kept by every run of such operations. -/
theorem execAll_keeps {K : Instr → Prop} {P : State → Prop}
    (hstep : ∀ {i s t}, K i → P s → exec i s = .next t → P t) {is : List Instr} :
    ∀ {s t : State}, (∀ i ∈ is, K i) → P s → execAll is s = .next t → P t := by
  induction is with
  | nil =>
    intro s t _ hs h
    exact Host.Outcome.next.inj h ▸ hs
  | cons i is ih =>
    intro s t hall hs h
    obtain ⟨hi, his⟩ := List.forall_mem_cons.mp hall
    obtain ⟨u, hexec, hrest⟩ := exists_of_execAll_cons h
    exact ih his (hstep hi hs hexec) hrest

/-- The state `t` is Complete and holds the frame, under the parameters, that `s` holds. -/
structure HoldsFrameOf (s t : State) : Prop where
  complete : t.acqMode = some .complete
  params : t.params = s.params
  frame (j : Nat) : t.frameByte j = s.frameByte j

theorem HoldsFrameOf.of_exec {u : State} {i : Instr} (hi : NoRestart i) (h : HoldsFrameOf s t)
    (hexec : exec i t = .next u) : HoldsFrameOf s u := by
  have heffect := Effect.of_exec hexec
  have hoff := State.rxIntEnable_of_complete h.complete
  obtain ⟨n, hn, hchange⟩ := heffect.acqMode h.complete
  exact {
    complete := by rw [hn, hchange.complete_of_noRestart hi]
    params := heffect.params_eq.trans h.params
    frame := fun j => (frameByte_of_receptionOff hexec hi.2 hoff j).trans (h.frame j) }

/-- Settles O24: one operation by its effect, a run by induction, and the scan of a Complete core by what it holds. -/
theorem onlyRearmRestartsAcquisition : Obligations.OnlyRearmRestartsAcquisition := by
  refine ⟨fun i s t h hrearm hreset => (Effect.of_exec h).no_restart ⟨hrearm, hreset⟩,
    fun is s t hall hs hrun => ?_⟩
  have ht : HoldsFrameOf s t :=
    execAll_keeps (K := NoRestart) HoldsFrameOf.of_exec hall ⟨hs, rfl, fun _ => rfl⟩ hrun
  refine ⟨ht.complete, ht.frame, fun _ hp => ?scan⟩
  case scan =>
    rw [← ht.params, requestsOf_scan hp, scanSamples_congr ht.params ht.frame]

end Sys2Proof.Machine
end

