-- ==== Sys2Proof/Proofs/Generator.lean ====
section
/-!
SUPPORT. The MPX Generator (43_mpx_generator.md R150 to R162): the level code, each tick's next state, that a tick hands
the driver exactly one request, and that it reads nothing but its own state, the parameters and the frame buffer.
-/

namespace Sys2Proof.Machine

variable {s t u : State}

/-! ### The level code (R156) -/

theorem toNat_levelSample (v : Byte) : (levelSample v).toNat = v.toNat * 2 + 512 := by
  have hv := v.isLt
  simp only [levelSample, levelScale, levelOffset, BitVec.toNat_ofNat]
  omega

theorem levelOfSample_levelSample (v : Byte) : levelOfSample (levelSample v) = v := by
  rw [levelOfSample, toNat_levelSample, levelScale, levelOffset, Nat.add_sub_cancel, Nat.mul_div_cancel _ Nat.two_pos,
    BitVec.ofNat_toNat, BitVec.setWidth_eq]

/-- Bit 9 is the bit of weight 512. -/
theorem getLsbD_nine_levelSample (v : Byte) : (levelSample v).getLsbD 9 = true := by
  have hmsb : (levelSample v).msb = true := by
    rw [BitVec.msb_eq_true_iff_two_mul_ge, toNat_levelSample]
    omega
  rwa [BitVec.msb_eq_getLsbD_last] at hmsb

theorem levelSample_ne_syncSample (v : Byte) : levelSample v ≠ syncSample := by
  intro h
  have hnat := congrArg BitVec.toNat h
  rw [toNat_levelSample] at hnat
  exact absurd hnat (Nat.succ_ne_zero _)

/-- Settles O6: everything follows from the code as a number. -/
theorem levelCodeIsMonotonicAndReversible : Obligations.LevelCodeIsMonotonicAndReversible := by
  refine ⟨fun v => ?code, rfl, fun v w hvw => ?rises, fun s hp hv => ?first⟩
  case code =>
    have hv := v.isLt
    have hnat := toNat_levelSample v
    exact ⟨hnat, by omega, by omega, levelOfSample_levelSample v, getLsbD_nine_levelSample v,
      levelSample_ne_syncSample v⟩
  case rises =>
    rw [toNat_levelSample, toNat_levelSample]
    omega
  case first =>
    rw [nextRequest_of_levelDue (.inl ⟨hp, rfl⟩), hv]
    rfl

/-! ### One tick (R151 to R155) -/

theorem encode_mpxTick : encode .mpxTick = .stim16 0x5000#16 := rfl

/-- Programming a period and requesting a sample do not interfere. -/
theorem dacRequest_programPeriod (x : Sample) (p : Period) (s : State) :
    dacRequest x (programPeriod p s) = { dacRequest x s with mpxPeriod := p, periodTrace := s.periodTrace ++ [p] } := by
  by_cases hd : s.dacPhase = .idle
  · rw [dacRequest_idle x hd, dacRequest_idle (s := programPeriod p s) x hd]
    rfl
  · rw [dacRequest_busy x hd, dacRequest_busy (s := programPeriod p s) x hd]
    rfl

/-- Settles O25. -/
theorem firstLevelTick : Obligations.FirstLevelTick :=
  ⟨encode_mpxTick, fun s hp hi => by
    rw [exec_mpxTick_firstLevel hp hi, dacRequest_programPeriod]
    rfl⟩

/-- Settles O26. -/
theorem syncTicks : Obligations.SyncTicks := by
  refine ⟨fun s hp => exec_mpxTick_sync hp, fun s hp => ?_⟩
  rw [exec_mpxTick_longSync hp, dacRequest_programPeriod]
  rfl

/-- Settles O27. -/
theorem nextLevelTick : Obligations.NextLevelTick :=
  ⟨fun _ hp hi hc => exec_mpxTick_nextLevel hp hi hc, fun _ hp hi hc => exec_mpxTick_lastLevel hp hi hc⟩

/-! ### The cycle of four phases (R162) -/

/-- Only the generator and reset write `mpx_phase`. -/
theorem Effect.mpxPhase_eq {i : Instr} (h : Effect s i t) (hr : i ≠ .reset) (hm : i ≠ .mpxTick) :
    t.mpxPhase = s.mpxPhase := by
  cases h with
  | reset => exact absurd rfl hr
  | firstLevel | sync | nextLevel | lastLevel | longSync => exact absurd rfl hm
  | _ => simp

/-- Settles O28: the five transitions are the five cases of a tick. -/
theorem phaseOrderIsTheFourStateCycle : Obligations.PhaseOrderIsTheFourStateCycle := by
  intro i s t h hr
  refine ⟨(Effect.of_exec h).mpxPhase_eq hr, ?_⟩
  rintro rfl
  rcases execMpxTick_cases h with ⟨hp, -, rfl⟩ | ⟨hp, rfl⟩ | ⟨hp, -, hc, rfl⟩ | ⟨hp, -, hc, rfl⟩ | ⟨hp, rfl⟩
  · exact .inl ⟨hp, rfl⟩
  · exact .inr (.inl ⟨hp, rfl⟩)
  · exact .inr (.inr (.inl ⟨hp, hc, rfl⟩))
  · exact .inr (.inr (.inr (.inl ⟨hp, hc, rfl⟩)))
  · exact .inr (.inr (.inr (.inr ⟨hp, rfl⟩)))

/-! ### What a tick does to the driver (R150) -/

/-- To the driver, a tick is `DacRequest` of the sample that is due, and nothing else. -/
theorem driver_of_mpxTick (h : exec .mpxTick s = .next t) : t.driver = (dacRequest s.nextRequest s).driver := by
  rcases execMpxTick_cases h with ⟨hp, -, rfl⟩ | ⟨hp, rfl⟩ | ⟨hp, -, -, rfl⟩ | ⟨hp, -, -, rfl⟩ | ⟨hp, rfl⟩ <;>
    (simp only [State.nextRequest, hp, dacRequest_programPeriod]; rfl)

/-- Settles O31: one tick by its request, a scan by induction on its channels. -/
theorem scanRequestsEveryChannelWhateverIsDropped : Obligations.ScanRequestsEveryChannelWhateverIsDropped :=
  ⟨fun _ _ h => DriverPart.mk.inj (driver_of_mpxTick h), fun _ _ hp => requestsOf_scan hp⟩

/-! ### What a tick reads (R150) -/

/-- The state that is the generator's own: the output part without the driver's. -/
structure GeneratorPart where
  mpxPhase : MpxPhase
  outputChannelIndex : Nat
  mpxPeriod : Period
  periodTrace : List Period

/-- The generator's part of a state. -/
def State.generator (s : State) : GeneratorPart where
  mpxPhase := s.mpxPhase
  outputChannelIndex := s.outputChannelIndex
  mpxPeriod := s.mpxPeriod
  periodTrace := s.periodTrace

/-- The output part is the generator's and the driver's. -/
theorem State.output_eq_iff : t.output = s.output ↔ t.generator = s.generator ∧ t.driver = s.driver := by
  simp only [State.output, State.generator, State.driver, OutputPart.mk.injEq, GeneratorPart.mk.injEq,
    DriverPart.mk.injEq]
  tauto

theorem enterMpxPhase_generator (ph : MpxPhase) (s : State) :
    (enterMpxPhase ph s).generator = { s.generator with mpxPhase := ph } := rfl

theorem selectChannel_generator (i : Nat) (s : State) :
    (selectChannel i s).generator = { s.generator with outputChannelIndex := i } := rfl

theorem programPeriod_generator (p : Period) (s : State) :
    (programPeriod p s).generator =
      { s.generator with mpxPeriod := p, periodTrace := s.generator.periodTrace ++ [p] } := rfl

theorem dacRequest_generator (x : Sample) (s : State) : (dacRequest x s).generator = s.generator := by
  simp [State.generator]

/-- Two states that give the generator the same to read. -/
structure ReadsAlike (s u : State) : Prop where
  params : u.params = s.params
  generator : u.generator = s.generator
  frame (j : Nat) : u.frameByte j = s.frameByte j

namespace ReadsAlike

theorem refl (s : State) : ReadsAlike s s := ⟨rfl, rfl, fun _ => rfl⟩

theorem trans (h : ReadsAlike s t) (h' : ReadsAlike t u) : ReadsAlike s u where
  params := h'.params.trans h.params
  generator := h'.generator.trans h.generator
  frame j := (h'.frame j).trans (h.frame j)

theorem nextRequest_eq (h : ReadsAlike s u) : u.nextRequest = s.nextRequest := by
  obtain ⟨hphase, hindex, -, -⟩ := GeneratorPart.mk.inj h.generator
  simp only [State.nextRequest, hphase, hindex, h.frame]

/-- The five rules of a tick read the phase, the index, the parameters and the index's byte, and the generator's next
part is a function of its part. -/
theorem exists_mpxTick_generator (h : ReadsAlike s u) (hexec : exec .mpxTick s = .next t) :
    ∃ v, exec .mpxTick u = .next v ∧ v.generator = t.generator := by
  obtain ⟨hphase, hindex, -, -⟩ := GeneratorPart.mk.inj h.generator
  have htop : u.params.frameTop = s.params.frameTop := by rw [h.params]
  have hmax : u.params.maxOut = s.params.maxOut := by rw [h.params]
  rcases execMpxTick_cases hexec with ⟨hp, hi, rfl⟩ | ⟨hp, rfl⟩ | ⟨hp, hi, hc, rfl⟩ | ⟨hp, hi, hc, rfl⟩ | ⟨hp, rfl⟩
  · refine ⟨_, exec_mpxTick_firstLevel (hphase.trans hp) (by rwa [htop]), ?_⟩
    simp only [enterMpxPhase_generator, selectChannel_generator, dacRequest_generator, programPeriod_generator,
      h.generator]
  · refine ⟨_, exec_mpxTick_sync (hphase.trans hp), ?_⟩
    simp only [enterMpxPhase_generator, dacRequest_generator, h.generator]
  · refine ⟨_, exec_mpxTick_nextLevel (hphase.trans hp) (by rwa [hindex, htop]) (by rwa [hindex, hmax]), ?_⟩
    simp only [enterMpxPhase_generator, selectChannel_generator, dacRequest_generator, h.generator, hindex]
  · refine ⟨_, exec_mpxTick_lastLevel (hphase.trans hp) (by rwa [hindex, htop]) (by rwa [hindex, hmax]), ?_⟩
    simp only [enterMpxPhase_generator, selectChannel_generator, dacRequest_generator, h.generator]
  · refine ⟨_, exec_mpxTick_longSync (hphase.trans hp), ?_⟩
    simp only [enterMpxPhase_generator, dacRequest_generator, programPeriod_generator, h.generator]

/-- A tick keeps two states alike. -/
theorem exists_mpxTick (h : ReadsAlike s u) (hexec : exec .mpxTick s = .next t) :
    ∃ v, exec .mpxTick u = .next v ∧ ReadsAlike t v := by
  obtain ⟨v, hv, hgenerator⟩ := h.exists_mpxTick_generator hexec
  exact ⟨v, hv, {
    params := by rw [(Effect.of_exec hv).params_eq, h.params, (Effect.of_exec hexec).params_eq]
    generator := hgenerator
    frame := fun j => by rw [frameByte_of_mpxTick hv, h.frame, frameByte_of_mpxTick hexec] }⟩

end ReadsAlike

/-- A request reads the driver's state only. -/
theorem dacRequest_driver_congr (x : Sample) (h : u.driver = s.driver) :
    (dacRequest x u).driver = (dacRequest x s).driver := by
  obtain ⟨hphase, -, htrace⟩ := DriverPart.mk.inj h
  by_cases hd : s.dacPhase = .idle
  · rw [dacRequest_idle x hd, dacRequest_idle x (hphase.trans hd), State.driver, htrace]
    rfl
  · rw [dacRequest_busy x hd, dacRequest_busy x (hphase ▸ hd), h]

/-- Settles O29: the generator's next part follows from what it reads, the driver's from the request. -/
theorem generatorIgnoresTheReceiver : Obligations.GeneratorIgnoresTheReceiver := by
  intro s u t houtput hparams hframe h
  obtain ⟨hgenerator, hdriver⟩ := State.output_eq_iff.mp houtput.symm
  have halike : ReadsAlike s u := ⟨hparams.symm, hgenerator, fun j => (hframe j).symm⟩
  obtain ⟨v, hv, hnext⟩ := halike.exists_mpxTick h
  refine ⟨v, hv, State.output_eq_iff.mpr ⟨hnext.generator, ?_⟩⟩
  rw [driver_of_mpxTick hv, driver_of_mpxTick h, halike.nextRequest_eq, dacRequest_driver_congr _ hdriver]

/-! ### Parameters (R161) -/

/-- Settles O54: a broken constraint is exactly what the guard of a step tests. -/
theorem badParametersAreRefused : Obligations.BadParametersAreRefused := by
  intro s hbad
  have hnot : ¬ s.params.ok = true := by
    intro hok
    obtain ⟨hch, hout, hinit⟩ := Params.ok_iff.mp hok
    rcases hbad with h | h | h
    · exact absurd hout (Nat.not_le.mpr h)
    · exact absurd hch (Nat.not_le.mpr h)
    · exact absurd hinit h
  rcases step_cases s with ⟨-, e⟩ | ⟨hok, -⟩ | ⟨hok, -⟩
  · exact e
  · exact absurd hok hnot
  · exact absurd hok hnot

end Sys2Proof.Machine
end

