-- ==== Sys2Proof/Proofs/WholeScan.lean ====
section
/-!
SUPPORT. A whole scan as a run of ticks (43_mpx_generator.md R157, R158): where the generator stands between the first
level and the long sync, the periods on the way, and that the transactions between the ticks do not disturb it.
-/

namespace Sys2Proof.Machine

variable {s t u : State}

/-! ### Inside a scan -/

/-- The generator has emitted the first level, the programmed period is Short, and `n` ticks come before the long
sync. -/
structure InsideScan (n : Nat) (s : State) : Prop where
  period : s.mpxPeriod = .short
  place :
    (s.mpxPhase = .emitSync ∧ 0 < n ∧ n + 2 * s.outputChannelIndex = 2 * s.params.maxOut + 2) ∨
    (s.mpxPhase = .emitNextLevel ∧ n + 2 * s.outputChannelIndex = 2 * s.params.maxOut + 1) ∨
    (s.mpxPhase = .emitLongSync ∧ n = 0 ∧ s.outputChannelIndex = 1)

/-- The first tick of a scan programs Short (R151). -/
theorem exists_mpxTick_firstLevel (hmax : 2 ≤ s.params.maxOut) (hp : s.mpxPhase = .emitFirstLevel) :
    ∃ t, exec .mpxTick s = .next t ∧ InsideScan (2 * s.params.maxOut - 2) t ∧
      t.periodTrace = s.periodTrace ++ [.short] := by
  have htop : s.params.maxOut ≤ s.params.frameTop := Nat.le_max_right _ _
  refine ⟨_, exec_mpxTick_firstLevel hp (by omega), ⟨by simp, .inl ⟨rfl, by omega, ?_⟩⟩, by simp⟩
  simp only [enterMpxPhase_outputChannelIndex, selectChannel_outputChannelIndex, enterMpxPhase_params,
    selectChannel_params, dacRequest_params, programPeriod_params]
  omega

/-- Up to the long sync a tick programs nothing (R152 to R154). -/
theorem InsideScan.exists_mpxTick {n : Nat} (h : InsideScan (n + 1) s) :
    ∃ t, exec .mpxTick s = .next t ∧ InsideScan n t ∧ t.periodTrace = s.periodTrace := by
  have htop : s.params.maxOut ≤ s.params.frameTop := Nat.le_max_right _ _
  rcases h.place with ⟨hp, -, hn⟩ | ⟨hp, hn⟩ | ⟨-, hn, -⟩
  · refine ⟨_, exec_mpxTick_sync hp, ⟨by simp [h.period], .inr (.inl ⟨rfl, ?_⟩)⟩, by simp⟩
    simp only [enterMpxPhase_outputChannelIndex, dacRequest_outputChannelIndex, enterMpxPhase_params, dacRequest_params]
    omega
  · rcases Nat.lt_or_ge s.outputChannelIndex s.params.maxOut with hc | hc
    · refine ⟨_, exec_mpxTick_nextLevel hp (by omega) hc, ⟨by simp [h.period], .inl ⟨rfl, by omega, ?_⟩⟩, by simp⟩
      simp only [enterMpxPhase_outputChannelIndex, selectChannel_outputChannelIndex, enterMpxPhase_params,
        selectChannel_params, dacRequest_params]
      omega
    · exact ⟨_, exec_mpxTick_lastLevel hp (by omega) hc,
        ⟨by simp [h.period], .inr (.inr ⟨rfl, by omega, rfl⟩)⟩, by simp⟩
  · cases hn

/-- The long sync programs Long and starts the next scan (R155). -/
theorem InsideScan.exists_mpxTick_longSync (h : InsideScan 0 s) :
    ∃ t, exec .mpxTick s = .next t ∧ t.generator = ⟨.emitFirstLevel, 1, .long, s.periodTrace ++ [.long]⟩ := by
  rcases h.place with ⟨-, hn, -⟩ | ⟨-, hn⟩ | ⟨hp, -, hi⟩
  · cases hn
  · omega
  · exact ⟨_, exec_mpxTick_longSync hp, by simp [State.generator, hi]⟩

/-! ### The scan period (R158) -/

theorem scanTime_succ_of_next (h : exec .mpxTick s = .next t) (n : Nat) :
    scanTime (n + 1) s = (scanTime n t).map (waitOf s.params t.mpxPeriod + ·) := by
  rw [scanTime, h, ← (Effect.of_exec h).params_eq]

/-- The rest of a scan waits Short after every tick but the long sync, and Long after that. -/
theorem InsideScan.scanTime_eq {n : Nat} (h : InsideScan n s) :
    scanTime (n + 1) s = some (n * s.params.tShort + s.params.tLong) := by
  induction n generalizing s with
  | zero =>
    obtain ⟨t, ht, hgenerator⟩ := h.exists_mpxTick_longSync
    have hperiod : t.mpxPeriod = .long := congrArg GeneratorPart.mpxPeriod hgenerator
    rw [scanTime_succ_of_next ht, hperiod, scanTime, Option.map_some, waitOf, Nat.zero_mul, Nat.zero_add, Nat.add_zero]
  | succ n ih =>
    obtain ⟨t, ht, hinside, -⟩ := h.exists_mpxTick
    rw [scanTime_succ_of_next ht, ih hinside, hinside.period, (Effect.of_exec ht).params_eq, Option.map_some, waitOf]
    congr 1
    ring

/-- Settles O32: the first tick, then the rest of the scan. -/
theorem scanPeriodIsInvariant : Obligations.ScanPeriodIsInvariant := by
  intro s hok hp
  obtain ⟨-, hmax, -⟩ := Params.ok_iff.mp hok
  have hmax : 2 ≤ s.params.maxOut := hmax
  obtain ⟨t, ht, hinside, -⟩ := exists_mpxTick_firstLevel hmax hp
  have hticks : 2 * s.params.maxOut = (2 * s.params.maxOut - 2) + 1 + 1 := by omega
  have hshort : 2 * s.params.maxOut - 1 = 1 + (2 * s.params.maxOut - 2) := by omega
  rw [hticks, scanTime_succ_of_next ht, hinside.scanTime_eq, hinside.period, (Effect.of_exec ht).params_eq, ← hticks,
    hshort, Option.map_some, waitOf, Nat.add_mul, Nat.one_mul, Nat.add_assoc]

/-! ### The ticks of a scan without the transactions -/

/-- The rest of a scan ends at the start of the next one. -/
theorem InsideScan.exists_execAll {n : Nat} (h : InsideScan n s) :
    ∃ t, execAll (List.replicate (n + 1) .mpxTick) s = .next t ∧
      t.generator = ⟨.emitFirstLevel, 1, .long, s.periodTrace ++ [.long]⟩ := by
  induction n generalizing s with
  | zero =>
    obtain ⟨t, ht, hgenerator⟩ := h.exists_mpxTick_longSync
    exact ⟨t, (execAll_singleton _ _).trans ht, hgenerator⟩
  | succ n ih =>
    obtain ⟨u, hu, hinside, htrace⟩ := h.exists_mpxTick
    obtain ⟨t, ht, hgenerator⟩ := ih hinside
    rw [List.replicate_succ, execAll_cons_of_next hu]
    exact ⟨t, ht, htrace ▸ hgenerator⟩

/-- A whole scan programs Short and Long once each and ends where it began. -/
theorem exists_execAll_scan (hmax : 2 ≤ s.params.maxOut) (hp : s.mpxPhase = .emitFirstLevel) :
    ∃ t, execAll (List.replicate (2 * s.params.maxOut) .mpxTick) s = .next t ∧
      t.generator = ⟨.emitFirstLevel, 1, .long, s.periodTrace ++ [.short, .long]⟩ := by
  obtain ⟨u, hu, hinside, htrace⟩ := exists_mpxTick_firstLevel hmax hp
  obtain ⟨t, ht, hgenerator⟩ := hinside.exists_execAll
  have hticks : 2 * s.params.maxOut = (2 * s.params.maxOut - 2) + 1 + 1 := by omega
  rw [hticks, List.replicate_succ, execAll_cons_of_next hu]
  exact ⟨t, ht, by rw [hgenerator, htrace, List.append_assoc]; rfl⟩

/-! ### A tick and the completions of its transaction -/

theorem execAll_busDone_succ (n : Nat) (s : State) :
    execAll (List.replicate (n + 1) .busDone) s = execAll (List.replicate n .busDone) (busCompletion s) := rfl

theorem busCompletion_sendAddressByte (s : State) :
    busCompletion (sendAddressByte s) = sendHighByte (sendAddressByte s) := rfl

theorem busCompletion_sendHighByte (s : State) : busCompletion (sendHighByte s) = sendLowByte (sendHighByte s) := rfl

theorem busCompletion_sendLowByte (s : State) : busCompletion (sendLowByte s) = requestStop (sendLowByte s) := rfl

theorem busCompletion_requestStop (s : State) : busCompletion (requestStop s) = endTransaction (requestStop s) := rfl

/-- The driver's five acts after START send the rest of the transaction and leave everything else alone. -/
theorem endTransaction_requestStop_sends (s : State) :
    endTransaction (requestStop (sendLowByte (sendHighByte (sendAddressByte s)))) =
      { s with dacPhase := .idle, busTrace := s.busTrace ++ (transaction s.params s.dacSample).tail } := by
  apply State.ext <;> simp [transaction, State.dueAddressByte, State.dueHighByte, State.dueLowByte]

/-- Five completions finish the transaction (44_dac_driver.md R172 to R176). -/
theorem execAll_xfer (hd : s.dacPhase = .startRequested) :
    execAll xfer s = .next
      { s with dacPhase := .idle, busTrace := s.busTrace ++ (transaction s.params s.dacSample).tail } := by
  have hfirst : busCompletion s = sendAddressByte s := by rw [busCompletion, hd]
  simp only [xfer, execAll_busDone_succ, hfirst, busCompletion_sendAddressByte, busCompletion_sendHighByte,
    busCompletion_sendLowByte, busCompletion_requestStop, List.replicate_zero, execAll,
    endTransaction_requestStop_sends]

/-- From an idle driver a tick and its completions put one whole transaction on the bus; the generator goes on as by the
tick alone. -/
theorem exists_execAll_mpxStep (hd : s.dacPhase = .idle) (h : exec .mpxTick s = .next t) :
    ∃ u, execAll mpxStep s = .next u ∧ ReadsAlike t u ∧ u.dacPhase = .idle ∧
      u.busTrace = s.busTrace ++ transaction s.params s.nextRequest := by
  have hdriver := driver_of_mpxTick h
  rw [dacRequest_idle _ hd] at hdriver
  obtain ⟨hphase, hsample, htrace⟩ := DriverPart.mk.inj hdriver
  have hparams := (Effect.of_exec h).params_eq
  refine ⟨_, (execAll_cons_of_next h xfer).trans (execAll_xfer hphase), ⟨rfl, rfl, fun _ => rfl⟩, rfl, ?trace⟩
  case trace =>
    rw [htrace, hsample, hparams, List.append_assoc]
    rfl

/-- As many ticks with their transactions as ticks alone: the generator ends alike, and the bus carries one whole
transaction for each sample requested. -/
theorem exists_execAll_mpxSteps {n : Nat} {samples : List Sample} (halike : ReadsAlike s u) (hd : u.dacPhase = .idle)
    (hticks : execAll (List.replicate n .mpxTick) s = .next t) (hrequests : requestsOf n s = some samples) :
    ∃ v, execAll (repeatOps n mpxStep) u = .next v ∧ ReadsAlike t v ∧ v.dacPhase = .idle ∧
      v.busTrace = u.busTrace ++ samples.flatMap (transaction s.params) := by
  induction n generalizing s u samples with
  | zero =>
    obtain rfl := Host.Outcome.next.inj hticks
    obtain rfl := Option.some.inj hrequests
    exact ⟨u, rfl, halike, hd, (List.append_nil _).symm⟩
  | succ n ih =>
    obtain ⟨s', hs', hrest⟩ := exists_of_execAll_cons hticks
    rw [requestsOf_succ_of_next hs'] at hrequests
    obtain ⟨rest, hrestRequests, rfl⟩ := Option.map_eq_some_iff.mp hrequests
    obtain ⟨u', hu', halike'⟩ := halike.exists_mpxTick hs'
    obtain ⟨w, hw, halikeStep, hidle, hstepTrace⟩ := exists_execAll_mpxStep hd hu'
    obtain ⟨v, hv, halikeEnd, hend, htrace⟩ := ih (halike'.trans halikeStep) hidle hrest hrestRequests
    refine ⟨v, ?run, halikeEnd, hend, ?trace⟩
    case run =>
      rw [repeatOps, List.replicate_succ, List.flatten_cons, execAll_append_of_next _ hw]
      exact hv
    case trace =>
      rw [htrace, hstepTrace, halike.nextRequest_eq, halike.params, (Effect.of_exec hs').params_eq, List.flatMap_cons,
        List.append_assoc]

/-! ### What a scan leaves alone -/

/-- The parts of the state that the output pipeline does not write are those of `s`. -/
structure SameOutsideOutput (s t : State) : Prop where
  acquisition : t.acquisition = s.acquisition
  supervisor : t.supervisor = s.supervisor
  config : t.config = s.config
  rxActive : t.rxActive = s.rxActive

theorem emits_of_reportsMalformedByte {i : Instr} (h : reportsMalformedByte i = true) : emits i = false := by
  cases i with
  | rxErrFraming => rfl
  | rxErrParity => rfl
  | _ => cases h

/-- The output pipeline writes the output part only (10_state.md R42). -/
theorem Effect.sameOutsideOutput {i : Instr} (h : Effect s i t) (hi : emits i = true) : SameOutsideOutput s t := by
  cases h with
  | firstLevel | sync | nextLevel | lastLevel | longSync | request | completion =>
    constructor <;> simp [State.acquisition, State.supervisor, State.config]
  | byteNotDue => exact ⟨rfl, rfl, rfl, rfl⟩
  | malformedMasked hm | malformed hm => exact absurd hi (by simp [emits_of_reportsMalformedByte hm])
  | _ => cases hi

theorem SameOutsideOutput.of_exec {i : Instr} (hi : emits i = true) (h : SameOutsideOutput s t)
    (hexec : exec i t = .next u) : SameOutsideOutput s u := by
  have hstep := (Effect.of_exec hexec).sameOutsideOutput hi
  exact {
    acquisition := hstep.acquisition.trans h.acquisition
    supervisor := hstep.supervisor.trans h.supervisor
    config := hstep.config.trans h.config
    rxActive := hstep.rxActive.trans h.rxActive }

/-- A scan is made of ticks and completions. -/
theorem emits_of_mem_scanRun {n : Nat} : ∀ i ∈ scanRun n, emits i = true := by
  intro i hi
  obtain ⟨block, hblock, hmem⟩ := List.mem_flatten.mp hi
  rw [List.eq_of_mem_replicate hblock] at hmem
  rcases List.mem_cons.mp hmem with rfl | hmem
  · rfl
  · rw [List.eq_of_mem_replicate hmem]
    rfl

/-- Settles O30: the requests are those of the ticks alone, each becomes a transaction, and no operation of the run
writes outside the output part. -/
theorem wholeScanSendsEveryChannelOnce : Obligations.WholeScanSendsEveryChannelOnce := by
  intro s hok hp hd
  obtain ⟨-, hmax, -⟩ := Params.ok_iff.mp hok
  obtain ⟨t, hticks, hgenerator⟩ := exists_execAll_scan hmax hp
  obtain ⟨v, hrun, halike, hidle, hbus⟩ := exists_execAll_mpxSteps (.refl s) hd hticks (requestsOf_scan hp)
  obtain ⟨hphase, hindex, hperiod, hperiods⟩ := GeneratorPart.mk.inj (halike.generator.trans hgenerator)
  have hsame : SameOutsideOutput s v :=
    execAll_keeps (K := (emits · = true)) SameOutsideOutput.of_exec emits_of_mem_scanRun ⟨rfl, rfl, rfl, rfl⟩ hrun
  exact ⟨v, hrun, hbus, hperiods, hphase, hindex, hperiod, hidle, hsame.acquisition, hsame.supervisor, hsame.config,
    hsame.rxActive⟩

end Sys2Proof.Machine
end

