-- ==== Sys2Proof/Proofs/DacDriver.lean ====
section
/-!
SUPPORT. The DAC Transaction Driver's two operations (44_dac_driver.md R170 to R180): the answer to a request in `Idle`
and in a busy phase, the one act of a completion in each phase, and that requests dropped on the way do not change a
transaction.
-/

namespace Sys2Proof.Machine

variable {s : State}

/-! ### One operation -/

theorem exec_dacReq (x : Sample) (s : State) : exec (.dacReq x) s = .next (dacRequest x s) := rfl

theorem exec_busDone (s : State) : exec .busDone s = .next (busCompletion s) := rfl

theorem exec_dacReq_idle (x : Sample) (hd : s.dacPhase = .idle) : exec (.dacReq x) s =
    .next { s with dacSample := x, dacPhase := .startRequested, busTrace := s.busTrace ++ [.start] } := by
  rw [exec_dacReq, dacRequest_idle x hd]

theorem exec_dacReq_busy (x : Sample) (hd : s.dacPhase ≠ .idle) : exec (.dacReq x) s = .next s := by
  rw [exec_dacReq, dacRequest_busy x hd]

theorem exec_busDone_idle (hd : s.dacPhase = .idle) : exec .busDone s = .next s := by
  rw [exec_busDone, busCompletion, hd]

theorem exec_busDone_startRequested (hd : s.dacPhase = .startRequested) :
    exec .busDone s = .next (sendAddressByte s) := by
  rw [exec_busDone, busCompletion, hd]

theorem exec_busDone_addressSent (hd : s.dacPhase = .addressSent) : exec .busDone s = .next (sendHighByte s) := by
  rw [exec_busDone, busCompletion, hd]

theorem exec_busDone_highNibbleSent (hd : s.dacPhase = .highNibbleSent) : exec .busDone s = .next (sendLowByte s) := by
  rw [exec_busDone, busCompletion, hd]

theorem exec_busDone_lowByteSent (hd : s.dacPhase = .lowByteSent) : exec .busDone s = .next (requestStop s) := by
  rw [exec_busDone, busCompletion, hd]

theorem exec_busDone_stopRequested (hd : s.dacPhase = .stopRequested) :
    exec .busDone s = .next (endTransaction s) := by
  rw [exec_busDone, busCompletion, hd]

/-- The six bits above a DACREQ's sample are fixed: its `op` and the two zeros below it (30_encoding.md R93). -/
theorem encode_dacReq (x : Sample) : encode (.dacReq x) = .stim16 (0x18#6 ++ x) :=
  congrArg CodeWord.stim16 (BitVec.append_assoc (x₁ := 0x6#4) (x₂ := 0#2) (x₃ := x)).symm

/-- Settles O33. -/
theorem idleDriverAcceptsRequestIgnoresCompletion : Obligations.IdleDriverAcceptsRequestIgnoresCompletion :=
  ⟨encode_dacReq, rfl, fun _ hd => ⟨fun x => exec_dacReq_idle x hd, exec_busDone_idle hd⟩⟩

/-- Settles O34. -/
theorem busyDriverDropsRequest : Obligations.BusyDriverDropsRequest := fun _ x hd => exec_dacReq_busy x hd

/-- Settles O35: one act of the driver in each phase. -/
theorem completionAdvancesOnePhase : Obligations.CompletionAdvancesOnePhase := fun _ =>
  ⟨exec_busDone_startRequested, exec_busDone_addressSent, exec_busDone_highNibbleSent, exec_busDone_lowByteSent,
    exec_busDone_stopRequested⟩

/-! ### Dropped requests between the completions -/

/-- The completions that bring the driver back to `Idle` from a phase. -/
def DacPhase.completionsOwed : DacPhase → Nat
  | .idle => 0
  | .startRequested => 5
  | .addressSent => 4
  | .highNibbleSent => 3
  | .lowByteSent => 2
  | .stopRequested => 1

/-- Each completion is one less to come. -/
theorem completionsOwed_busCompletion (s : State) :
    (busCompletion s).dacPhase.completionsOwed = s.dacPhase.completionsOwed - 1 := by
  rcases busCompletion_cases s with ⟨hd, e⟩ | ⟨hd, e⟩ | ⟨hd, e⟩ | ⟨hd, e⟩ | ⟨hd, e⟩ | ⟨hd, e⟩ <;>
    simp [e, hd, DacPhase.completionsOwed]

theorem ne_idle_of_completionsOwed_pos {d : DacPhase} (h : 0 < d.completionsOwed) : d ≠ .idle := by
  rintro rfl
  exact Nat.lt_irrefl 0 h

/-- A busy driver drops every request of a list (44_dac_driver.md R171). -/
theorem execAll_map_dacReq_busy (hd : s.dacPhase ≠ .idle) (dropped : List Sample) :
    execAll (dropped.map Instr.dacReq) s = .next s := by
  induction dropped with
  | nil => rfl
  | cons x xs ih => rw [List.map_cons, execAll_cons_of_next (exec_dacReq_busy x hd), ih]

/-- While a transaction lasts, its completions do the same with requests in the gaps as without. -/
theorem execAll_completions_with_gaps {gaps : List (List Sample)} (howed : gaps.length ≤ s.dacPhase.completionsOwed) :
    execAll (gaps.flatMap (fun dropped => dropped.map Instr.dacReq ++ [.busDone])) s =
      execAll (List.replicate gaps.length .busDone) s := by
  induction gaps generalizing s with
  | nil => rfl
  | cons dropped gaps ih =>
    rw [List.length_cons] at howed
    have hbusy : s.dacPhase ≠ .idle := ne_idle_of_completionsOwed_pos (by omega)
    have hnext : gaps.length ≤ (busCompletion s).dacPhase.completionsOwed := by
      rw [completionsOwed_busCompletion]
      omega
    rw [List.flatMap_cons, List.append_assoc, execAll_append_of_next _ (execAll_map_dacReq_busy hbusy dropped),
      List.singleton_append, execAll_cons_of_next (exec_busDone s), ih hnext, List.length_cons, execAll_busDone_succ]

/-- Settles O36: the requests in the gaps drop out, and the five completions that remain finish the transaction that the
first request began. -/
theorem transactionSendsTheAcceptedSample : Obligations.TransactionSendsTheAcceptedSample := by
  intro s x gaps hd hfive
  have howed : gaps.length ≤ DacPhase.startRequested.completionsOwed := hfive.le
  rw [execAll_cons_of_next (exec_dacReq_idle x hd), execAll_completions_with_gaps howed, hfive, ← xfer,
    execAll_xfer rfl, List.append_assoc, ← hd]
  rfl

end Sys2Proof.Machine
end

