-- ==== Sys2Proof/Proofs/LinkSupervisor.lean ====
section
/-!
SUPPORT. The Link Activity Supervisor (45_link_supervisor.md R190 to R194): one period by its two cases, periods that only
count, and which operations write the heartbeat and raise the receiving indicator.
-/

namespace Sys2Proof.Machine

variable {s t : State}

/-! ### One period -/

/-- A period the supervisor counts: a busy one, or an idle one while the history is at most 2 (R190). -/
theorem exec_supTick_of_counts {r : Bool} (hh : r = false ∨ s.idleHistory.toNat ≤ supIdleLimit) :
    exec (.supTick r) s = .next (countPeriod (toggleHeartbeat s)) := by
  rcases execSupTick_cases r s with ⟨hr, hlong, -⟩ | ⟨-, e⟩
  · rcases hh with hbusy | hshort
    · exact absurd (hr.symm.trans hbusy) (by decide)
    · exact absurd hlong (Nat.not_lt.mpr hshort)
  · exact e

/-- An idle period with a history above 2 clears the indicator and the history (R190). -/
theorem exec_supTick_of_idleTooLong (hh : supIdleLimit < s.idleHistory.toNat) :
    exec (.supTick true) s = .next (declareIdle (toggleHeartbeat s)) := by
  rcases execSupTick_cases true s with ⟨-, -, e⟩ | ⟨hbusy | hshort, -⟩
  · exact e
  · cases hbusy
  · exact absurd hh (Nat.not_lt.mpr hshort)

/-- Both cases of a period in one equation (R190, R191). -/
theorem exec_supTick (s : State) (rxIdle : Bool) :
    exec (.supTick rxIdle) s = .next
      (if rxIdle = true ∧ 2 < s.idleHistory.toNat then
        { s with heartbeat := !s.heartbeat, rxActive := false, idleHistory := 0 }
       else { s with heartbeat := !s.heartbeat, idleHistory := s.idleHistory + 1 }) := by
  split
  case isTrue h =>
    obtain ⟨rfl, hlong⟩ := h
    exact exec_supTick_of_idleTooLong hlong
  case isFalse h =>
    refine exec_supTick_of_counts ?_
    cases rxIdle with
    | false => exact .inl rfl
    | true => exact .inr (Nat.le_of_not_lt fun hlong => h ⟨rfl, hlong⟩)

/-- Settles O39. -/
theorem supervisorTick : Obligations.SupervisorTick := ⟨rfl, rfl, exec_supTick⟩

/-! ### Periods that only count -/

/-- The state after `n` periods that only count: the heartbeat inverted `n` times, the history up by `n` mod 2^8
(R190, R192). -/
def periodsCounted (n : Nat) (s : State) : State :=
  { s with
    heartbeat := if n % 2 = 0 then s.heartbeat else !s.heartbeat
    idleHistory := s.idleHistory + BitVec.ofNat 8 n }

theorem periodsCounted_zero (s : State) : periodsCounted 0 s = s := by
  simp [periodsCounted]

theorem periodsCounted_succ (n : Nat) (s : State) :
    periodsCounted (n + 1) s = periodsCounted n (countPeriod (toggleHeartbeat s)) := by
  have hhistory : s.idleHistory + BitVec.ofNat 8 (n + 1) = s.idleHistory + 1 + BitVec.ofNat 8 n := by
    rw [BitVec.ofNat_add, add_comm (BitVec.ofNat 8 n), ← add_assoc]
    rfl
  have hheartbeat : (if (n + 1) % 2 = 0 then s.heartbeat else !s.heartbeat) =
      if n % 2 = 0 then !s.heartbeat else !!s.heartbeat := by
    rcases Nat.mod_two_eq_zero_or_one n with h | h <;> simp [Nat.add_mod, h]
  simp only [periodsCounted, hhistory, hheartbeat]
  rfl

/-- Periods count while they are busy, or while the history has not yet passed 2 when the last of them comes. -/
theorem execAll_supTicks_of_counts {r : Bool} {n : Nat} (hh : r = false ∨ s.idleHistory.toNat + n ≤ supIdleLimit + 1) :
    execAll (List.replicate n (.supTick r)) s = .next (periodsCounted n s) := by
  induction n generalizing s with
  | zero => rw [periodsCounted_zero]; rfl
  | succ n ih =>
    have hfirst : r = false ∨ s.idleHistory.toNat ≤ supIdleLimit := hh.imp_right fun hle => by omega
    have hrest : r = false ∨ (countPeriod (toggleHeartbeat s)).idleHistory.toNat + n ≤ supIdleLimit + 1 :=
      hh.imp_right fun hle => by
        have hone : (s.idleHistory + 1).toNat ≤ s.idleHistory.toNat + 1 :=
          (BitVec.toNat_add _ _).trans_le (Nat.mod_le _ _)
        rw [countPeriod_idleHistory, toggleHeartbeat_idleHistory]
        omega
    rw [List.replicate_succ, execAll_cons_of_next (exec_supTick_of_counts hfirst), ih hrest, periodsCounted_succ]

/-- Three idle periods from an empty history count to 3 (R191). -/
theorem periodsCounted_three (hz : s.idleHistory = 0) :
    periodsCounted 3 s = { s with heartbeat := !s.heartbeat, idleHistory := 3 } := by
  simp [periodsCounted, hz]

/-- Settles O40: three idle periods only count, and leave a history above 2 for the fourth; busy ones never do more. -/
theorem indicatorClearsAfterThreePeriods : Obligations.IndicatorClearsAfterThreePeriods := by
  refine ⟨fun s hz => ?idle, fun s n => ?busy⟩
  case idle =>
    have hthree : execAll (List.replicate 3 (.supTick true)) s =
        .next { s with heartbeat := !s.heartbeat, idleHistory := 3 } := by
      rw [execAll_supTicks_of_counts (.inr (by rw [hz]; decide)), periodsCounted_three hz]
    refine ⟨hthree, ?_⟩
    rw [List.replicate_succ' (n := 3), execAll_append_of_next _ hthree, execAll_singleton,
      exec_supTick_of_idleTooLong (show supIdleLimit < (3#8).toNat by decide)]
    simp [declareIdle, toggleHeartbeat]
  case busy =>
    exact ⟨_, execAll_supTicks_of_counts (.inl rfl), by simp [periodsCounted], rfl, rfl⟩

/-! ### What the supervisor reads and what raises the indicator -/

/-- The supervisor's own next state is decided by its state and the operand (R190). -/
theorem supervisor_of_supTick {r : Bool} (h : exec (.supTick r) s = .next t) :
    t.supervisor =
      if r = true ∧ 2 < s.supervisor.idleHistory.toNat then { heartbeat := !s.supervisor.heartbeat, idleHistory := 0 }
      else { heartbeat := !s.supervisor.heartbeat, idleHistory := s.supervisor.idleHistory + 1 } := by
  obtain rfl := Host.Outcome.next.inj ((exec_supTick s r).symm.trans h)
  exact apply_ite State.supervisor _ _ _

/-- The indicator after a period is decided by the indicator, the supervisor's state and the operand (R190). -/
theorem rxActive_of_supTick {r : Bool} (h : exec (.supTick r) s = .next t) :
    t.rxActive = if r = true ∧ 2 < s.supervisor.idleHistory.toNat then false else s.rxActive := by
  obtain rfl := Host.Outcome.next.inj ((exec_supTick s r).symm.trans h)
  exact apply_ite State.rxActive _ _ _

/-- The indicator rises only by a stored byte (41_frame_receiver.md R122). -/
theorem Effect.stored_of_rxActive_rises {i : Instr} (h : Effect s i t) (hs : s.rxActive = false)
    (ht : t.rxActive = true) :
    ∃ b, i = .rxByte b ∧ t.receivedCount = s.receivedCount + 1 ∧ t.frameByte s.receivedCount = b := by
  have hbyte (b : Byte) : (stored b (countByte s)).frameByte s.receivedCount = b :=
    (stored_frameByte b (countByte s) s.receivedCount).trans (if_pos rfl)
  cases h with
  | byteStored b => exact ⟨b, rfl, rfl, hbyte b⟩
  | byteCompletes b => exact ⟨b, rfl, rfl, hbyte b⟩
  | reset => cases ht
  | _ => simp [hs] at ht

/-- Settles O41, clause by clause. -/
theorem supervisorSetsNothing : Obligations.SupervisorSetsNothing := by
  refine ⟨fun i s t h => (Effect.of_exec h).stored_of_rxActive_rises, ?reads, ?gates⟩
  case reads =>
    intro s u t v r hsup hactive ht hv
    rw [supervisor_of_supTick ht, supervisor_of_supTick hv, rxActive_of_supTick ht, rxActive_of_supTick hv, hsup,
      hactive]
    exact ⟨rfl, rfl⟩
  case gates =>
    intro s t r h
    obtain ⟨hwrites, -⟩ := execSupTick_writes h
    rw [hwrites]
    exact ⟨rfl, rfl, rfl⟩

/-! ### The heartbeat -/

/-- A period inverts the heartbeat in both its cases (R190). -/
theorem heartbeat_of_supTick {r : Bool} (h : exec (.supTick r) s = .next t) : t.heartbeat = !s.heartbeat := by
  rcases execSupTick_cases r s with ⟨-, -, e⟩ | ⟨-, e⟩ <;> obtain rfl := Host.Outcome.next.inj (e.symm.trans h) <;> rfl

/-- Nothing but a supervisor period and reset writes the heartbeat (R194). -/
theorem Effect.heartbeat_eq {i : Instr} (h : Effect s i t) (hr : i ≠ .reset) (hsup : ∀ r, i ≠ .supTick r) :
    t.heartbeat = s.heartbeat := by
  cases h with
  | reset => exact absurd rfl hr
  | declaresIdle | countsPeriod => exact absurd rfl (hsup _)
  | _ => simp

/-- Settles O42: a period inverts the heartbeat, and no other operation writes it. -/
theorem heartbeatTogglesOnlyOnSupervisorTick : Obligations.HeartbeatTogglesOnlyOnSupervisorTick := by
  intro i s t h hr
  refine ⟨?_, (Effect.of_exec h).heartbeat_eq hr⟩
  rintro ⟨r, rfl⟩
  exact heartbeat_of_supTick h

end Sys2Proof.Machine
end

