-- ==== Sys2Proof/Proofs/ConfigPort.lean ====
section
/-!
SUPPORT. The configuration port (46_config_port.md R195 to R197): the answer to each of its two operations, which
operations write Config, and that only RXBYTE reads it: every other operation commutes with an overwriting of the Config
registers.
-/

namespace Sys2Proof.Machine

variable {s t : State}

/-! ### The two operations (R195, R196) -/

/-- The six bits above a CFGADDR's operand are fixed: its `op` and the two zeros below it (30_encoding.md R93). -/
theorem encode_cfgAddr (a : BitVec 10) : encode (.cfgAddr a) = .stim16 (0x24#6 ++ a) :=
  congrArg CodeWord.stim16 (BitVec.append_assoc (x₁ := 0x9#4) (x₂ := 0#2) (x₃ := a)).symm

/-- The six bits above a CFGCNT's operand are fixed in the same way (30_encoding.md R93). -/
theorem encode_cfgCnt (n : BitVec 10) : encode (.cfgCnt n) = .stim16 (0x28#6 ++ n) :=
  congrArg CodeWord.stim16 (BitVec.append_assoc (x₁ := 0xA#4) (x₂ := 0#2) (x₃ := n)).symm

theorem exec_cfgAddr_of_le {a : BitVec 10} (ha : a.toNat ≤ startMax) (s : State) :
    exec (.cfgAddr a) s = .next { s with cfgStartAddress := a } := if_pos ha

theorem exec_cfgAddr_of_gt {a : BitVec 10} (ha : startMax < a.toNat) (s : State) :
    exec (.cfgAddr a) s = .refused .configOutOfRange := if_neg (Nat.not_le.mpr ha)

theorem exec_cfgCnt_of_le {n : BitVec 10} (hn : n.toNat ≤ s.params.maxCh) :
    exec (.cfgCnt n) s = .next { s with cfgChannelCount := n.toNat } := if_pos hn

theorem exec_cfgCnt_of_gt {n : BitVec 10} (hn : s.params.maxCh < n.toNat) :
    exec (.cfgCnt n) s = .refused .configOutOfRange := if_neg (Nat.not_le.mpr hn)

/-- Settles O43: each operation answers by which side of its limit the operand is on. -/
theorem configWritesAreRangeChecked : Obligations.ConfigWritesAreRangeChecked :=
  ⟨encode_cfgAddr, encode_cfgCnt, fun s _ ha => exec_cfgAddr_of_le ha s, fun s _ ha => exec_cfgAddr_of_gt ha s,
    fun _ _ hn => exec_cfgCnt_of_le hn, fun _ _ hn => exec_cfgCnt_of_gt hn⟩

/-! ### Who writes Config (R197) -/

/-- Only the port and reset write the Config registers. -/
theorem Effect.config_eq {i : Instr} (h : Effect s i t) (hr : i ≠ .reset) (ha : ∀ c, i ≠ .cfgAddr c)
    (hn : ∀ c, i ≠ .cfgCnt c) : t.config = s.config := by
  cases h with
  | reset => exact absurd rfl hr
  | cfgAddr a => exact absurd rfl (ha a)
  | cfgCnt n => exact absurd rfl (hn n)
  | _ => simp [State.config]

/-! ### Who reads Config (R197) -/

/-- The state with other values in the Config registers. -/
def withConfig (a : BitVec 10) (n : Nat) (s : State) : State := { s with cfgStartAddress := a, cfgChannelCount := n }

section Independence

variable (a : BitVec 10) (n : Nat)

theorem dacRequest_withConfig (x : Sample) (s : State) :
    dacRequest x (withConfig a n s) = withConfig a n (dacRequest x s) := by
  by_cases hd : s.dacPhase = .idle
  · rw [dacRequest_idle x hd, dacRequest_idle (s := withConfig a n s) x hd]
    rfl
  · rw [dacRequest_busy x hd, dacRequest_busy (s := withConfig a n s) x hd]

/-- The completion is chosen by `dac_phase` alone (44_dac_driver.md R172 to R177). -/
theorem busCompletion_withConfig (s : State) : busCompletion (withConfig a n s) = withConfig a n (busCompletion s) := by
  have hphase : (withConfig a n s).dacPhase = s.dacPhase := rfl
  rw [busCompletion, busCompletion, hphase]
  cases s.dacPhase <;> rfl

theorem reactToLineError_withConfig (k : ErrorKind) (s : State) :
    reactToLineError k (withConfig a n s) = withConfig a n (reactToLineError k s) := by
  rw [reactToLineError, reactToLineError, apply_ite (withConfig a n)]
  cases k <;> rfl

/-- A sample of the line is counted, or ends the run, by the Break Detector's own state (40_break_detector.md R110 to
R113). -/
theorem exec_tick_withConfig {l : LineLevel} (h : exec (.tick l) s = .next t) :
    exec (.tick l) (withConfig a n s) = .next (withConfig a n t) := by
  rcases execTick_next h with ⟨hm, rfl⟩ | ⟨he, rfl, rfl⟩ | ⟨he, rfl, hc, rfl⟩ | ⟨he, rfl, hc, rfl⟩
  · exact exec_tick_of_disarmed (s := withConfig a n _) hm l
  · exact exec_tickLow (s := withConfig a n s) he
  · exact exec_tickHigh_of_unconfirmed (s := withConfig a n s) he hc
  · exact exec_tickHigh_of_confirmed (s := withConfig a n s) he hc

/-- A tick of the generator scans `MAX_OUT` channels whatever the channel count (43_mpx_generator.md R153). -/
theorem exec_mpxTick_withConfig (h : exec .mpxTick s = .next t) :
    exec .mpxTick (withConfig a n s) = .next (withConfig a n t) := by
  rcases execMpxTick_cases h with ⟨hp, hi, rfl⟩ | ⟨hp, rfl⟩ | ⟨hp, hi, hc, rfl⟩ | ⟨hp, hi, hc, rfl⟩ | ⟨hp, rfl⟩
  · exact (exec_mpxTick_firstLevel (s := withConfig a n s) hp hi).trans
      (congrArg (Host.Outcome.next <| enterMpxPhase .emitSync <| selectChannel 2 ·)
        (dacRequest_withConfig a n _ (programPeriod .short s)))
  · exact (exec_mpxTick_sync (s := withConfig a n s) hp).trans
      (congrArg (Host.Outcome.next <| enterMpxPhase .emitNextLevel ·) (dacRequest_withConfig a n _ s))
  · exact (exec_mpxTick_nextLevel (s := withConfig a n s) hp hi hc).trans
      (congrArg (Host.Outcome.next <| enterMpxPhase .emitSync <| selectChannel (s.outputChannelIndex + 1) ·)
        (dacRequest_withConfig a n _ s))
  · exact (exec_mpxTick_lastLevel (s := withConfig a n s) hp hi hc).trans
      (congrArg (Host.Outcome.next <| enterMpxPhase .emitLongSync <| selectChannel 1 ·)
        (dacRequest_withConfig a n _ s))
  · exact (exec_mpxTick_longSync (s := withConfig a n s) hp).trans
      (congrArg (Host.Outcome.next <| enterMpxPhase .emitFirstLevel ·)
        (dacRequest_withConfig a n _ (programPeriod .long s)))

/-- No operation but RXBYTE reads Config: with other Config registers it answers the same state but for these. The port
and reset, which write them, are left out. -/
theorem exec_withConfig {i : Instr} (h : exec i s = .next t) (hb : ∀ b, i ≠ .rxByte b) (ha : ∀ c, i ≠ .cfgAddr c)
    (hn : ∀ c, i ≠ .cfgCnt c) (hr : i ≠ .reset) : exec i (withConfig a n s) = .next (withConfig a n t) := by
  cases i with
  | reset => exact absurd rfl hr
  | rxByte b => exact absurd rfl (hb b)
  | cfgAddr c => exact absurd rfl (ha c)
  | cfgCnt c => exact absurd rfl (hn c)
  | tick l => exact exec_tick_withConfig a n h
  | mpxTick => exact exec_mpxTick_withConfig a n h
  | rxErrOverrun => exact Host.Outcome.next.inj h ▸ congrArg _ (reactToLineError_withConfig a n .overrun s)
  | rxErrFraming => exact Host.Outcome.next.inj h ▸ congrArg _ (reactToLineError_withConfig a n .framing s)
  | rxErrParity => exact Host.Outcome.next.inj h ▸ congrArg _ (reactToLineError_withConfig a n .parity s)
  | busDone => exact Host.Outcome.next.inj h ▸ congrArg _ (busCompletion_withConfig a n s)
  | dacReq x => exact Host.Outcome.next.inj h ▸ congrArg _ (dacRequest_withConfig a n x s)
  | levelCode v => exact Host.Outcome.next.inj h ▸ congrArg _ (dacRequest_withConfig a n (levelSample v) s)
  | syncCode => exact Host.Outcome.next.inj h ▸ congrArg _ (dacRequest_withConfig a n syncSample s)
  | rearm | supTick _ | dacAddrByte _ | dacHighByte _ | dacLowByte _ =>
    -- one choice between two updates, whose test is not about Config
    obtain rfl := Host.Outcome.next.inj h
    rw [apply_ite (withConfig a n)]
    rfl

end Independence

/-- Settles O44: who writes Config by the effects of an operation, who reads it by `exec_withConfig`. -/
theorem configIsReadOnlyToTheCore : Obligations.ConfigIsReadOnlyToTheCore := by
  refine ⟨fun i s t h hchanged => ?_, fun i s t a n h hb ha hn hr => exec_withConfig a n h hb ha hn hr⟩
  by_contra hother
  simp only [not_or, not_exists] at hother
  obtain ⟨hr, ha, hn⟩ := hother
  exact hchanged ((Effect.of_exec h).config_eq hr ha hn)

end Sys2Proof.Machine
end

