-- ==== Sys2Proof/Proofs/Exceptions.lean ====
section
/-!
SUPPORT. Masking and order of events (60_exceptions.md R201 to R204): what a masked event does, and that the operations
of the two pipelines commute. The commutation rests on two facts. An operation of the acquisition side, or a supervisor
period, neither reads nor writes the output part; an operation of the output side writes nothing else, and of the rest
it reads the parameters and, if it is MPXTICK, the frame bytes.
-/

namespace Sys2Proof.Machine

variable {s t u : State} {i j : Instr}

/-! ### Masked events (R201, R202) -/

/-- Only the byte clock and the deserializer can be masked, and a masked event of theirs is lost, but for an overrun. -/
theorem exec_of_masked (hm : sourceEnabled i s = false) (hi : i ≠ .rxErrOverrun) : exec i s = .next s := by
  cases i with
  | tick l => exact exec_tick_of_disarmed hm l
  | rxByte b => exact exec_rxByte_of_disabled hm b
  | rxErrOverrun => exact absurd rfl hi
  | rxErrFraming => exact congrArg _ (reactToLineError_of_disabled hm .framing)
  | rxErrParity => exact congrArg _ (reactToLineError_of_disabled hm .parity)
  | _ => cases hm

/-- Settles O59. -/
theorem maskedEventsAreLost : Obligations.MaskedEventsAreLost := by
  refine fun i s hm => ⟨exec_of_masked hm, ?_⟩
  rintro rfl
  exact congrArg _ (reactToLineError_of_disabled hm .overrun)

/-! ### Replacing the output part -/

/-- The state with another output part. -/
def withOutput (o : OutputPart) (s : State) : State :=
  { s with
    mpxPhase := o.mpxPhase, outputChannelIndex := o.outputChannelIndex, mpxPeriod := o.mpxPeriod,
    dacPhase := o.dacPhase, dacSample := o.dacSample, busTrace := o.busTrace, periodTrace := o.periodTrace }

theorem withOutput_self (s : State) : withOutput s.output s = s := rfl

/-- An answer with its next state, if there is one, changed by `f`. -/
def mapNext (f : State → State) : Result → Result
  | .next t => .next (f t)
  | .fault e => .fault e
  | .refused r => .refused r

/-- A choice between two updates changes by `f` when both of them do and the test does not. -/
theorem next_ite_eq_mapNext {c : Prop} [Decidable c] {f : State → State} {t t' v v' : State} (ht : t' = f t)
    (hv : v' = f v) : (.next (if c then t' else v') : Result) = mapNext f (.next (if c then t else v)) := by
  rw [ht, hv, mapNext, apply_ite f]

/-! ### The acquisition side and the supervisor -/

/-- The operation neither reads nor writes the output part. -/
def BlindToOutput (i : Instr) : Prop :=
  ∀ (o : OutputPart) (s : State), exec i (withOutput o s) = mapNext (withOutput o) (exec i s)

/-- A store at an index that does not exist is the model's fault (log 8). -/
theorem storeByte_of_gt (hi : s.params.frameTop < s.receivedCount) (b : Byte) :
    storeByte b s = .fault (.frameIndexOutOfRange s.receivedCount) := by
  simp only [storeByte, frameWrite_of_gt hi]

section AcquisitionSide

variable (o : OutputPart) (s : State)

theorem sampleLine_withOutput (l : LineLevel) : sampleLine l (withOutput o s) = withOutput o (sampleLine l s) := by
  cases l with
  | low => rfl
  | high =>
    rw [sampleLine, sampleLine, apply_ite (withOutput o)]
    rfl

theorem reactToLineError_withOutput (k : ErrorKind) :
    reactToLineError k (withOutput o s) = withOutput o (reactToLineError k s) := by
  rw [reactToLineError, reactToLineError, apply_ite (withOutput o)]
  cases k <;> rfl

theorem completeFrame_withOutput : completeFrame (withOutput o s) = withOutput o (completeFrame s) := by
  rw [completeFrame, completeFrame, apply_ite (withOutput o)]
  rfl

theorem storeByte_withOutput (b : Byte) :
    storeByte b (withOutput o s) = mapNext (withOutput o) (storeByte b s) := by
  by_cases hi : s.receivedCount ≤ s.params.frameTop
  · rw [storeByte_of_le hi, storeByte_of_le (s := withOutput o s) hi]
    exact congrArg _ (completeFrame_withOutput o (stored b s))
  · have hgt := Nat.lt_of_not_le hi
    rw [storeByte_of_gt hgt, storeByte_of_gt (s := withOutput o s) hgt]
    rfl

theorem execRxByte_withOutput (b : Byte) :
    execRxByte b (withOutput o s) = mapNext (withOutput o) (execRxByte b s) := by
  rcases execRxByte_cases b s with ⟨hm, e⟩ | ⟨he, hw, e⟩ | ⟨he, hw, e⟩ <;> rw [e]
  · exact exec_rxByte_of_disabled (s := withOutput o s) hm b
  · exact exec_rxByte_of_skipped (s := withOutput o s) he hw b
  · exact (exec_rxByte_of_past (s := withOutput o s) he hw b).trans (storeByte_withOutput o (countByte s) b)

end AcquisitionSide

theorem blindToOutput_of_acquires (hi : acquires i = true) : BlindToOutput i := by
  intro o s
  cases i with
  | tick l => exact next_ite_eq_mapNext (sampleLine_withOutput o s l) rfl
  | rxByte b => exact execRxByte_withOutput o s b
  | rxErrOverrun => exact congrArg _ (reactToLineError_withOutput o s .overrun)
  | rxErrFraming => exact congrArg _ (reactToLineError_withOutput o s .framing)
  | rxErrParity => exact congrArg _ (reactToLineError_withOutput o s .parity)
  | rearm => exact next_ite_eq_mapNext (t := rearmAcquisition s) (v := s) rfl rfl
  | _ => cases hi

theorem blindToOutput_supTick (r : Bool) : BlindToOutput (.supTick r) := fun o s =>
  next_ite_eq_mapNext (f := withOutput o) (t := declareIdle (toggleHeartbeat s))
    (v := countPeriod (toggleHeartbeat s)) rfl rfl

/-- Of the acquisition side only a received byte can stop the core, at a store index that does not exist (log 8). -/
theorem exists_exec_of_acquires (hi : acquires i = true) (hb : ∀ b, i ≠ .rxByte b) (s : State) :
    ∃ u, exec i s = .next u := by
  cases i with
  | rxByte b => exact absurd rfl (hb b)
  | tick _ | rxErrOverrun | rxErrFraming | rxErrParity | rearm => exact ⟨_, rfl⟩
  | _ => cases hi

/-! ### The output side -/

theorem dacRequest_withOutput (x : Sample) (s u : State) :
    dacRequest x (withOutput s.output u) = withOutput (dacRequest x s).output u := by
  have hphase : (withOutput s.output u).dacPhase = s.dacPhase := rfl
  rw [dacRequest, dacRequest, hphase]
  cases s.dacPhase <;> rfl

section OutputSide

variable (hp : u.params = s.params)

include hp

/-- The address byte is the parameters' (44_dac_driver.md R172). -/
theorem dueAddressByte_withOutput : (withOutput s.output u).dueAddressByte = s.dueAddressByte :=
  congrArg (fun p : Params => addressByte p.dacAddr) hp

/-- The two data bytes are the latched sample's, shifted as the parameters say (44_dac_driver.md R173, R174). -/
theorem dueHighByte_withOutput : (withOutput s.output u).dueHighByte = s.dueHighByte :=
  congrArg (fun p : Params => highByte p.sampleShift s.dacSample) hp

theorem dueLowByte_withOutput : (withOutput s.output u).dueLowByte = s.dueLowByte :=
  congrArg (fun p : Params => lowByte p.sampleShift s.dacSample) hp

theorem sendAddressByte_withOutput :
    sendAddressByte (withOutput s.output u) = withOutput (sendAddressByte s).output u := by
  rw [sendAddressByte, dueAddressByte_withOutput hp]
  rfl

theorem sendHighByte_withOutput : sendHighByte (withOutput s.output u) = withOutput (sendHighByte s).output u := by
  rw [sendHighByte, dueHighByte_withOutput hp]
  rfl

theorem sendLowByte_withOutput : sendLowByte (withOutput s.output u) = withOutput (sendLowByte s).output u := by
  rw [sendLowByte, dueLowByte_withOutput hp]
  rfl

theorem busCompletion_withOutput :
    busCompletion (withOutput s.output u) = withOutput (busCompletion s).output u := by
  have hphase : (withOutput s.output u).dacPhase = s.dacPhase := rfl
  rw [busCompletion, busCompletion, hphase]
  cases s.dacPhase with
  | idle => rfl
  | startRequested => exact sendAddressByte_withOutput hp
  | addressSent => exact sendHighByte_withOutput hp
  | highNibbleSent => exact sendLowByte_withOutput hp
  | lowByteSent => rfl
  | stopRequested => rfl

theorem withLevel_withOutput (hf : ∀ k, u.frameByte k = s.frameByte k) {c c' : Sample → State}
    (hc : ∀ x, c' x = withOutput (c x).output u) (k : Nat) :
    withLevel k (withOutput s.output u) c' = mapNext (fun t => withOutput t.output u) (withLevel k s c) := by
  have htop : (withOutput s.output u).params.frameTop = s.params.frameTop := congrArg Params.frameTop hp
  by_cases hk : k ≤ s.params.frameTop
  · have hbyte : (withOutput s.output u).frameByte k = s.frameByte k := hf k
    rw [withLevel_of_le hk, withLevel_of_le (htop ▸ hk), hbyte, hc]
    rfl
  · have hgt := Nat.lt_of_not_le hk
    rw [withLevel_of_gt hgt, withLevel_of_gt (htop ▸ hgt)]
    rfl

/-- A tick of the generator reads the frame bytes beside its own part (43_mpx_generator.md R150). -/
theorem execMpxTick_withOutput (hf : ∀ k, u.frameByte k = s.frameByte k) :
    execMpxTick (withOutput s.output u) = mapNext (fun t => withOutput t.output u) (execMpxTick s) := by
  have hphase : (withOutput s.output u).mpxPhase = s.mpxPhase := rfl
  have hmax : (withOutput s.output u).params.maxOut = s.params.maxOut := congrArg Params.maxOut hp
  rw [execMpxTick, execMpxTick, hphase]
  cases s.mpxPhase with
  | emitFirstLevel =>
    refine withLevel_withOutput hp hf (fun x => ?_) 1
    exact congrArg (enterMpxPhase .emitSync <| selectChannel 2 ·) (dacRequest_withOutput x (programPeriod .short s) u)
  | emitSync =>
    exact congrArg (Host.Outcome.next <| enterMpxPhase .emitNextLevel ·) (dacRequest_withOutput syncSample s u)
  | emitNextLevel =>
    refine withLevel_withOutput hp hf (fun x => ?_) s.outputChannelIndex
    rw [dacRequest_withOutput, hmax, apply_ite (fun t => withOutput (State.output t) u)]
    rfl
  | emitLongSync =>
    exact congrArg (Host.Outcome.next <| enterMpxPhase .emitFirstLevel ·)
      (dacRequest_withOutput syncSample (programPeriod .long s) u)

/-- An operation of the output side does the same to the output part whatever the rest of the state is, up to what it
reads of it. -/
theorem exec_withOutput_of_emits (hj : emits j = true)
    (hf : j = .mpxTick → ∀ k, u.frameByte k = s.frameByte k) :
    exec j (withOutput s.output u) = mapNext (fun t => withOutput t.output u) (exec j s) := by
  cases j with
  | mpxTick => exact execMpxTick_withOutput hp (hf rfl)
  | dacReq x => exact congrArg _ (dacRequest_withOutput x s u)
  | levelCode v => exact congrArg _ (dacRequest_withOutput (levelSample v) s u)
  | syncCode => exact congrArg _ (dacRequest_withOutput syncSample s u)
  | busDone => exact congrArg _ (busCompletion_withOutput hp)
  | dacAddrByte a =>
    simp only [exec, execDacAddrByte, dueAddressByte_withOutput hp]
    exact next_ite_eq_mapNext (sendAddressByte_withOutput hp) rfl
  | dacHighByte h =>
    simp only [exec, execDacHighByte, dueHighByte_withOutput hp]
    exact next_ite_eq_mapNext (sendHighByte_withOutput hp) rfl
  | dacLowByte l =>
    simp only [exec, execDacLowByte, dueLowByte_withOutput hp]
    exact next_ite_eq_mapNext (sendLowByte_withOutput hp) rfl
  | _ => cases hj

end OutputSide

/-- Of the output side only a tick of the generator can stop the core, at a channel that does not exist (log 8). -/
theorem exists_exec_of_emits (hj : emits j = true) (hm : j ≠ .mpxTick) (s : State) : ∃ t, exec j s = .next t := by
  cases j with
  | mpxTick => exact absurd rfl hm
  | dacReq _ | levelCode _ | syncCode | busDone | dacAddrByte _ | dacHighByte _ | dacLowByte _ => exact ⟨_, rfl⟩
  | _ => cases hj

/-! ### The two orders (R203, R204) -/

/-- After an operation of the output side, an operation blind to the output part answers as before it. -/
theorem BlindToOutput.exec_after (hi : BlindToOutput i) (hj : emits j = true) (h : exec j s = .next t) :
    exec i t = mapNext (withOutput t.output) (exec i s) := by
  have hwrites : t = withOutput t.output s := by
    have hself := exec_withOutput_of_emits (s := s) rfl hj fun _ _ => rfl
    rw [withOutput_self, h] at hself
    exact Host.Outcome.next.inj hself
  rw [hwrites, hi]
  rfl

/-- After an operation blind to the output part, an operation of the output side answers as before it, unless the first
may have changed a frame byte that the second reads (20_memory.md R68). -/
theorem BlindToOutput.exec_before (hi : BlindToOutput i) (hj : emits j = true) (hr : i ≠ .reset)
    (hshare : j = .mpxTick → ∀ b, i ≠ .rxByte b) (h : exec i s = .next u) :
    exec j u = mapNext (fun t => withOutput t.output u) (exec j s) := by
  have hkeeps : withOutput s.output u = u := by
    have hself := hi s.output s
    rw [withOutput_self, h] at hself
    exact (Host.Outcome.next.inj hself).symm
  have hframe (hm : j = .mpxTick) : ∀ k, u.frameByte k = s.frameByte k :=
    (onlyAStoreChangesAFrameByte i s u h hr).1 (hshare hm)
  rw [← exec_withOutput_of_emits (Effect.of_exec h).params_eq hj hframe, hkeeps]

/-- Where at most one of the two stops the core, both orders give the same answer. -/
theorem BlindToOutput.execAll_comm (hi : BlindToOutput i) (hj : emits j = true) (hr : i ≠ .reset)
    (hshare : j = .mpxTick → ∀ b, i ≠ .rxByte b)
    (hstop : (∃ u, exec i s = .next u) ∨ ∃ t, exec j s = .next t) : execAll [i, j] s = execAll [j, i] s := by
  rcases hstop with ⟨u, hu⟩ | ⟨t, ht⟩
  · rw [execAll_cons_of_next hu, execAll_singleton, hi.exec_before hj hr hshare hu]
    cases ht : exec j s with
    | next t => rw [execAll_cons_of_next ht, execAll_singleton, hi.exec_after hj ht, hu]; rfl
    | fault f => rw [execAll, ht]; rfl
    | refused r => rw [execAll, ht]; rfl
  · rw [execAll_cons_of_next ht, execAll_singleton, hi.exec_after hj ht]
    cases hu : exec i s with
    | next u => rw [execAll_cons_of_next hu, execAll_singleton, hi.exec_before hj hr hshare hu, ht]; rfl
    | fault f => rw [execAll, hu]; rfl
    | refused r => rw [execAll, hu]; rfl

/-- Settles O60: a received byte meets no tick of the generator, so that one of the two operations always goes on, and a
supervisor period always does. -/
theorem independentEventsCommute : Obligations.IndependentEventsCommute := by
  refine ⟨fun i j s hi hj hshare => ?pipelines, fun r j s hj => ?supervisor⟩
  case pipelines =>
    have hr : i ≠ .reset := by
      rintro rfl
      cases hi
    refine (blindToOutput_of_acquires hi).execAll_comm hj hr (fun hm b hb => hshare ⟨b, hb⟩ hm) ?_
    by_cases hb : ∃ b, i = .rxByte b
    · exact .inr (exists_exec_of_emits hj (hshare hb) s)
    · exact .inl (exists_exec_of_acquires hi (not_exists.mp hb) s)
  case supervisor =>
    exact (blindToOutput_supTick r).execAll_comm hj nofun (fun _ => nofun) (.inl ⟨_, rfl⟩)

end Sys2Proof.Machine
end

