-- ==== Sys2Proof/Proofs/Reset.lean ====
section
/-!
SUPPORT. RESET (70_reset_and_hazards.md R230, R232): its word, its answer in every state, what the frame buffer reads
after it, and that it leaves the DAC driver in `Idle`, where a completion is ignored.
-/

namespace Sys2Proof.Machine

theorem encode_reset : encode .reset = .stim16 0x0000#16 := rfl

theorem exec_reset (s : State) :
    exec .reset s = .next (withStimuli s.stimuli (State.resetWith s.params)) := rfl

/-- Nothing is listed in the frame buffer after reset, so every index reads `FRAME_INIT` (20_memory.md R75). -/
theorem State.resetWith_frameByte (p : Params) (i : Nat) : (State.resetWith p).frameByte i = p.initByte i := rfl

theorem State.resetWith_dacPhase (p : Params) : (State.resetWith p).dacPhase = .idle := rfl

/-- A completion owed from before a RESET finds the driver in `Idle` and has no effect (R232). -/
theorem execAll_reset_busDone (s : State) : execAll [.reset, .busDone] s = exec .reset s := by
  have hidle : (withStimuli s.stimuli (State.resetWith s.params)).dacPhase = .idle :=
    (withStimuli_dacPhase _ _).trans (State.resetWith_dacPhase _)
  rw [execAll_cons_of_next (exec_reset s), execAll_singleton, exec_busDone_idle hidle, exec_reset]

/-- Settles O45: the answer to RESET is `State.resetWith` of the state's own parameters under its own schedule. -/
theorem resetGivesEveryElementItsValue : Obligations.ResetGivesEveryElementItsValue := by
  refine ⟨encode_reset, fun s => ⟨execAll_reset_busDone s, _, exec_reset s, fun i => ?frame, ?elements⟩⟩
  case frame =>
    exact (frameByte_congr (withStimuli_params _ _) (withStimuli_frame _ _) i).trans
      (State.resetWith_frameByte s.params i)
  case elements => rfl

end Sys2Proof.Machine
end
